-- ==== Sys2Proof/Word.lean ====
section
/-! DEFINITION. The word types of the block: every access and every register is one byte wide (R10, R52). -/

namespace Sys2Proof

/-- `REG_WIDTH` (R5): the width of the track, sector, data, command and status registers. A type of one value, since R10
makes the registers eight bits wide and R50, R80 and R122 name the bits of a byte one by one (log 14). -/
inductive RegWidth where
  /-- eight bits, the spec's default -/
  | byteWide
deriving DecidableEq, Repr

/-- How many bits a register has. -/
def RegWidth.bits : RegWidth → Nat
  | .byteWide => 8

/-- A byte: a port number, a data value, a register, a command (R10, R50, R80). Bit 7 is the most
significant, bit 0 the least (00_scope.md section 5). -/
abbrev Byte := BitVec 8

/-- The registers are `REG_WIDTH` bits wide, for every choice of the parameter. -/
theorem byte_width (w : RegWidth) : Byte = BitVec w.bits := by cases w; rfl

/-- The high half of a command byte, and `last_op` (R15, R80). -/
abbrev Nibble := BitVec 4

end Sys2Proof
end

