-- ==== Sys2Proof/Config.lean ====
section
/-! DEFINITION. What an implementation fixes (00_scope.md R5) and the values the spec leaves free. A parameter
of R5 that a run may vary is a field of `Config.Params`, which State carries so that a statement
about every state holds for every choice (log 14); a value nothing fixes is an opaque constant. -/

namespace Sys2Proof
namespace Config

/-- The five port numbers of the block (R5, R50). -/
structure Ports where
  /-- `PORT_CMD_STATUS`: the command register (write) and the status register (read) -/
  cmdStatus : Byte
  /-- `PORT_TRACK`: the track register -/
  track : Byte
  /-- `PORT_SECTOR`: the sector register -/
  sector : Byte
  /-- `PORT_DATA`: the data register -/
  data : Byte
  /-- `PORT_EXT`: the external state latch (write) and the external status (read) -/
  ext : Byte
deriving DecidableEq, Repr

/-- The ports are five different ones, as in R50's table. -/
abbrev Ports.Distinct (p : Ports) : Prop := [p.cmdStatus, p.track, p.sector, p.data, p.ext].Nodup

/-- A processor interrupt input that `INT_LINE` can name (R5, R290). -/
inductive IntLine where
  /-- the spec's default -/
  | rst7_5
  /-- an input of the processor that the spec does not name -/
  | other (n : Nat)
deriving DecidableEq, Repr

/-- `OPCODE_MAP` (R5, R82, decision D1): for each high nibble of a command byte, the opcode of R82's default map that
it stands for. The rules, `last_op` and the status layouts are written in the default map's numbers. -/
structure OpcodeMap where
  standard : Vector Nibble 16
deriving DecidableEq, Repr

/-- The opcode of the default map that a byte's high nibble stands for. -/
def OpcodeMap.opcodeOf (m : OpcodeMap) (n : Nibble) : Nibble := m.standard.get n.toFin

/-- D1's properties of an assignment: injective; bit 7 of the byte tells Type I from the others (R83, R84); bit 4 of a
STEP, STEP-IN or STEP-OUT byte is `u` (R83). -/
structure OpcodeMap.Good (m : OpcodeMap) : Prop where
  injective : ∀ a b : Nibble, m.opcodeOf a = m.opcodeOf b → a = b
  typeI : ∀ a : Nibble, (m.opcodeOf a).getLsbD 3 = a.getLsbD 3
  update : ∀ a : Nibble, 2 ≤ (m.opcodeOf a).toNat → (m.opcodeOf a).toNat < 8 → (m.opcodeOf a).getLsbD 0 = a.getLsbD 0

/-- A direction of head motion (R17): `inward` is IN, toward higher cylinder numbers, `outward` is OUT,
toward cylinder 0. That IN is upward is PRESUMED (R144, decision D10; log 7). -/
inductive StepDir where
  | inward
  | outward
deriving DecidableEq, Repr, Inhabited

/-- Which side select picks the head of a Type II or III command, `SIDE_SOURCE` (R5, decision D13). -/
inductive SideSource where
  /-- the external state latch's `ext.side` -/
  | latch
  /-- the command's own S bit, `cmd.sso` -/
  | command
deriving DecidableEq, Repr

/-- Where one field of an external latch byte stands: its bit, and the level that means true (R91). -/
structure LatchBit where
  index : Fin 8
  activeHigh : Bool
deriving DecidableEq, Repr

/-- `EXT_STATE_BITS` (R5, R91): the six fields of the byte written to port 0xE8. -/
structure ExtStateBits where
  waitEn : LatchBit
  precomp : LatchBit
  side : LatchBit
  dden : LatchBit
  chipEn : LatchBit
  driveSelect : LatchBit
deriving DecidableEq, Repr

/-- `EXT_STATUS_BITS` (R5, R91): the four fields of the byte read at port 0xE8. -/
structure ExtStatusBits where
  diskChanged : LatchBit
  terminalCount : LatchBit
  twoSided : LatchBit
  noFloppy : LatchBit
deriving DecidableEq, Repr

/-- R91: the six bit positions are distinct. -/
abbrev ExtStateBits.Distinct (m : ExtStateBits) : Prop :=
  [m.waitEn.index, m.precomp.index, m.side.index, m.dden.index, m.chipEn.index, m.driveSelect.index].Nodup

/-- R91: the four bit positions are distinct. -/
abbrev ExtStatusBits.Distinct (m : ExtStatusBits) : Prop :=
  [m.diskChanged.index, m.terminalCount.index, m.twoSided.index, m.noFloppy.index].Nodup

/-- The parameters of R5, each a field (log 14). -/
structure Params where
  /-- `PORT_CMD_STATUS`, `PORT_TRACK`, `PORT_SECTOR`, `PORT_DATA`, `PORT_EXT` -/
  ports : Ports
  /-- `REG_WIDTH` -/
  regWidth : RegWidth
  /-- `INT_LINE` -/
  intLine : IntLine
  /-- `OPCODE_MAP` -/
  opcodeMap : OpcodeMap
  /-- `STEP_DIR_RESET`, which the power-on state alone reads (R17, R312) -/
  stepDirReset : StepDir
  /-- `T_ACCEPT`, ns -/
  tAccept : Nat
  /-- `T_STEP`, ns -/
  tStep : Nat
  /-- `T_INDEX_OVERRIDE`, ns -/
  tIndexOverride : Nat
  /-- `DRQ_RELOAD` -/
  drqReload : Nat
  /-- `WT_BUF_SIZE`, bytes -/
  wtBufSize : Nat
  /-- `SIDE_SOURCE` -/
  sideSource : SideSource
  /-- `WT_STATUS_SHOWS_RNF_CRC` -/
  wtStatusShowsRnfCrc : Bool
  /-- `EXT_STATE_BITS` -/
  extStateBits : ExtStateBits
  /-- `EXT_STATUS_BITS` -/
  extStatusBits : ExtStatusBits
  /-- `DRIVE_SEEK_RANGE`: which of the answers `seekOutside` the drive gives to a cylinder outside its range -/
  driveSeekRange : Nat
  /-- `MAX_CYL`, the drive's highest cylinder -/
  maxCyl : Nat
deriving DecidableEq, Repr

/-- `STEP_DIR_RESET` of the machine at power-on (R5, R17, R312): OPEN, so opaque (log 6). -/
opaque stepDirReset : StepDir

/-- `DRIVE_SEEK_RANGE` of the machine at power-on (R5): OPEN, so opaque (log 8). -/
opaque driveSeekRange : Nat

/-- `MAX_CYL` (R5): OPEN, so opaque (log 13). -/
opaque maxCyl : Nat

/-- Which bit of the byte written to port 0xE8 carries which field: OPEN, so opaque; a permutation, so
that the positions are distinct, as R91 requires (log 11). -/
opaque extStateOrder : Equiv.Perm (Fin 8)

/-- The level that means true for each field of the byte written to port 0xE8: OPEN (R91; log 11). -/
opaque extStatePolarity : Fin 6 → Bool

/-- Which bit of the byte read at port 0xE8 carries which field: OPEN (R91; log 12). -/
opaque extStatusOrder : Equiv.Perm (Fin 8)

/-- The level that means true for each field of the byte read at port 0xE8: OPEN (R91; log 12). -/
opaque extStatusPolarity : Fin 4 → Bool

/-- `EXT_STATE_BITS` of the machine at power-on: six distinct places, otherwise open. -/
def extStateBits : ExtStateBits where
  waitEn := ⟨extStateOrder 0, extStatePolarity 0⟩
  precomp := ⟨extStateOrder 1, extStatePolarity 1⟩
  side := ⟨extStateOrder 2, extStatePolarity 2⟩
  dden := ⟨extStateOrder 3, extStatePolarity 3⟩
  chipEn := ⟨extStateOrder 4, extStatePolarity 4⟩
  driveSelect := ⟨extStateOrder 5, extStatePolarity 5⟩

/-- `EXT_STATUS_BITS` of the machine at power-on: four distinct places, otherwise open. -/
def extStatusBits : ExtStatusBits where
  diskChanged := ⟨extStatusOrder 0, extStatusPolarity 0⟩
  terminalCount := ⟨extStatusOrder 1, extStatusPolarity 1⟩
  twoSided := ⟨extStatusOrder 2, extStatusPolarity 2⟩
  noFloppy := ⟨extStatusOrder 3, extStatusPolarity 3⟩

/-- The port numbers of R50. -/
def ports : Ports := { cmdStatus := 0x84, track := 0x85, sector := 0x86, data := 0x87, ext := 0xE8 }

/-- The default `OPCODE_MAP` (R82): every nibble is its own opcode (log 1). -/
def standardMap : OpcodeMap where
  standard := #v[0x0, 0x1, 0x2, 0x3, 0x4, 0x5, 0x6, 0x7, 0x8, 0x9, 0xA, 0xB, 0xC, 0xD, 0xE, 0xF]

/-- The parameters of the machine at power-on: R5's defaults, the open ones opaque (logs 9 to 15). -/
def params : Params where
  ports := ports
  intLine := .rst7_5
  regWidth := .byteWide
  opcodeMap := standardMap
  stepDirReset := stepDirReset
  tAccept := 12000
  tStep := 6000000
  tIndexOverride := 10000000
  drqReload := 16
  wtBufSize := 65536
  sideSource := .latch
  wtStatusShowsRnfCrc := false
  extStateBits := extStateBits
  extStatusBits := extStatusBits
  driveSeekRange := driveSeekRange
  maxCyl := maxCyl

/-- Where the drive's head is after a positioning call: its cylinder and its track-0 sensor. -/
structure HeadPos where
  track : Int
  track0 : Bool
deriving DecidableEq, Repr, Inhabited

/-- What a drive does outside its range (R300, U4): for each value of `DRIVE_SEEK_RANGE`, where the head goes when
`seek_to` is asked for a cylinder outside 0 to `MAX_CYL`, from `MAX_CYL`, the head's present position and the cylinder
asked for. OPEN, so opaque (log 8). -/
opaque seekOutside : Nat → Nat → HeadPos → Int → HeadPos

/-- `any8` (00_scope.md section 5): a fresh free byte for each value of the counter `State.freeCount`
(U3 overrun, U11 unused external-status bits; logs 12 and 20). -/
opaque freeByte : Nat → Byte

/-- The byte a place of the medium holds before the block has stored one there: a free value for each
format of the track (its serial number) and address, the same at every read (U10, R231; log 17). -/
opaque mediumByte : Nat → Nat → Byte

/-- R22: which of two timers due at the same time fires first, a free choice for each due time; true
for the index timer (log 19). -/
opaque indexTimerFirst : Nat → Bool

end Config
end Sys2Proof
end

