-- ==== Sys2Proof/Syntax.lean ====
section
/-! DEFINITION. The commands of the block as syntax: one constructor per row of spec/opcode_table.json. -/

namespace Sys2Proof

/-- The thirteen commands (R81, R82). The one-bit parameters are the letters of R83 and R84, in the
order of the byte: `u` update, `h` head-load, `v` verify; `l` long-sector flag, `e` delay flag,
`sso` side select (the letter S), `a` data-address-mark override. The two undecoded low bits of a
Type I byte are `x` and the condition bits of FORCE INTERRUPT are `i`: numbers whose range
`Instr.wellFormed` checks. Fields no rule reads are kept, so that no byte is lost in decoding. -/
inductive Instr where
  /-- RESTORE, `0000hVxx` (R141). -/
  | restore (h v : Bool) (x : Nat)
  /-- SEEK, `0001hVxx` (R142). -/
  | seek (h v : Bool) (x : Nat)
  /-- STEP, `001uhVxx` (R143). -/
  | step (u h v : Bool) (x : Nat)
  /-- STEP-IN, `010uhVxx` (R144). -/
  | stepIn (u h v : Bool) (x : Nat)
  /-- STEP-OUT, `011uhVxx` (R145). -/
  | stepOut (u h v : Bool) (x : Nat)
  /-- READ SECTOR single, `1000LESa` (R170). -/
  | rdSec (l e sso a : Bool)
  /-- READ SECTOR multiple, `1001LESa` (R176). -/
  | rdSecM (l e sso a : Bool)
  /-- WRITE SECTOR single, `1010LESa` (R171). -/
  | wrSec (l e sso a : Bool)
  /-- WRITE SECTOR multiple, `1011LESa` (R177). -/
  | wrSecM (l e sso a : Bool)
  /-- READ ADDRESS, `1100LESa` (R210). -/
  | rdAddr (l e sso a : Bool)
  /-- FORCE INTERRUPT, `1101iiii` (R250). -/
  | fint (i : Nat)
  /-- READ TRACK, `1110LESa` (R211). -/
  | rdTrk (l e sso a : Bool)
  /-- WRITE TRACK, `1111LESa` (R212). -/
  | wrTrk (l e sso a : Bool)
deriving DecidableEq, Repr

end Sys2Proof
end

