-- ==== Sys2Proof/WellFormed.lean ====
section
/-! DEFINITION. Which command terms have a byte: the numeric fields fit the bits R83 and R85 give them. -/

namespace Sys2Proof

/-- The numeric fields are in range: the undecoded `x x` of a Type I command in two bits (R83), the
condition bits of FORCE INTERRUPT in four (R85). The one-bit fields are `Bool` and need no check. -/
def Instr.wellFormed : Instr → Bool
  | .restore _ _ x => decide (x < 4)
  | .seek _ _ x => decide (x < 4)
  | .step _ _ _ x => decide (x < 4)
  | .stepIn _ _ _ x => decide (x < 4)
  | .stepOut _ _ _ x => decide (x < 4)
  | .rdSec _ _ _ _ => true
  | .rdSecM _ _ _ _ => true
  | .wrSec _ _ _ _ => true
  | .wrSecM _ _ _ _ => true
  | .rdAddr _ _ _ _ => true
  | .fint i => decide (i < 16)
  | .rdTrk _ _ _ _ => true
  | .wrTrk _ _ _ _ => true

end Sys2Proof
end

