-- ==== Sys2Proof/Decode.lean ====
section
/-! DEFINITION. Decoding a command byte and encoding a command (R80 to R86). The decoder and the encoder are those of the
default `OPCODE_MAP` (R82, decision D1; log 1, PRESUMED); `decodeUnder` decodes under any. -/

namespace Sys2Proof

/-- Why bytes hold no command. R86: no byte is illegal, so only an absent byte is refused. -/
inductive DecodeError where
  /-- There is no byte to decode. Safe: nothing is executed. -/
  | noByte
deriving DecidableEq, Repr

/-- `op`, the opcode nibble `c[7:4]` (R80). -/
def opcodeNibble (c : Byte) : Nibble := c.extractLsb' 4 4

/-- The undecoded bits `c[1:0]` of a Type I command (R83). -/
def lowTwo (c : Byte) : Nat := (c.extractLsb' 0 2).toNat

/-- The condition bits `c[3:0]` of FORCE INTERRUPT (R85). -/
def lowFour (c : Byte) : Nat := (c.extractLsb' 0 4).toNat

/-- The command of a byte (R82, fields R83 to R85). Total: every byte is a command (R86). -/
def decodeByte (c : Byte) : Instr :=
  match (opcodeNibble c).toNat with
  | 0 => .restore (c.getLsbD 3) (c.getLsbD 2) (lowTwo c)
  | 1 => .seek (c.getLsbD 3) (c.getLsbD 2) (lowTwo c)
  | 2 => .step (c.getLsbD 4) (c.getLsbD 3) (c.getLsbD 2) (lowTwo c)
  | 3 => .step (c.getLsbD 4) (c.getLsbD 3) (c.getLsbD 2) (lowTwo c)
  | 4 => .stepIn (c.getLsbD 4) (c.getLsbD 3) (c.getLsbD 2) (lowTwo c)
  | 5 => .stepIn (c.getLsbD 4) (c.getLsbD 3) (c.getLsbD 2) (lowTwo c)
  | 6 => .stepOut (c.getLsbD 4) (c.getLsbD 3) (c.getLsbD 2) (lowTwo c)
  | 7 => .stepOut (c.getLsbD 4) (c.getLsbD 3) (c.getLsbD 2) (lowTwo c)
  | 8 => .rdSec (c.getLsbD 3) (c.getLsbD 2) (c.getLsbD 1) (c.getLsbD 0)
  | 9 => .rdSecM (c.getLsbD 3) (c.getLsbD 2) (c.getLsbD 1) (c.getLsbD 0)
  | 10 => .wrSec (c.getLsbD 3) (c.getLsbD 2) (c.getLsbD 1) (c.getLsbD 0)
  | 11 => .wrSecM (c.getLsbD 3) (c.getLsbD 2) (c.getLsbD 1) (c.getLsbD 0)
  | 12 => .rdAddr (c.getLsbD 3) (c.getLsbD 2) (c.getLsbD 1) (c.getLsbD 0)
  | 13 => .fint (lowFour c)
  | 14 => .rdTrk (c.getLsbD 3) (c.getLsbD 2) (c.getLsbD 1) (c.getLsbD 0)
  | _ => .wrTrk (c.getLsbD 3) (c.getLsbD 2) (c.getLsbD 1) (c.getLsbD 0)

/-- A command byte read under an `OPCODE_MAP`, as the default map would have it: the opcode its high nibble stands for,
above its own parameter bits (R5, R82). -/
def standardByte (m : Config.OpcodeMap) (c : Byte) : Byte := m.opcodeOf (opcodeNibble c) ++ c.extractLsb' 0 4

/-- The command of a byte under an `OPCODE_MAP` (R5, R82). -/
def decodeUnder (m : Config.OpcodeMap) (c : Byte) : Instr := decodeByte (standardByte m c)

/-- Decoding a stream of bytes: one command, one byte (R80), and the bytes after it. -/
def decode : List Byte → Except DecodeError (Instr × List Byte)
  | [] => .error .noByte
  | c :: rest => .ok (decodeByte c, rest)

/-- The opcode nibble of a command (R82): STEP, STEP-IN and STEP-OUT have two, told apart by `u`. -/
def Instr.opcode : Instr → Nibble
  | .restore _ _ _ => 0x0
  | .seek _ _ _ => 0x1
  | .step u _ _ _ => if u then 0x3 else 0x2
  | .stepIn u _ _ _ => if u then 0x5 else 0x4
  | .stepOut u _ _ _ => if u then 0x7 else 0x6
  | .rdSec _ _ _ _ => 0x8
  | .rdSecM _ _ _ _ => 0x9
  | .wrSec _ _ _ _ => 0xA
  | .wrSecM _ _ _ _ => 0xB
  | .rdAddr _ _ _ _ => 0xC
  | .fint _ => 0xD
  | .rdTrk _ _ _ _ => 0xE
  | .wrTrk _ _ _ _ => 0xF

/-- The parameter nibble of a Type I command below its opcode: `h V x x` (R83). -/
def typeIParams (h v : Bool) (x : Nat) : Nibble := BitVec.ofBool h ++ BitVec.ofBool v ++ BitVec.ofNat 2 x

/-- The parameter nibble of a Type II or III command: `L E S a` (R84). -/
def typeIIParams (l e sso a : Bool) : Nibble :=
  BitVec.ofBool l ++ BitVec.ofBool e ++ BitVec.ofBool sso ++ BitVec.ofBool a

/-- The parameter nibble of a command (R83 to R85). -/
def Instr.params : Instr → Nibble
  | .restore h v x => typeIParams h v x
  | .seek h v x => typeIParams h v x
  | .step _ h v x => typeIParams h v x
  | .stepIn _ h v x => typeIParams h v x
  | .stepOut _ h v x => typeIParams h v x
  | .rdSec l e sso a => typeIIParams l e sso a
  | .rdSecM l e sso a => typeIIParams l e sso a
  | .wrSec l e sso a => typeIIParams l e sso a
  | .wrSecM l e sso a => typeIIParams l e sso a
  | .rdAddr l e sso a => typeIIParams l e sso a
  | .fint i => BitVec.ofNat 4 i
  | .rdTrk l e sso a => typeIIParams l e sso a
  | .wrTrk l e sso a => typeIIParams l e sso a

/-- The byte of a command: opcode nibble above parameter nibble (R80). -/
def encodeByte (i : Instr) : Byte := i.opcode ++ i.params

/-- The bytes of a command. -/
def encode (i : Instr) : List Byte := [encodeByte i]

/-- The command whose `nbits` bits are `w` in the opcode table's numbering. A command is one byte, so
only a row of eight bits is laid out and decoded. -/
def decodeTableWord (nbits w : Nat) : Option Instr :=
  if nbits = 8 then
    match decode [BitVec.ofNat 8 w] with
    | .ok (i, _) => some i
    | .error _ => none
  else none

end Sys2Proof
end

