-- ==== Sys2Proof/Machine/State.lean ====
section
/-! DEFINITION. The state of the block and of the surroundings it reads and changes, as plain data; the ways a
step can stop; and the state at power-on (10_state.md, 60_exceptions.md R300). -/

namespace Sys2Proof.Machine

open Sys2Proof.Config (StepDir Params)

/-- The three host-visible registers (R10, R11). -/
structure Regs where
  track : Byte
  sector : Byte
  data : Byte
deriving DecidableEq, Repr

/-- The twelve flags (R12). -/
structure Flags where
  busy : Bool
  drq : Bool
  crcError : Bool
  seekError : Bool
  headLoaded : Bool
  recordTypeOrWriteFault : Bool
  recordNotFound : Bool
  lostData : Bool
  commandAbort : Bool
  indexReset : Bool
  fdcEnabled : Bool
  interruptPending : Bool
deriving DecidableEq, Repr

/-- The external state latch (R14). `side` false is side 0. -/
structure ExtLatch where
  waitEn : Bool
  precomp : Bool
  side : Bool
  dden : Bool
  chipEn : Bool
  driveSelect : Bool
deriving DecidableEq, Repr

/-- The command parameter latches (R16). -/
structure CmdLatch where
  u : Bool
  h : Bool
  v : Bool
  sso : Bool
deriving DecidableEq, Repr

/-- Which Type I command the worker runs (R17). -/
inductive T1Kind where
  | seekLike
  | stepLike
deriving DecidableEq, Repr

/-- The sequencer (R18). -/
inductive Phase where
  | idle
  | t1Run
  | t2Accept
  | t2Xfer
  | t3Accept
  | t3Collect
deriving DecidableEq, Repr

/-- What the worker timer runs when it fires (R20). -/
inductive TimerKind where
  | t1Tick
  | sectorEntry
  | wtEntry
deriving DecidableEq, Repr

/-- The worker timer when it is present: its due time in ns and its kind (R20). -/
structure WorkerTimer where
  due : Nat
  kind : TimerKind
deriving DecidableEq, Repr

/-- The sector buffer, a reference into the disk (R23): the sector, its length, the next byte's index. -/
structure Xfer where
  cyl : Nat
  head : Bool
  sidx : Nat
  len : Nat
  idx : Nat
deriving DecidableEq, Repr

/-- The write-track buffer: the bytes received so far and the head captured at entry (R24). -/
structure WtBuffer where
  bytes : List Byte
  side : Bool
deriving DecidableEq, Repr

/-- The drive collaborator as the block sees it (R300). `track` is an integer of the drive's own. -/
structure Drive where
  track : Int
  track0 : Bool
  driveSelect : Bool
  index : Bool
  isLoaded : Bool
  isWriteProtected : Bool
  isSingleSided : Bool
  diskChange : Bool
deriving DecidableEq, Repr

/-- A track's recording format: an "enum including FM-500 and MFM-500" (R300); any other is unsupported (R172). -/
inductive TrackFormat where
  | fm500
  | mfm500
  | other
deriving DecidableEq, Repr

/-- A track of the disk (R300): its place, format, and the length of each sector's data array, sector 1
first, so that the sector count is the length of the list. `serial` tells the formats of a track
apart, for the free bytes they leave (R231; log 17). -/
structure Track where
  cyl : Nat
  head : Bool
  format : TrackFormat
  sectorLens : List Nat
  serial : Nat
deriving DecidableEq, Repr

/-- The disk collaborator but for its sectors' bytes (R300): the tracks the medium has, in rising order
of place, and the mark `set_modified` leaves. -/
structure Disk where
  tracks : List Track
  modified : Bool
deriving DecidableEq, Repr

/-- The sectors' bytes, by address of the disk space (R56; log 16). An unlisted address holds no stored byte. -/
abbrev Memory := List Host.Cell

/-- The one canonical form: addresses strictly rising. No entry can equal what an unlisted address holds,
since that is no byte at all. -/
abbrev Memory.wf (m : Memory) : Prop := m.Pairwise fun a b => a.1 < b.1

/-- What a read access or a query of an agent answered (R50, R62). The model's own output. -/
inductive Reply where
  /-- nothing has been read yet -/
  | silent
  /-- the value of the last port read or DMA read -/
  | byte (b : Byte)
  /-- the answer of the last `drq()` -/
  | request (b : Bool)
deriving DecidableEq, Repr

/-- A change the drive makes to its own inputs (R6, R300, R301). It never moves the head. -/
inductive DriveInput where
  | loaded (b : Bool)
  | writeProtected (b : Bool)
  | singleSided (b : Bool)
  | diskChange (b : Bool)
  | track0 (b : Bool)
  /-- the index sensor goes low: a falling edge, which is no event for the block (R222) -/
  | indexLow
deriving DecidableEq, Repr

/-- One atomic step of one agent (R6, R92). -/
inductive Event where
  /-- host: `PortWrite(port, value)`, the line `OUT` (R50) -/
  | portWrite (port value : Byte)
  /-- host: `PortRead(port)`, the line `IN` (R50) -/
  | portRead (port : Byte)
  /-- host or surroundings: the line `RESET`, an explicit system reset (R310) -/
  | reset
  /-- surroundings: the master-reset pseudo-signal takes this level; its high-to-low edge resets (R310) -/
  | masterReset (high : Bool)
  /-- timer: the line `TICK` (R92) -/
  | tick
  /-- timer: the line `RUN`, which ticks until the worker timer is absent (R92) -/
  | run
  /-- timer: the line `WAIT`, which lets `ns` pass (R92) -/
  | wait (ns : Nat)
  /-- timer: `ns` pass, or as much of it as there is until the earliest due time, and no timer fires, so that another
  agent may step at any time not later than that (R22, R294 (f)) -/
  | elapse (ns : Nat)
  /-- DMA engine: `drq()` (R180) -/
  | drqQuery
  /-- DMA engine: `dma_read()` (R181) -/
  | dmaRead
  /-- DMA engine: `dma_write(b)` (R182) -/
  | dmaWrite (b : Byte)
  /-- DMA engine: `dma_complete()` (R183) -/
  | dmaComplete
  /-- DMA engine: its terminal-count output takes this level (R270) -/
  | dmaTc (b : Bool)
  /-- drive: a rising edge of its index signal, the line `INDEX` (R222) -/
  | indexEdge
  /-- drive: a change of one of its inputs to the block (R300) -/
  | driveInput (d : DriveInput)
deriving DecidableEq, Repr

/-- The machine. The fields from `regs` to `drqCounter` are the block's own (10_state.md); `drive`, `disk`,
`mem`, `dmaTc` and `masterReset` are the surroundings it reads and changes (R27, R300; log 18); the
last five are the model's: the parameters, the outputs, the free-value counter and the schedule (logs 2, 14, 30). -/
structure State where
  regs : Regs
  flags : Flags
  /-- the opcode nibble of the last command (R15) -/
  lastOp : Nibble
  ext : ExtLatch
  cmd : CmdLatch
  stepDir : StepDir
  seekDest : Byte
  t1Kind : T1Kind
  stepPending : Bool
  phase : Phase
  workerTimer : Option WorkerTimer
  indexTimer : Option Nat
  now : Nat
  xfer : Option Xfer
  wt : Option WtBuffer
  drqCounter : Nat
  drive : Drive
  disk : Disk
  mem : Memory
  dmaTc : Bool
  masterReset : Bool
  /-- the parameters of R5; no step changes them -/
  cfg : Params
  /-- the answer of the last read access or query -/
  reply : Reply
  /-- the `raise_external_interrupt` calls made, the latest first, each with its line (R290) -/
  intEvents : List Config.IntLine
  /-- the counter `Config.freeByte` is drawn with -/
  freeCount : Nat
  /-- the coming steps of the agents, the next one first -/
  agenda : List Event
deriving DecidableEq, Repr

/-- Fatal invariant violations (R282, R283). Each stops the run with no handler; safe: no later state is claimed. -/
inductive Fault where
  /-- raised by a port access outside R50 (R51, R285); safe -/
  | unexpectedPort
  /-- raised by `dma_read`, `dma_write`, `dma_complete` with DRQ low or while WRITE TRACK collects (R185); safe -/
  | unexpectedDma
  /-- raised by `dma_write` under a command other than WRITE SECTOR (R182); safe -/
  | dmaWriteNotAllowed
  /-- raised by the sector entry with `reg.sector` = 0 when every check passed (R173); safe -/
  | sectorZero
  /-- raised by a stream byte that does not fit the write-track buffer (R215); safe -/
  | wtOverflow
  /-- raised by the parser: the first byte disagrees with the density flag (R225); safe -/
  | wtBadGap
  /-- raised by the parser: an ID's track is not `reg.track` (R226); safe -/
  | wtBadTrack
  /-- raised by the parser: an ID's head is not the captured side (R226); safe -/
  | wtBadHead
  /-- raised by the parser: a length code above 3 (R226); safe -/
  | wtBadLengthCode
  /-- raised by the parser: a sector size other than the first's (R226); safe -/
  | wtSizeMismatch
  /-- raised by the parser: a sector number seen twice (R226); safe -/
  | wtDuplicateSector
  /-- raised by the parser: a data record whose length is not the sector size (R228); safe -/
  | wtDataLength
  /-- raised by the parser: the sectors seen are not exactly 1 to N (R230); safe -/
  | wtNonContiguous
  /-- raised by the parser: the stream ends inside a record or before a sector's data (R226, R228, R229); safe -/
  | wtTruncated
  /-- raised by the parser: no sector at all (R230); safe -/
  | wtNoSectors
deriving DecidableEq, Repr

/-- Steps the model gives no next state. All are safe: nothing can be claimed of what follows. -/
inductive Refusal where
  /-- raised by an arm of exec whose instruction has no meaning yet; safe. No arm uses it now. -/
  | notModelled (mnemonic : String)
  /-- raised by the four unimplemented commands, the distinct "not implemented" error (R119, R284, U16); it
  carries the opcode and the state the dispatcher leaves, `interrupt_pending` cleared and `last_op`
  recorded; safe -/
  | notImplemented (op : Nibble) (left : State)
  /-- raised by a data-port read under DRQ with no sector transfer in flight (R113, U7, C9); safe -/
  | dataReadWhileCollecting
  /-- raised by the write-track entry on a drive that is not ready (R213, U8); safe -/
  | writeTrackNotReady
  /-- raised by the write-track entry on a write-protected medium (R213, U8); safe -/
  | writeTrackProtected
  /-- raised by the sector entry when the medium has no such track (R172, U9); safe -/
  | noSuchTrack
  /-- raised by the sector entry when the medium has no such sector or its data array is empty (R175, U9); safe -/
  | noSuchSector
  /-- raised by the index edge that ends a WRITE TRACK whose stream parses, when the medium was taken out since the
  entry and there is no disk to format (R300, U8; log 47); safe -/
  | mediumAbsent
  /-- raised by a transfer step in a state with phase T2_XFER and no sector buffer, which no reachable
  state is (R19; log 33); safe -/
  | noSectorBuffer
  /-- raised by a stream byte or index edge in a state with phase T3_COLLECT and no write-track
  buffer, which no reachable state is (R19; log 33); safe -/
  | noTrackBuffer
deriving DecidableEq, Repr

/-- What a step answers. -/
abbrev Result := Host.Outcome State Fault Refusal

/-- All twelve flags false (R12, R26). -/
def Flags.clear : Flags :=
  { busy := false, drq := false, crcError := false, seekError := false, headLoaded := false,
    recordTypeOrWriteFault := false, recordNotFound := false, lostData := false, commandAbort := false,
    indexReset := false, fdcEnabled := false, interruptPending := false }

/-- All six fields of the external state latch 0 (R14, R26). -/
def ExtLatch.clear : ExtLatch :=
  { waitEn := false, precomp := false, side := false, dden := false, chipEn := false, driveSelect := false }

/-- All command parameter latches 0 (R16, R26). -/
def CmdLatch.clear : CmdLatch := { u := false, h := false, v := false, sso := false }

/-- The machine at power-on under given parameters, which is the state after reset (R26, R311, R312), with `step_dir` at
`STEP_DIR_RESET`, the drive empty and its head at cylinder 0, and no agent's step pending (logs 2, 6, 18, 30, 38). -/
def State.powerOn (p : Params) : State where
  regs := { track := 0, sector := 0, data := 0 }
  flags := Flags.clear
  lastOp := 0x0
  ext := ExtLatch.clear
  cmd := CmdLatch.clear
  stepDir := p.stepDirReset
  seekDest := 0
  t1Kind := .seekLike
  stepPending := false
  phase := .idle
  workerTimer := none
  indexTimer := none
  now := 0
  xfer := none
  wt := none
  drqCounter := p.drqReload
  drive :=
    { track := 0, track0 := true, driveSelect := false, index := false, isLoaded := false,
      isWriteProtected := false, isSingleSided := false, diskChange := false }
  disk := { tracks := [], modified := false }
  mem := []
  dmaTc := false
  masterReset := false
  cfg := p
  reply := .silent
  intEvents := []
  freeCount := 0
  agenda := []

/-- The machine at power-on under the parameters' defaults (R5). -/
def State.reset : State := State.powerOn Config.params

end Sys2Proof.Machine
end

