-- ==== Sys2Proof/Machine/Ops.lean ====
section
/-! DEFINITION. The named operations over the disk's bytes, the drive, the timers, the interrupt output and the
flags that the commands and the agents' steps share; and the reset operation. -/

namespace Sys2Proof.Machine

open Sys2Proof.Config (StepDir Params)

/-! ### Outcomes -/

/-- Go on with `f` after a next state; a fault or a refusal stands. -/
def andThen (o : Result) (f : State → Result) : Result :=
  match o with
  | .next s => f s
  | .fault r => .fault r
  | .refused r => .refused r

/-! ### The disk space (R56, R57) -/

/-- A numbering of the pairs of numbers, different for different pairs: the first is how often 2 divides it (log 16). -/
def pairAddr (k n : Nat) : Nat := 2 ^ k * (2 * n + 1)

/-- The place of a track: cylinder, then head. -/
def trackKey (cyl : Nat) (head : Bool) : Nat := cyl * 2 + head.toNat

/-- The address of byte `i` of the data array of sector index `sidx` on (cylinder, head) (R56): one number for every
four-part address of the disk space, with no bound on any part (log 16). -/
def diskAddr (cyl : Nat) (head : Bool) (sidx i : Nat) : Nat := pairAddr (trackKey cyl head) (pairAddr sidx i)

/-- Whether an address belongs to the track at a place. -/
def inTrack (cyl : Nat) (head : Bool) (a : Nat) : Bool := a % 2 ^ (trackKey cyl head + 1) == 2 ^ trackKey cyl head

/-- The byte stored at an address, if any. -/
def memRead : Memory → Nat → Option Byte
  | [], _ => none
  | (b, v) :: rest, a => if b = a then some v else memRead rest a

/-- Store a byte at an address, keeping the addresses rising. -/
def memWrite : Memory → Nat → Byte → Memory
  | [], a, v => [(a, v)]
  | (b, w) :: rest, a, v =>
    if a < b then (a, v) :: (b, w) :: rest
    else if a = b then (a, v) :: rest
    else (b, w) :: memWrite rest a v

/-- Forget every byte stored on the track at a place. -/
def memErase (m : Memory) (cyl : Nat) (head : Bool) : Memory := m.filter fun c => !inTrack cyl head c.1

/-- `disk.get_track` (R300): the track at a place, if the medium has it. -/
def getTrack (d : Disk) (cyl : Int) (head : Bool) : Option Track :=
  d.tracks.find? fun t => decide ((t.cyl : Int) = cyl) && (t.head == head)

/-- The serial number of the track at a place, which picks its free bytes; 0 where there is no track. -/
def trackSerial (d : Disk) (cyl : Nat) (head : Bool) : Nat :=
  match getTrack d cyl head with
  | some t => t.serial
  | none => 0

/-- One byte of the disk space as the block sees it: the byte stored there, else the free value of the
medium (R56, U10; log 17). -/
def diskByte (s : State) (cyl : Nat) (head : Bool) (sidx i : Nat) : Byte :=
  match memRead s.mem (diskAddr cyl head sidx i) with
  | some b => b
  | none => Config.mediumByte (trackSerial s.disk cyl head) (diskAddr cyl head sidx i)

/-- `MemRead` at the transfer's next byte (R56, R181, R187). The buffer refers to the array the entry fetched (R23), so
a transfer goes on when the medium is taken out meanwhile (log 47). -/
def xferByte (s : State) (x : Xfer) : Byte := diskByte s x.cyl x.head x.sidx x.idx

/-- The address of the transfer's next byte: where `MemWrite` stores (R56, R182, R188). -/
def xferAddr (x : Xfer) : Nat := diskAddr x.cyl x.head x.sidx x.idx

/-- `MemWrite` at the transfer's next byte, write-through (R57). -/
def storeXferByte (x : Xfer) (b : Byte) (s : State) : State := { s with mem := memWrite s.mem (xferAddr x) b }

/-- Put a track into the directory, in place of the one at its place if there is one, keeping the places rising. -/
def putTrack (t : Track) : List Track → List Track
  | [] => [t]
  | u :: rest =>
    if trackKey t.cyl t.head < trackKey u.cyl u.head then t :: u :: rest
    else if trackKey t.cyl t.head = trackKey u.cyl u.head then t :: rest
    else u :: putTrack t rest

/-- `disk.format_track` (R231, R300): afterwards the track has that format, `count` sectors of `size`
bytes, and bytes that are free values of this format (U10; log 17). -/
def formatTrack (fmt : TrackFormat) (cyl : Nat) (head : Bool) (count size : Nat) (s : State) : State :=
  { s with
    disk := { s.disk with
      tracks := putTrack
        { cyl := cyl, head := head, format := fmt, sectorLens := List.replicate count size, serial := s.freeCount + 1 }
        s.disk.tracks }
    mem := memErase s.mem cyl head
    freeCount := s.freeCount + 1 }

/-! ### The drive (R300) -/

/-- Where `drive.seek_to(c)` puts the head: for 0 ≤ c ≤ `MAX_CYL` at `c`, the track-0 sensor following
(PRESUMED, log 8); outside, wherever `DRIVE_SEEK_RANGE` says (U4). -/
def seekTarget (p : Params) (d : Drive) (c : Int) : Config.HeadPos :=
  if 0 ≤ c ∧ c ≤ (p.maxCyl : Int) then { track := c, track0 := decide (c = 0) }
  else Config.seekOutside p.driveSeekRange p.maxCyl { track := d.track, track0 := d.track0 } c

/-- `drive.seek_to(c)` (R300). -/
def seekTo (c : Int) (s : State) : State :=
  { s with drive := { s.drive with track := (seekTarget s.cfg s.drive c).track
                                   track0 := (seekTarget s.cfg s.drive c).track0 } }

/-- A cylinder number reduced modulo 256, as the block compares it with `reg.track` (R141, R149, R172). -/
def trackLow (c : Int) : Byte := BitVec.ofInt 8 c

/-- The drive changes one of its inputs (R6, R300). -/
def applyDriveInput (i : DriveInput) (d : Drive) : Drive :=
  match i with
  | .loaded b => { d with isLoaded := b }
  | .writeProtected b => { d with isWriteProtected := b }
  | .singleSided b => { d with isSingleSided := b }
  | .diskChange b => { d with diskChange := b }
  | .track0 b => { d with track0 := b }
  | .indexLow => { d with index := false }

/-! ### Timer, interrupt, answers -/

/-- `start_timer(d, kind)` (R20). -/
def startTimer (d : Nat) (k : TimerKind) (s : State) : State :=
  { s with workerTimer := some { due := s.now + d, kind := k } }

/-- `raise_interrupt()` (R290): the pending bit and one event on the line `INT_LINE`. The one operation by which the
block interrupts its host; it saves nothing and changes no mode (R292), and has no return (R293). -/
def raiseInterrupt (s : State) : State :=
  { s with flags := { s.flags with interruptPending := true }, intEvents := s.cfg.intLine :: s.intEvents }

/-- Answer a read access with a byte. -/
def answer (b : Byte) (s : State) : State := { s with reply := .byte b }

/-- Answer a `drq()` query. -/
def answerRequest (b : Bool) (s : State) : State := { s with reply := .request b }

/-- Answer a read with `any8`, a fresh free byte (00_scope.md section 5; U3, log 20). -/
def answerAny (s : State) : State :=
  { s with reply := .byte (Config.freeByte s.freeCount), freeCount := s.freeCount + 1 }

/-! ### Acceptance and the end of a command -/

/-- What the dispatcher does to every command that passes the busy test, before it dispatches (R114): the
interrupt is acknowledged (R116) and the opcode recorded (R117). -/
def recordCommand (op : Nibble) (s : State) : State :=
  { s with flags := { s.flags with interruptPending := false }, lastOp := op }

/-- The flags of `Accept(c)` (R118): `busy` set, `command_abort` cleared (decision D4). -/
def acceptFlags (s : State) : State :=
  { s with flags := { s.flags with busy := true, commandAbort := false } }

/-- FinishDataTransfer (R186). -/
def finishDataTransfer (s : State) : State :=
  raiseInterrupt { s with flags := { s.flags with drq := false, busy := false }, xfer := none, phase := .idle }

/-- WriteTrackComplete (R232). -/
def writeTrackComplete (s : State) : State :=
  raiseInterrupt { s with flags := { s.flags with drq := false, busy := false }, wt := none, phase := .idle }

/-! ### Reset (R311) -/

/-- `Reset()` (R311). Not written: `step_dir`, `now`, the drive but for its select, the disk, the parameters
and the model's own outputs and schedule. -/
def resetBlock (s : State) : State :=
  { s with
    regs := { track := 0, sector := 0, data := 0 }
    flags := Flags.clear
    lastOp := 0x0
    ext := ExtLatch.clear
    drive := { s.drive with driveSelect := false }
    workerTimer := none
    indexTimer := none
    xfer := none
    wt := none
    phase := .idle
    drqCounter := s.cfg.drqReload
    cmd := CmdLatch.clear
    seekDest := 0
    t1Kind := .seekLike
    stepPending := false }

end Sys2Proof.Machine
end

