-- ==== Sys2Proof/Machine/Operands.lean ====
section
/-! DEFINITION. The operand forms: what a command latches of its byte (R16), the head a Type II or III command
uses (R172), and the fields of the two external latch bytes (R91, R260, R270). -/

namespace Sys2Proof.Machine

open Sys2Proof.Config (LatchBit ExtStateBits ExtStatusBits)

/-- The Type I latches `cmd.u`, `cmd.h`, `cmd.v`, from bits 4, 3, 2 of the command byte (R16, R118). -/
def latchTypeI (u h v : Bool) (s : State) : State := { s with cmd := { s.cmd with u := u, h := h, v := v } }

/-- The Type II and III latch `cmd.sso`, from bit 1 of the command byte (R16, R118). -/
def latchTypeII (sso : Bool) (s : State) : State := { s with cmd := { s.cmd with sso := sso } }

/-- The selected side: `ext.side` or `cmd.sso`, as `SIDE_SOURCE` says (R172, R213). -/
def headSelect (s : State) : Bool :=
  match s.cfg.sideSource with
  | .latch => s.ext.side
  | .command => s.cmd.sso

/-- The head number as a byte, as the write-track stream's ID field gives it (R90, R226). -/
def sideByte (side : Bool) : Byte := BitVec.ofNat 8 side.toNat

/-- The truth of one field of an external latch byte (R91). -/
def readField (p : LatchBit) (b : Byte) : Bool := b.getLsbD p.index.val == p.activeHigh

/-- Bit `i` of a byte set to `v`, the others kept. -/
def setBit (i : Nat) (v : Bool) (b : Byte) : Byte := if v then b ||| (1#8 <<< i) else b &&& ~~~(1#8 <<< i)

/-- One field of an external latch byte made true or false (R91). -/
def writeField (p : LatchBit) (v : Bool) (b : Byte) : Byte := setBit p.index.val (v == p.activeHigh) b

/-- `fields(b)` (R260): the six fields of a byte written to port 0xE8 under `EXT_STATE_BITS`. -/
def latchFields (m : ExtStateBits) (b : Byte) : ExtLatch where
  waitEn := readField m.waitEn b
  precomp := readField m.precomp b
  side := readField m.side b
  dden := readField m.dden b
  chipEn := readField m.chipEn b
  driveSelect := readField m.driveSelect b

/-- The byte of the line `EXT` (R92): the named fields under `EXT_STATE_BITS`, the two unused bits 0. -/
def latchByte (m : ExtStateBits) (e : ExtLatch) : Byte :=
  writeField m.waitEn e.waitEn <| writeField m.precomp e.precomp <| writeField m.side e.side <|
    writeField m.dden e.dden <| writeField m.chipEn e.chipEn <| writeField m.driveSelect e.driveSelect 0

/-- `encode` of the external status (R270) under `EXT_STATUS_BITS`; `base` gives the four unused bits. -/
def statusFields (m : ExtStatusBits) (diskChanged terminalCount twoSided noFloppy : Bool) (base : Byte) : Byte :=
  writeField m.diskChanged diskChanged <| writeField m.terminalCount terminalCount <|
    writeField m.twoSided twoSided <| writeField m.noFloppy noFloppy base

end Sys2Proof.Machine
end

