-- ==== Sys2Proof/Machine/Flags.lean ====
section
/-! DEFINITION. Every flag computation of the spec: the signals the status layouts share (R121), the error flags
(R148, R172), and the status byte in its six layouts (R122 to R128). -/

namespace Sys2Proof.Machine

/-- NotReady (R121): no drive selected, or no medium loaded. -/
def notReady (s : State) : Bool := !s.ext.driveSelect || !s.drive.isLoaded

/-- Index (R121): the drive's sensor or the override. -/
def indexSignal (s : State) : Bool := s.drive.index || s.flags.indexReset

/-- `seek_error` at a Type I completion (R148). -/
def seekErrorAt (s : State) : Bool :=
  s.cmd.v && s.drive.isLoaded && decide (s.regs.track ≠ trackLow s.drive.track)

/-- `record_not_found` at the sector entry, step 2 (R172): the register differs from the head's cylinder,
or the sector number is above the track's sector count. -/
def recordNotFoundAt (s : State) (trk : Track) : Bool :=
  decide (s.regs.track ≠ trackLow s.drive.track) || decide (s.regs.sector.toNat > trk.sectorLens.length)

/-- `crc_error` at the sector entry, step 3 (R172): the format is unsupported, or the density latch disagrees. -/
def crcErrorAt (s : State) (trk : Track) : Bool :=
  match trk.format with
  | .fm500 => s.ext.dden
  | .mfm500 => !s.ext.dden
  | .other => true

/-- A byte from its eight bits, bit 7 first. -/
def byteOfBits (b7 b6 b5 b4 b3 b2 b1 b0 : Bool) : Byte :=
  BitVec.ofBool b7 ++ BitVec.ofBool b6 ++ BitVec.ofBool b5 ++ BitVec.ofBool b4 ++
    BitVec.ofBool b3 ++ BitVec.ofBool b2 ++ BitVec.ofBool b1 ++ BitVec.ofBool b0

/-- The Type I layout (R122). -/
def statusTypeI (s : State) : Byte :=
  byteOfBits (notReady s) s.drive.isWriteProtected s.flags.headLoaded s.flags.seekError s.flags.crcError
    s.drive.track0 (indexSignal s) s.flags.busy

/-- The READ SECTOR layout (R123), and READ ADDRESS's (R125). -/
def statusRead (s : State) : Byte :=
  byteOfBits (notReady s) false false s.flags.recordNotFound s.flags.crcError s.flags.lostData s.flags.drq s.flags.busy

/-- The WRITE SECTOR layout (R124). -/
def statusWrite (s : State) : Byte :=
  byteOfBits (notReady s) s.drive.isWriteProtected s.flags.recordTypeOrWriteFault s.flags.recordNotFound
    s.flags.crcError s.flags.lostData s.flags.drq s.flags.busy

/-- The READ TRACK layout (R126). -/
def statusReadTrack (s : State) : Byte :=
  byteOfBits (notReady s) false false (s.cfg.wtStatusShowsRnfCrc && s.flags.recordNotFound)
    (s.cfg.wtStatusShowsRnfCrc && s.flags.crcError) s.flags.lostData s.flags.drq s.flags.busy

/-- The WRITE TRACK layout (R127). -/
def statusWriteTrack (s : State) : Byte :=
  byteOfBits (notReady s) s.drive.isWriteProtected s.flags.recordTypeOrWriteFault
    (s.cfg.wtStatusShowsRnfCrc && s.flags.recordNotFound) (s.cfg.wtStatusShowsRnfCrc && s.flags.crcError)
    s.flags.lostData s.flags.drq s.flags.busy

/-- `StatusByte(last_op)` (R120, R128): the layout depends on `last_op` alone. -/
def statusByte (s : State) : Byte :=
  match s.lastOp.toNat with
  | 8 => statusRead s
  | 9 => statusRead s
  | 10 => statusWrite s
  | 11 => statusWrite s
  | 12 => statusRead s
  | 14 => statusReadTrack s
  | 15 => statusWriteTrack s
  | _ => statusTypeI s

end Sys2Proof.Machine
end

