-- ==== Sys2Proof/Machine/TypeI.lean ====
section
/-! DEFINITION. Type I commands: RESTORE, SEEK, STEP, STEP-IN, STEP-OUT at acceptance, and the worker they share
(41_type1.md). -/

namespace Sys2Proof.Machine

open Sys2Proof.Config (StepDir)

/-- What the dispatcher does for a Type I command before its own rule runs (R114, R118). -/
def acceptTypeI (op : Nibble) (u h v : Bool) (s : State) : State :=
  latchTypeI u h v (acceptFlags (recordCommand op s))

/-- The common tail of every Type I acceptance (R140). -/
def startTypeI (s : State) : State := startTimer s.cfg.tAccept .t1Tick { s with phase := .t1Run }

/-- RESTORE (R141). Bit 4 of its byte is 0, and so is `cmd.u` (R118). -/
def execRestore (h v : Bool) (_x : Nat) (s : State) : Result :=
  let s1 := acceptTypeI 0x0 false h v s
  .next (startTypeI
    { s1 with regs := { s1.regs with track := trackLow s1.drive.track }, seekDest := 0, t1Kind := .seekLike })

/-- SEEK (R142). Bit 4 of its byte is 1, and so is `cmd.u` (R118). -/
def execSeek (h v : Bool) (_x : Nat) (s : State) : Result :=
  let s1 := acceptTypeI 0x1 true h v s
  .next (startTypeI { s1 with seekDest := s1.regs.data, t1Kind := .seekLike })

/-- STEP (R143): one step in the direction `step_dir` holds when it is taken. -/
def execStep (u h v : Bool) (_x : Nat) (s : State) : Result :=
  let s1 := acceptTypeI (if u then 0x3 else 0x2) u h v s
  .next (startTypeI { s1 with t1Kind := .stepLike, stepPending := true })

/-- STEP-IN (R144). -/
def execStepIn (u h v : Bool) (_x : Nat) (s : State) : Result :=
  let s1 := acceptTypeI (if u then 0x5 else 0x4) u h v s
  .next (startTypeI { s1 with stepDir := .inward, t1Kind := .stepLike, stepPending := true })

/-- STEP-OUT (R145). -/
def execStepOut (u h v : Bool) (_x : Nat) (s : State) : Result :=
  let s1 := acceptTypeI (if u then 0x7 else 0x6) u h v s
  .next (startTypeI { s1 with stepDir := .outward, t1Kind := .stepLike, stepPending := true })

/-- The change of the head's cylinder by one step (R147): +1 for IN, −1 for OUT. -/
def stepDelta : StepDir → Int
  | .inward => 1
  | .outward => -1

/-- `reg.track` after one step: wraps modulo 256 (R147, R149). -/
def stepTrack (dir : StepDir) (t : Byte) : Byte :=
  match dir with
  | .inward => t + 1
  | .outward => t - 1

/-- One head step (R147). -/
def oneStep (dir : StepDir) (update : Bool) (s : State) : State :=
  let s1 := seekTo (s.drive.track + stepDelta dir) s
  { s1 with
    regs := { s1.regs with track := if update then stepTrack dir s1.regs.track else s1.regs.track }
    stepDir := dir }

/-- The direction of a SEEK or RESTORE step: an unsigned comparison (R146, R149). -/
def seekDirection (s : State) : StepDir := if s.regs.track.toNat < s.seekDest.toNat then .inward else .outward

/-- Type I completion (R148). -/
def t1Complete (s : State) : State :=
  raiseInterrupt
    { s with
      flags := { s.flags with seekError := seekErrorAt s, headLoaded := s.cmd.h, busy := false }
      phase := .idle }

/-- The Type I worker tick (R146); the guard on `command_abort` stands in `fireWorker` (R20). -/
def t1Tick (s : State) : State :=
  if s.t1Kind = .seekLike ∧ s.regs.track ≠ s.seekDest then
    startTimer s.cfg.tStep .t1Tick (oneStep (seekDirection s) true s)
  else if s.t1Kind = .stepLike ∧ s.stepPending = true then
    startTimer s.cfg.tStep .t1Tick { oneStep s.stepDir s.cmd.u s with stepPending := false }
  else t1Complete s

end Sys2Proof.Machine
end

