-- ==== Sys2Proof/Machine/TrackParser.lean ====
section
/-! DEFINITION. The write-track parser (R224 to R230): an automaton fed one byte at a time, in stream order. -/

namespace Sys2Proof.Machine

/-- The automaton's state (R224). `gap4`, `indexMark`, `idRecordMark` and `dataRecordMark` are the spec's;
`idField` is inside the four bytes after a 0xFE, those got so far (R226), and `dataRecord` is between a 0xFB and
the next 0xF7, after `count` data bytes (R228). -/
inductive ParseMode where
  | gap4
  | indexMark
  | idRecordMark
  | idField (got : List Byte)
  | dataRecordMark
  | dataRecord (count : Nat)
deriving DecidableEq, Repr

/-- What the parser keeps (R224): its state, the track's sector size once set, the sector numbers seen, latest first. -/
structure Parser where
  mode : ParseMode
  size : Option Nat
  seen : List Byte
deriving DecidableEq, Repr

/-- What the parser compares the stream with (R223): the density flag, `reg.track`, the captured side. -/
structure ParseEnv where
  dden : Bool
  track : Byte
  side : Bool
deriving DecidableEq, Repr

/-- The parser before the first byte (R224). -/
def parserStart : Parser := { mode := .gap4, size := none, seen := [] }

/-- The gap byte the density flag asks for (R89, R225). -/
def gapByte (dden : Bool) : Byte := if dden then 0x4E else 0xFF

/-- The sector size of a length code: 128 · 2^code (R88). -/
def sectorSize (code : Byte) : Nat := 128 * 2 ^ code.toNat

/-- The tests on a complete ID field, in the order of R226, and what it records. -/
def checkId (env : ParseEnv) (p : Parser) (t h n l : Byte) : Except Fault Parser :=
  if t ≠ env.track then .error .wtBadTrack
  else if h ≠ sideByte env.side then .error .wtBadHead
  else if 3 < l.toNat then .error .wtBadLengthCode
  else if p.size ≠ none ∧ p.size ≠ some (sectorSize l) then .error .wtSizeMismatch
  else if n ∈ p.seen then .error .wtDuplicateSector
  else .ok { mode := .dataRecordMark, size := some (sectorSize l), seen := n :: p.seen }

/-- One byte of an ID field (R226): the fourth one has it checked. -/
def parseIdByte (env : ParseEnv) (p : Parser) (got : List Byte) (b : Byte) : Except Fault Parser :=
  match got with
  | [t, h, n] => checkId env p t h n b
  | _ => .ok { p with mode := .idField (got ++ [b]) }

/-- One byte of a data record (R228): 0xF7 ends it, and its length must then be the sector size. -/
def parseDataByte (p : Parser) (count : Nat) (b : Byte) : Except Fault Parser :=
  if b = 0xF7 then
    if p.size = some count then .ok { p with mode := .idRecordMark } else .error .wtDataLength
  else .ok { p with mode := .dataRecord (count + 1) }

/-- One byte of the stream (R225 to R228). -/
def parseByte (env : ParseEnv) (p : Parser) (b : Byte) : Except Fault Parser :=
  match p.mode with
  | .gap4 => if b = gapByte env.dden then .ok { p with mode := .indexMark } else .error .wtBadGap
  | .indexMark => .ok (if b = 0xFC then { p with mode := .idRecordMark } else p)
  | .idRecordMark => .ok (if b = 0xFE then { p with mode := .idField [] } else p)
  | .idField got => parseIdByte env p got b
  | .dataRecordMark => .ok (if b = 0xFB then { p with mode := .dataRecord 0 } else p)
  | .dataRecord count => parseDataByte p count b

/-- The parser over a list of bytes, from any of its states. The first violation in stream order ends it (R294 (d)). -/
def parseBytes (env : ParseEnv) : Parser → List Byte → Except Fault Parser
  | p, [] => .ok p
  | p, b :: rest =>
    match parseByte env p b with
    | .ok q => parseBytes env q rest
    | .error f => .error f

/-- Whether the stream may end in this state (R229; inside an ID or a data record it may not, R226, R228). -/
def mayEnd : ParseMode → Bool
  | .gap4 => true
  | .indexMark => true
  | .idRecordMark => true
  | .idField _ => false
  | .dataRecordMark => false
  | .dataRecord _ => false

/-- The sector numbers seen are exactly 1 to N (R230); they are all different (R226), so it is enough
that each of 1 to N is there. -/
def contiguous (seen : List Byte) : Bool :=
  (List.range seen.length).all fun k => seen.any fun n => n.toNat == k + 1

/-- The end of the stream (R229) and the checks after parsing (R230): the sector count and size. -/
def parseEnd (p : Parser) : Except Fault (Nat × Nat) :=
  if mayEnd p.mode = false then .error .wtTruncated
  else
    match p.size with
    | none => .error .wtNoSectors
    | some size => if contiguous p.seen then .ok (p.seen.length, size) else .error .wtNonContiguous

/-- `ParseTrack` (R223): the stream's sector count and size, or the violation. -/
def parseTrack (env : ParseEnv) (bytes : List Byte) : Except Fault (Nat × Nat) :=
  match parseBytes env parserStart bytes with
  | .ok p => parseEnd p
  | .error f => .error f

end Sys2Proof.Machine
end

