-- ==== Sys2Proof/Machine/TypeII.lean ====
section
/-! DEFINITION. Type II commands: acceptance, the sector entry, DRQ pacing, the DMA path and the PIO path
(42_type2.md). -/

namespace Sys2Proof.Machine

/-- What the dispatcher does for a sector command or WRITE TRACK before its own rule runs (R114, R118). -/
def acceptTypeII (op : Nibble) (sso : Bool) (s : State) : State :=
  latchTypeII sso (acceptFlags (recordCommand op s))

/-- The common tail of the two sector commands (R170, R171). -/
def startSector (s : State) : State := startTimer s.cfg.tAccept .sectorEntry { s with phase := .t2Accept }

/-- The "not implemented" error of a decode-only command (R119, R284): `interrupt_pending` is cleared and
`last_op` recorded, nothing else changes, and the step is refused by that name, carrying that state. -/
def raiseNotImplemented (op : Nibble) (s : State) : Result := .refused (.notImplemented op (recordCommand op s))

/-- READ SECTOR single (R170). L, E and a are ignored (R84). -/
def execRdSec (_l _e sso _a : Bool) (s : State) : Result := .next (startSector (acceptTypeII 0x8 sso s))

/-- READ SECTOR multiple (R176): decoded, not executed. -/
def execRdSecM (_l _e _sso _a : Bool) (s : State) : Result := raiseNotImplemented 0x9 s

/-- WRITE SECTOR single (R171). L, E and a are ignored (R84). -/
def execWrSec (_l _e sso _a : Bool) (s : State) : Result := .next (startSector (acceptTypeII 0xA sso s))

/-- WRITE SECTOR multiple (R177): decoded, not executed. -/
def execWrSecM (_l _e _sso _a : Bool) (s : State) : Result := raiseNotImplemented 0xB s

/-! ### Entry (R172 to R175) -/

/-- FailSector (R174): no interrupt, no buffer. -/
def failSector (s : State) : State :=
  { s with flags := { s.flags with busy := false, drq := false }, phase := .idle }

/-- Steps 2 and 3 of the entry: both error flags are assigned their conditions (R172, R173; decision D5). -/
def assignErrorFlags (trk : Track) (s : State) : State :=
  { s with flags := { s.flags with recordNotFound := recordNotFoundAt s trk, crcError := crcErrorAt s trk } }

/-- Steps 4 and 5 of the entry: an error flag is set, or a write meets a write-protected medium (R172). -/
def sectorRefused (trk : Track) (s : State) : Bool :=
  recordNotFoundAt s trk || crcErrorAt s trk || (decide (s.lastOp ≠ 0x8) && s.drive.isWriteProtected)

/-- The state of a transfer of `len` bytes that has begun (R175): the buffer, `busy` and `drq`, and for a write
the disk's modified mark. `drq_counter` is not reloaded (decision D16). -/
def openTransfer (trk : Track) (len : Nat) (s : State) : State :=
  { s with
    xfer := some { cyl := trk.cyl, head := trk.head, sidx := s.regs.sector.toNat - 1, len := len, idx := 0 }
    flags := { s.flags with busy := true, drq := true }
    disk := if s.lastOp = 0x8 then s.disk else { s.disk with modified := true }
    phase := .t2Xfer }

/-- BeginTransfer (R175) on the resolved track. `reg.sector` is at least 1 here and at most the sector count. A sector
with an empty data array, or one that is not there, is outside the disk's contract and refused (U9; log 23). -/
def beginTransfer (trk : Track) (s : State) : Result :=
  let len := trk.sectorLens.getD (s.regs.sector.toNat - 1) 0
  if len = 0 then .refused .noSuchSector else .next (openTransfer trk len s)

/-- The checks of the sector entry on a resolved track, steps 2 to 6 (R172, R173). -/
def sectorChecks (trk : Track) (s : State) : Result :=
  if sectorRefused trk s then .next (failSector (assignErrorFlags trk s))
  else if s.regs.sector = 0 then .fault .sectorZero
  else beginTransfer trk (assignErrorFlags trk s)

/-- Sector entry (R172): NotReady first; then the track the drive gives for (physical cylinder, selected
side). The guard on `command_abort` stands in `fireWorker` (R20). -/
def sectorEntry (s : State) : Result :=
  if notReady s then .next (failSector s)
  else
    match getTrack s.disk s.drive.track (headSelect s) with
    | none => .refused .noSuchTrack
    | some trk => sectorChecks trk s

/-! ### DRQ pacing (R180) -/

/-- The counter after a query made while DRQ is up (R180). -/
def drqCount (s : State) : Nat := if s.drqCounter - 1 = 0 then s.cfg.drqReload else s.drqCounter - 1

/-- `drq()` (R180). -/
def drqQuery (s : State) : State :=
  if s.flags.drq then answerRequest (decide (s.drqCounter - 1 = 0)) { s with drqCounter := drqCount s }
  else answerRequest false s

/-! ### DMA (R181 to R186) -/

/-- The guard of every DMA transaction (R185): DRQ up and a sector transfer in flight. -/
def dmaReady (s : State) : Bool := s.flags.drq && decide (s.phase = .t2Xfer)

/-- Run a transfer step on the sector buffer. A state in phase T2_XFER without one is unreachable (log 33). -/
def withXfer (f : Xfer → State → Result) (s : State) : Result :=
  match s.xfer with
  | none => .refused .noSectorBuffer
  | some x => f x s

/-- The next byte moves: `xfer.idx` advances. -/
def advanceXfer (x : Xfer) (s : State) : State := { s with xfer := some { x with idx := x.idx + 1 } }

/-- `dma_read()` past the guard (R181, R184). -/
def dmaReadByte (x : Xfer) (s : State) : Result :=
  if x.len ≤ x.idx then .next (answerAny s)
  else .next (answer (xferByte s x) { advanceXfer x s with drqCounter := s.cfg.drqReload })

/-- `dma_read()` (R181). -/
def dmaRead (s : State) : Result := if dmaReady s then withXfer dmaReadByte s else .fault .unexpectedDma

/-- `dma_write(b)` past the guards (R182, R184). -/
def dmaWriteByte (b : Byte) (x : Xfer) (s : State) : Result :=
  if x.len ≤ x.idx then .next s else .next (advanceXfer x (storeXferByte x b s))

/-- `dma_write(b)` (R182). -/
def dmaWrite (b : Byte) (s : State) : Result :=
  if dmaReady s then
    if s.lastOp = 0xA then withXfer (dmaWriteByte b) s else .fault .dmaWriteNotAllowed
  else .fault .unexpectedDma

/-- `dma_complete()` (R183). -/
def dmaComplete (s : State) : Result := if dmaReady s then .next (finishDataTransfer s) else .fault .unexpectedDma

/-! ### PIO (R187, R188) -/

/-- The end-of-buffer test of a PIO step, on the buffer as it was before the byte moved: the last byte
completes the command in the same step (R187, R188). -/
def finishIfLast (x : Xfer) (s : State) : State := if x.idx + 1 = x.len then finishDataTransfer s else s

/-- SectorPioRead on the buffer (R187, R184). -/
def pioReadByte (x : Xfer) (s : State) : Result :=
  if x.len ≤ x.idx then .next (answerAny s)
  else .next (answer (xferByte s x) (finishIfLast x (advanceXfer x s)))

/-- SectorPioRead (R187). -/
def sectorPioRead (s : State) : Result := withXfer pioReadByte s

/-- SectorPioWrite on the buffer (R188, R184). -/
def pioWriteByte (b : Byte) (x : Xfer) (s : State) : Result :=
  if x.len ≤ x.idx then .next s else .next (finishIfLast x (advanceXfer x (storeXferByte x b s)))

/-- SectorPioWrite (R188). -/
def sectorPioWrite (b : Byte) (s : State) : Result := withXfer (pioWriteByte b) s

end Sys2Proof.Machine
end

