-- ==== Sys2Proof/Machine/TypeIII.lean ====
section
/-! DEFINITION. Type III commands: READ ADDRESS and READ TRACK, decoded only; WRITE TRACK, its entry, its stream
and the index edge that ends it (43_type3.md). -/

namespace Sys2Proof.Machine

/-- READ ADDRESS (R210): decoded, not executed. -/
def execRdAddr (_l _e _sso _a : Bool) (s : State) : Result := raiseNotImplemented 0xC s

/-- READ TRACK (R211): decoded, not executed. -/
def execRdTrk (_l _e _sso _a : Bool) (s : State) : Result := raiseNotImplemented 0xE s

/-- WRITE TRACK at acceptance (R212). L, E and a are ignored (R84). -/
def execWrTrk (_l _e sso _a : Bool) (s : State) : Result :=
  let s1 := acceptTypeII 0xF sso s
  .next (startTimer s1.cfg.tAccept .wtEntry { s1 with phase := .t3Accept })

/-- Write-track entry (R213). On a drive that is not ready or is write-protected the spec gives no
behaviour (U8; log 22). The guard on `command_abort` stands in `fireWorker` (R20). -/
def wtEntry (s : State) : Result :=
  if notReady s then .refused .writeTrackNotReady
  else if s.drive.isWriteProtected then .refused .writeTrackProtected
  else
    .next
      { s with
        wt := some { bytes := [], side := headSelect s }
        flags := { s.flags with drq := true }
        phase := .t3Collect }

/-- WriteTrackByte (R214, R215). -/
def writeTrackByte (b : Byte) (s : State) : Result :=
  match s.wt with
  | none => .refused .noTrackBuffer
  | some w =>
    if s.cfg.wtBufSize ≤ w.bytes.length then .fault .wtOverflow
    else .next { s with wt := some { w with bytes := w.bytes ++ [b] } }

/-- The format the density latch selects (R223, R231). -/
def latchFormat (dden : Bool) : TrackFormat := if dden then .mfm500 else .fm500

/-- What the parser compares with: `ext.dden` and `reg.track` as they are at the index edge (R223). -/
def parseEnvOf (s : State) (w : WtBuffer) : ParseEnv := { dden := s.ext.dden, track := s.regs.track, side := w.side }

/-- FinishWriteTrack (R223, R231, R232): on a parse error nothing happens but the fault. The disk is absent when no
medium is loaded (R300), and then there is nothing to format: the spec gives no behaviour and the model refuses.
The drive select is not tested here (log 47). -/
def finishWriteTrack (s : State) : Result :=
  match s.wt with
  | none => .refused .noTrackBuffer
  | some w =>
    match parseTrack (parseEnvOf s w) w.bytes with
    | .error f => .fault f
    | .ok (count, size) =>
      if s.drive.isLoaded then
        .next (writeTrackComplete (formatTrack (latchFormat s.ext.dden) s.regs.track.toNat w.side count size s))
      else .refused .mediumAbsent

/-- The drive's index signal rises (R222): it ends a WRITE TRACK that collects, and changes nothing else
in the block. -/
def indexEdge (s : State) : Result :=
  let s1 : State := { s with drive := { s.drive with index := true } }
  if s.phase = .t3Collect then finishWriteTrack s1 else .next s1

end Sys2Proof.Machine
end

