-- ==== Sys2Proof/Machine/TypeIV.lean ====
section
/-! DEFINITION. FORCE INTERRUPT (44_force_interrupt.md). -/

namespace Sys2Proof.Machine

/-- FORCE INTERRUPT (R250 to R253): the dispatcher's part, then the abort. The condition bits are not
distinguished (R85), and no interrupt is raised. -/
def execFint (_i : Nat) (s : State) : Result :=
  let s1 := recordCommand 0xD s
  .next
    { s1 with
      flags := { s1.flags with commandAbort := true, busy := false, drq := false }
      lastOp := 0x0
      workerTimer := none
      xfer := none
      wt := none
      phase := .idle }

end Sys2Proof.Machine
end

