-- ==== Sys2Proof/Machine/Dispatch.lean ====
section
/-! DEFINITION. The dispatcher past the busy test (R114): one arm per command. The busy test itself (R115) stands
in `commandWrite`, since it is the port's: a discarded byte runs no command. -/

namespace Sys2Proof.Machine

def exec (i : Instr) (s : State) : Host.Outcome State Fault Refusal :=
  match i with
  | .restore h v x => Sys2Proof.Machine.execRestore h v x s
  | .seek h v x => Sys2Proof.Machine.execSeek h v x s
  | .step u h v x => Sys2Proof.Machine.execStep u h v x s
  | .stepIn u h v x => Sys2Proof.Machine.execStepIn u h v x s
  | .stepOut u h v x => Sys2Proof.Machine.execStepOut u h v x s
  | .rdSec l e sso a => Sys2Proof.Machine.execRdSec l e sso a s
  | .rdSecM l e sso a => Sys2Proof.Machine.execRdSecM l e sso a s
  | .wrSec l e sso a => Sys2Proof.Machine.execWrSec l e sso a s
  | .wrSecM l e sso a => Sys2Proof.Machine.execWrSecM l e sso a s
  | .rdAddr l e sso a => Sys2Proof.Machine.execRdAddr l e sso a s
  | .fint c => Sys2Proof.Machine.execFint c s
  | .rdTrk l e sso a => Sys2Proof.Machine.execRdTrk l e sso a s
  | .wrTrk l e sso a => Sys2Proof.Machine.execWrTrk l e sso a s

end Sys2Proof.Machine
end

