-- ==== Sys2Proof/Machine/Ports.lean ====
section
/-! DEFINITION. The host's port accesses (40_ports_and_status.md, 45_external_latch.md): the register ports, the
command port with its busy test, the status port, the external latch with chip enable and disable. -/

namespace Sys2Proof.Machine

/-- The opcode `op` of a command byte under the machine's `OPCODE_MAP` (R80, R82). -/
def commandOp (s : State) (c : Byte) : Nibble := opcodeNibble (standardByte s.cfg.opcodeMap c)

/-- The dispatcher on a byte in the default map's numbers (R114, R115): a byte written while busy is discarded unless it
is FORCE INTERRUPT; any other runs its command. -/
def dispatch (c : Byte) (s : State) : Result :=
  if s.flags.busy = true ∧ opcodeNibble c ≠ 0xD then .next s else exec (decodeByte c) s

/-- Command port write (R114). -/
def commandWrite (c : Byte) (s : State) : Result := dispatch (standardByte s.cfg.opcodeMap c) s

/-- Data port write (R112). -/
def dataWrite (b : Byte) (s : State) : Result :=
  let s1 : State := { s with regs := { s.regs with data := b } }
  if s.flags.drq then
    if s.phase = .t3Collect then writeTrackByte b s1
    else if s.phase = .t2Xfer ∧ s.lastOp = 0xA then sectorPioWrite b s1
    else .next s1
  else .next s1

/-- Data port read (R113). With DRQ up and no sector transfer the spec gives no behaviour (U7; log 21). -/
def dataRead (s : State) : Result :=
  if s.flags.drq then
    if s.phase = .t2Xfer then sectorPioRead s else .refused .dataReadWhileCollecting
  else .next (answer s.regs.data s)

/-- Status port read (R120): the interrupt is acknowledged, then the byte is composed. -/
def statusRead84 (s : State) : State :=
  let s1 : State := { s with flags := { s.flags with interruptPending := false } }
  answer (statusByte s1) s1

/-- The byte of the synthetic RESTORE in the default map's numbers: h = 1, V = 0 (R266). -/
def syntheticRestore : Byte := 0x08

/-- The index override of chip enable, if a drive is selected (R264, R267). -/
def startIndexOverride (s : State) : State :=
  if s.ext.driveSelect then
    { s with flags := { s.flags with indexReset := true }, indexTimer := some (s.now + s.cfg.tIndexOverride) }
  else s

/-- Chip enable (R264, R266, R267): nothing if enabled; else the flag, the synthetic RESTORE through the
ordinary dispatcher, the index override. -/
def chipEnable (s : State) : Result :=
  if s.flags.fdcEnabled then .next s
  else
    andThen (dispatch syntheticRestore { s with flags := { s.flags with fdcEnabled := true } }) fun s1 =>
      .next (startIndexOverride s1)

/-- Chip disable (R268): nothing if disabled; else `Reset()`. -/
def chipDisable (s : State) : State := if s.flags.fdcEnabled then resetBlock s else s

/-- Steps 1 and 2 of the external state latch write (R260): the fields, and the drive's select. -/
def latchWrite (e : ExtLatch) (s : State) : State :=
  { s with ext := e, drive := { s.drive with driveSelect := e.driveSelect } }

/-- External state latch write (R260). -/
def extWrite (b : Byte) (s : State) : Result :=
  let s1 := latchWrite (latchFields s.cfg.extStateBits b) s
  if s1.ext.chipEn then chipEnable s1 else .next (chipDisable s1)

/-- External status read (R270). The four unused bits are `any8` bits, fresh at each read (R91; log 12). -/
def extRead (s : State) : State :=
  answer
    (statusFields s.cfg.extStatusBits s.drive.diskChange s.dmaTc (!s.drive.isSingleSided) (!s.drive.isLoaded)
      (Config.freeByte s.freeCount))
    { s with freeCount := s.freeCount + 1 }

/-- `PortWrite(port, b)` (R50, R51, R110 to R112, R114, R260). -/
def portWrite (port b : Byte) (s : State) : Result :=
  if port = s.cfg.ports.cmdStatus then commandWrite b s
  else if port = s.cfg.ports.track then .next { s with regs := { s.regs with track := b } }
  else if port = s.cfg.ports.sector then .next { s with regs := { s.regs with sector := b } }
  else if port = s.cfg.ports.data then dataWrite b s
  else if port = s.cfg.ports.ext then extWrite b s
  else .fault .unexpectedPort

/-- `PortRead(port)` (R50, R51, R110, R111, R113, R120, R270). -/
def portRead (port : Byte) (s : State) : Result :=
  if port = s.cfg.ports.cmdStatus then .next (statusRead84 s)
  else if port = s.cfg.ports.track then .next (answer s.regs.track s)
  else if port = s.cfg.ports.sector then .next (answer s.regs.sector s)
  else if port = s.cfg.ports.data then dataRead s
  else if port = s.cfg.ports.ext then .next (extRead s)
  else .fault .unexpectedPort

end Sys2Proof.Machine
end

