-- ==== Sys2Proof/Machine/Timers.lean ====
section
/-! DEFINITION. The timer agent (R20 to R22): which timer is next, what firing one does, and the lines `TICK`,
`RUN` and `WAIT` (R92). -/

namespace Sys2Proof.Machine

/-- A timer that can fire. -/
inductive TimerSel where
  | worker (kind : TimerKind)
  | index
deriving DecidableEq, Repr

/-- The earliest pending timer and its due time (R22). Of two due together either may come first, so a
free value decides (log 19). -/
def nextTimer (s : State) : Option (Nat × TimerSel) :=
  match s.workerTimer, s.indexTimer with
  | none, none => none
  | some w, none => some (w.due, .worker w.kind)
  | none, some i => some (i, .index)
  | some w, some i =>
    if w.due < i then some (w.due, .worker w.kind)
    else if i < w.due then some (i, .index)
    else if Config.indexTimerFirst i then some (i, .index)
    else some (w.due, .worker w.kind)

/-- The step a worker timer runs, with the guard on `command_abort` that R20, R146, R172 and R213 share.
The timer is already absent. -/
def fireWorker (k : TimerKind) (s : State) : Result :=
  if s.flags.commandAbort then .next s
  else
    match k with
    | .t1Tick => .next (t1Tick s)
    | .sectorEntry => sectorEntry s
    | .wtEntry => wtEntry s

/-- The step of the index timer (R21). The timer is already absent. -/
def fireIndex (s : State) : State := { s with flags := { s.flags with indexReset := false } }

/-- `now` moved to a due time, never back. -/
def advanceTo (t : Nat) (s : State) : State := { s with now := max s.now t }

/-- Time passes without a timer firing, at most to the earliest pending due time (R22). -/
def elapse (ns : Nat) (s : State) : State :=
  match nextTimer s with
  | none => advanceTo (s.now + ns) s
  | some (t, _) => advanceTo (min (s.now + ns) t) s

/-- `TICK` (R92): advance `now` to the earliest due time and fire that timer; nothing if none is pending. -/
def tick (s : State) : Result :=
  match nextTimer s with
  | none => .next s
  | some (t, .worker k) => fireWorker k { advanceTo t s with workerTimer := none }
  | some (t, .index) => .next (fireIndex { advanceTo t s with indexTimer := none })

/-- `RUN` (R92), one tick at a time: while the worker timer is present, a tick, and `RUN` again. -/
def runLine (s : State) : Result :=
  match s.workerTimer with
  | none => .next s
  | some _ => tick { s with agenda := .run :: s.agenda }

/-- `WAIT t` (R92), one timer at a time: a timer due within the time fires and the rest of the wait stands
again at the head of the schedule; with none, the time passes. -/
def waitLine (ns : Nat) (s : State) : Result :=
  match nextTimer s with
  | none => .next { s with now := s.now + ns }
  | some (t, _) =>
    if t ≤ s.now + ns then tick { s with agenda := .wait (s.now + ns - max s.now t) :: s.agenda }
    else .next { s with now := s.now + ns }

end Sys2Proof.Machine
end

