-- ==== Sys2Proof/Machine/Agents.lean ====
section
/-! DEFINITION. One atomic step of one agent (R6, R58, R301). -/

namespace Sys2Proof.Machine

/-- The master-reset pseudo-signal takes a level (R310): its high-to-low edge resets, no other change does. -/
def masterResetLevel (high : Bool) (s : State) : State :=
  if s.masterReset = true ∧ high = false then { resetBlock s with masterReset := false } else { s with masterReset := high }

/-- The step of an agent, the schedule behind it already in `s`. -/
def agentStep (e : Event) (s : State) : Result :=
  match e with
  | .portWrite port b => portWrite port b s
  | .portRead port => portRead port s
  | .reset => .next (resetBlock s)
  | .masterReset high => .next (masterResetLevel high s)
  | .tick => tick s
  | .run => runLine s
  | .wait ns => waitLine ns s
  | .elapse ns => .next (elapse ns s)
  | .drqQuery => .next (drqQuery s)
  | .dmaRead => dmaRead s
  | .dmaWrite b => dmaWrite b s
  | .dmaComplete => dmaComplete s
  | .dmaTc b => .next { s with dmaTc := b }
  | .indexEdge => indexEdge s
  | .driveInput d => .next { s with drive := applyDriveInput d s.drive }

/-- The next step of the machine: the agent at the head of the schedule moves; with no step scheduled, the
timer agent takes its turn (R22, R301; log 2). -/
def nextStep (s : State) : Result :=
  match s.agenda with
  | [] => tick s
  | e :: rest => agentStep e { s with agenda := rest }

end Sys2Proof.Machine
end

