-- ==== Sys2Proof/Machine/Step.lean ====
section
/-! DEFINITION. One step of the machine, and the placing of a command where the step takes its next one. -/

namespace Sys2Proof.Machine

/-- One step: the next atomic step of the next agent (R6, R58). -/
def step : State → Host.Outcome State Fault Refusal := nextStep

/-- `s` with the command byte `w` placed as the host's next step: a write of it to the command port, since
commands arrive through that port and nothing is fetched (10_state.md section 2, R114; log 2). Every
command is one byte, so `nbits` chooses nothing. While the block is busy the port itself discards such a
write (R115). -/
def State.withFetchWord (s : State) (_nbits w : Nat) : State :=
  { s with agenda := .portWrite s.cfg.ports.cmdStatus (BitVec.ofNat 8 w) :: s.agenda }

end Sys2Proof.Machine
end

