-- ==== Sys2Proof/Safety.lean ====
section
/-! DEFINITION. What claims call a good state and a finished run: the invariants of R19 with the facts the other
rules imply, and the end of a run (R301). -/

namespace Sys2Proof.Machine

/-- The worker timer that a phase waits for (R18, R20). -/
def Phase.timer : Phase → Option TimerKind
  | .idle => none
  | .t1Run => some .t1Tick
  | .t2Accept => some .sectorEntry
  | .t2Xfer => none
  | .t3Accept => some .wtEntry
  | .t3Collect => none

/-- The opcodes that a phase can be running (R18): none is asked of IDLE. -/
def Phase.allows (p : Phase) (op : Nibble) : Prop :=
  match p with
  | .idle => True
  | .t1Run => op.toNat < 8
  | .t2Accept => op = 0x8 ∨ op = 0xA
  | .t2Xfer => op = 0x8 ∨ op = 0xA
  | .t3Accept => op = 0xF
  | .t3Collect => op = 0xF

/-- The parameters make sense: five different ports (R50), an opcode assignment of decision D1, the latch fields on
distinct bits (R91), and a pacing counter that can count (R25). -/
structure GoodParams (p : Config.Params) : Prop where
  ports : p.ports.Distinct
  opcodeMap : p.opcodeMap.Good
  extState : p.extStateBits.Distinct
  extStatus : p.extStatusBits.Distinct
  reload : 1 ≤ p.drqReload

/-- The sequencer agrees with the flags, the timer and the buffers (R19). -/
structure SequencerInv (s : State) : Prop where
  /-- `flag.busy` = (`phase` ≠ IDLE) -/
  busy : s.flags.busy = decide (s.phase ≠ .idle)
  /-- `flag.drq` = (`phase` ∈ T2_XFER, T3_COLLECT) -/
  drq : s.flags.drq = decide (s.phase = .t2Xfer ∨ s.phase = .t3Collect)
  /-- the worker timer is present exactly in T1_RUN, T2_ACCEPT, T3_ACCEPT, and of the phase's kind -/
  worker : s.workerTimer.map WorkerTimer.kind = s.phase.timer
  /-- the sector buffer exists exactly in T2_XFER -/
  xfer : s.xfer.isSome = decide (s.phase = .t2Xfer)
  /-- the write-track buffer exists exactly in T3_COLLECT -/
  wt : s.wt.isSome = decide (s.phase = .t3Collect)
  /-- `flag.busy` and `flag.interrupt_pending` are never true together -/
  quiet : ¬(s.flags.busy = true ∧ s.flags.interruptPending = true)
  /-- `flag.command_abort` is true only in IDLE -/
  abort : s.flags.commandAbort = true → s.phase = .idle
  /-- the last command is the one the phase runs -/
  command : s.phase.allows s.lastOp

/-- The buffers, the counter and the timers are in range (R20, R22 to R25). -/
structure RangeInv (s : State) : Prop where
  xfer : ∀ x, s.xfer = some x → x.idx ≤ x.len ∧ 0 < x.len
  wt : ∀ w, s.wt = some w → w.bytes.length ≤ s.cfg.wtBufSize
  counter : 1 ≤ s.drqCounter ∧ s.drqCounter ≤ s.cfg.drqReload
  worker : ∀ w, s.workerTimer = some w → s.now ≤ w.due
  index : ∀ t, s.indexTimer = some t → s.now ≤ t

/-- The latch, the override and the two flags nothing sets (R12, R260, R264, R267). -/
structure LatchInv (s : State) : Prop where
  /-- the override is on exactly while its timer runs -/
  override : s.flags.indexReset = s.indexTimer.isSome
  /-- the drive is selected exactly when the latch says so -/
  select : s.drive.driveSelect = s.ext.driveSelect
  /-- the chip is enabled exactly when the latch says so -/
  enabled : s.flags.fdcEnabled = s.ext.chipEn
  lostData : s.flags.lostData = false
  writeFault : s.flags.recordTypeOrWriteFault = false

/-- The medium keeps its form: the bytes' addresses and the tracks' places rise, and a track's serial
number is not ahead of the free-value counter. -/
structure MediumInv (s : State) : Prop where
  mem : s.mem.wf
  tracks : s.disk.tracks.Pairwise fun a b => trackKey a.cyl a.head < trackKey b.cyl b.head
  serials : ∀ t ∈ s.disk.tracks, t.serial ≤ s.freeCount

/-- The states the rules keep the machine in. -/
structure State.Inv (s : State) : Prop where
  params : GoodParams s.cfg
  sequencer : SequencerInv s
  range : RangeInv s
  latch : LatchInv s
  medium : MediumInv s

/-- A run is over, for a claim about a command (R301). -/
def RunOver (s : State) : Prop := s.phase = .idle ∧ s.workerTimer = none

/-- The registers, latches, error flags and surroundings that accepting or aborting a command leaves alone
(R114, R118, R250, R253): all but `reg.track`, `last_op`, the parameter latches, the positioning context,
the phase, the worker timer, the buffers, and the flags `busy`, `drq`, `command_abort`, `interrupt_pending`. -/
structure CommandFrame (s t : State) : Prop where
  sector : t.regs.sector = s.regs.sector
  data : t.regs.data = s.regs.data
  crcError : t.flags.crcError = s.flags.crcError
  seekError : t.flags.seekError = s.flags.seekError
  headLoaded : t.flags.headLoaded = s.flags.headLoaded
  writeFault : t.flags.recordTypeOrWriteFault = s.flags.recordTypeOrWriteFault
  recordNotFound : t.flags.recordNotFound = s.flags.recordNotFound
  lostData : t.flags.lostData = s.flags.lostData
  indexReset : t.flags.indexReset = s.flags.indexReset
  fdcEnabled : t.flags.fdcEnabled = s.flags.fdcEnabled
  ext : t.ext = s.ext
  indexTimer : t.indexTimer = s.indexTimer
  now : t.now = s.now
  drqCounter : t.drqCounter = s.drqCounter
  drive : t.drive = s.drive
  disk : t.disk = s.disk
  bytes : ∀ cyl head sidx i, diskByte t cyl head sidx i = diskByte s cyl head sidx i
  dmaTc : t.dmaTc = s.dmaTc
  masterReset : t.masterReset = s.masterReset
  cfg : t.cfg = s.cfg
  reply : t.reply = s.reply
  intEvents : t.intEvents = s.intEvents
  freeCount : t.freeCount = s.freeCount
  agenda : t.agenda = s.agenda

/-- The line of a stream that lays out one sector (R89, R90, R228): the ID field, then a data record of
as many bytes `fill` as the length code says. -/
def sectorRecord (env : ParseEnv) (code fill n : Byte) : List Byte :=
  [0xFE, env.track, sideByte env.side, n, code, 0xFB] ++ List.replicate (sectorSize code) fill ++ [0xF7]

/-- The stream a host writes to lay out sectors 1 to `count`, in order (R89, S4 of 95_test_vectors.md). -/
def formatStream (env : ParseEnv) (code fill : Byte) (count : Nat) : List Byte :=
  [gapByte env.dden, 0xFC] ++ (List.range count).flatMap fun k => sectorRecord env code fill (BitVec.ofNat 8 (k + 1))

/-- One sector of a stream as the parser reads it (R226 to R228): what it passes over before the ID mark, the
sector number of the ID field, what it passes over between the ID and the data mark, and the data bytes. -/
structure SectorImage where
  before : List Byte
  number : Byte
  between : List Byte
  data : List Byte

/-- The bytes of a sector under a length code: its ID field names the track and the side of `env` (R226). -/
def SectorImage.bytes (env : ParseEnv) (code : Byte) (r : SectorImage) : List Byte :=
  r.before ++ [0xFE, env.track, sideByte env.side, r.number, code] ++ r.between ++ [0xFB] ++ r.data ++ [0xF7]

/-- No mark comes too early in a sector's parts, and there are as many data bytes as the length code says (R226 to
R228). -/
structure SectorImage.Fits (code : Byte) (r : SectorImage) : Prop where
  before : (0xFE : Byte) ∉ r.before
  between : (0xFB : Byte) ∉ r.between
  data : (0xF7 : Byte) ∉ r.data
  length : r.data.length = sectorSize code

/-- A stream as the parser reads it (R225 to R229): what it passes over before the index mark, the one length code of
its sectors, the sectors in order, and what follows the last. -/
structure TrackLayout where
  lead : List Byte
  code : Byte
  sectors : List SectorImage
  trail : List Byte

/-- The bytes of a layout: the gap byte of the density (R225), the index mark, the sectors (R226 to R228). -/
def TrackLayout.bytes (env : ParseEnv) (l : TrackLayout) : List Byte :=
  [gapByte env.dden] ++ l.lead ++ [0xFC] ++ l.sectors.flatMap (SectorImage.bytes env l.code) ++ l.trail

/-- A layout of `count` sectors of `size` bytes, numbered exactly 1 to `count` in any order (R226 to R230). -/
structure TrackLayout.Valid (l : TrackLayout) (count size : Nat) : Prop where
  lead : (0xFC : Byte) ∉ l.lead
  trail : (0xFE : Byte) ∉ l.trail
  code : l.code.toNat ≤ 3
  fits : ∀ r ∈ l.sectors, r.Fits l.code
  length : l.sectors.length = count
  some : 1 ≤ count
  numbers : ∀ k, 1 ≤ k → k ≤ count → ∃ r ∈ l.sectors, r.number.toNat = k
  size : size = sectorSize l.code

end Sys2Proof.Machine
end

