-- ==== Sys2Proof/Certificates/Slice0/Obligations.lean ====
section
/-! DEFINITION. What is claimed of the model, from the numbered rules of spec/. Where a clause rests on one of the
spec's own decisions or inferences, or on a choice of the model, the docstring names it. -/

open Sys2Proof Sys2Proof.Machine

/-! ### Encoding (30_encoding.md) -/

/-- Every well-formed command's byte decodes to it, whatever follows (R80, R82 to R85; the numbers of R82 are
decision D1, log 1). -/
def Obligations.DecodeOfEncode : Prop :=
  ∀ (i : Instr) (rest : List Byte), i.wellFormed = true → decode (encode i ++ rest) = .ok (i, rest)

/-- R86: every byte decodes, to a well-formed command with that opcode nibble, and no other command has that byte.
Under any `OPCODE_MAP` (R5) it decodes to the command with the opcode its high nibble stands for, bits 3 to 0 being
the parameters as ever; the default map changes no byte (decision D1, log 1). -/
def Obligations.EveryByteDecodes : Prop :=
  (∀ (c : Byte) (rest : List Byte), ∃ i : Instr,
    decode (c :: rest) = .ok (i, rest) ∧ i.wellFormed = true ∧ i.opcode = opcodeNibble c ∧ encode i = [c] ∧
      ∀ j : Instr, j.wellFormed = true → encode j = [c] → j = i) ∧
  (∀ (m : Config.OpcodeMap) (c : Byte), encode (decodeUnder m c) = [m.opcodeOf (opcodeNibble c) ++ c.extractLsb' 0 4]) ∧
  (∀ c : Byte, decodeUnder Config.standardMap c = decodeByte c)

/-- Words written out from the encodings of R82 to R85 decode to the commands they stand for (section 3 of
95_test_vectors.md; the numbers are decision D1, log 1). -/
def Obligations.SpecBytesDecode : Prop :=
  decode [0b00001011#8] = .ok (.restore true false 3, []) ∧
  decode [0b00010100#8] = .ok (.seek false true 0, []) ∧
  decode [0b00111000#8] = .ok (.step true true false 0, []) ∧
  decode [0b01000100#8] = .ok (.stepIn false false true 0, []) ∧
  decode [0b01111011#8] = .ok (.stepOut true true false 3, []) ∧
  decode [0b10001101#8] = .ok (.rdSec true true false true, []) ∧
  decode [0b10100010#8] = .ok (.wrSec false false true false, []) ∧
  decode [0b11010101#8] = .ok (.fint 5, []) ∧
  decode [0b11110010#8] = .ok (.wrTrk false false true false, [])

/-- R83, R84, R85: two command bytes that agree but for ignored bits behave identically: bits 1 and 0 of a Type I
byte; bits 3, 2 and 0 of a READ SECTOR, WRITE SECTOR or WRITE TRACK byte (bit 1 is latched); all four low bits of
FORCE INTERRUPT, so that its sixteen bytes behave alike, and of the four decode-only commands. -/
def Obligations.IgnoredBitsIgnored : Prop :=
  ∀ (c d : Byte) (s : State), opcodeNibble c = opcodeNibble d →
    ((commandOp s c).toNat < 8 → c.getLsbD 3 = d.getLsbD 3 ∧ c.getLsbD 2 = d.getLsbD 2) →
    (commandOp s c = 0x8 ∨ commandOp s c = 0xA ∨ commandOp s c = 0xF → c.getLsbD 1 = d.getLsbD 1) →
    agentStep (.portWrite s.cfg.ports.cmdStatus c) s = agentStep (.portWrite s.cfg.ports.cmdStatus d) s

/-! ### The schedule and the command port -/

/-- The agent at the head of the schedule moves; with no step scheduled the timer agent does (log 2, the model's
convention for R6 and R58). -/
def Obligations.ScheduledAgentMoves : Prop :=
  (∀ (s : State) (e : Event) (rest : List Event), s.agenda = e :: rest →
    step s = agentStep e { s with agenda := rest }) ∧
  (∀ s : State, s.agenda = [] → step s = tick s)

/-- A step whose next agent step writes a command byte runs the decoded command, unless the block is busy and the
command is not FORCE INTERRUPT (R114; that `exec` stands past this busy test is the model's, log 3). The byte leaves
the schedule, which is the model's own (log 2). The same for a byte placed by `withFetchWord`, the model's stand-in for
a fetch (log 2), under the default `OPCODE_MAP` (log 1). -/
def Obligations.StepRunsDecodedCommand : Prop :=
  (∀ (s : State) (c : Byte) (i : Instr) (more : List Byte) (rest : List Event),
    s.agenda = .portWrite s.cfg.ports.cmdStatus c :: rest →
    decode (standardByte s.cfg.opcodeMap c :: more) = .ok (i, more) →
    s.flags.busy = false ∨ commandOp s c = 0xD →
    step s = exec i { s with agenda := rest }) ∧
  (∀ (s : State) (w : Nat) (i : Instr), s.cfg.opcodeMap = Config.standardMap → decodeTableWord 8 w = some i →
    s.flags.busy = false ∨ opcodeNibble (BitVec.ofNat 8 w) = 0xD →
    step (s.withFetchWord 8 w) = exec i s)

/-- R115: a command-port write while busy, other than FORCE INTERRUPT, changes no state at all. -/
def Obligations.BusyWriteDiscarded : Prop :=
  ∀ (s : State) (c : Byte), s.flags.busy = true → commandOp s c ≠ 0xD →
    agentStep (.portWrite s.cfg.ports.cmdStatus c) s = .next s

/-- R116, R117: every command byte the port does not discard clears `interrupt_pending`, and records its opcode,
which FORCE INTERRUPT then overwrites with 0x0. The decode-only commands leave both in the state their error carries:
that the error is raised at the write is decision D33, that the refusal carries that state is the model's choice
(log 4). -/
def Obligations.CommandAcknowledgesAndRecords : Prop :=
  ∀ (s : State) (c : Byte), s.flags.busy = false ∨ commandOp s c = 0xD →
    ∃ t : State, t.flags.interruptPending = false ∧
      t.lastOp = (if commandOp s c = 0xD then 0x0 else commandOp s c) ∧
      (agentStep (.portWrite s.cfg.ports.cmdStatus c) s = .next t ∨
        agentStep (.portWrite s.cfg.ports.cmdStatus c) s = .refused (.notImplemented (commandOp s c) t))

/-! ### Acceptance: what each command does when it is run -/

/-- RESTORE completes (R141, R140, R118, R16): the register is loaded from the head, the destination is 0, the
worker starts. Clearing `command_abort` is decision D4, leaving `reg.data` and loading at acceptance D7. -/
def Obligations.RestoreAccepted : Prop :=
  ∀ (h v : Bool) (x : Nat) (s : State),
    exec (.restore h v x) s = .next
      { s with
        flags := { s.flags with busy := true, commandAbort := false, interruptPending := false }
        lastOp := 0x0
        cmd := { u := false, h := h, v := v, sso := s.cmd.sso }
        regs := { s.regs with track := BitVec.ofInt 8 s.drive.track }
        seekDest := 0
        t1Kind := .seekLike
        phase := .t1Run
        workerTimer := some { due := s.now + s.cfg.tAccept, kind := .t1Tick } }

/-- SEEK completes (R142, R140, R118, R16): the destination is captured from `reg.data` (decision D8). Clearing
`command_abort` is D4. -/
def Obligations.SeekAccepted : Prop :=
  ∀ (h v : Bool) (x : Nat) (s : State),
    exec (.seek h v x) s = .next
      { s with
        flags := { s.flags with busy := true, commandAbort := false, interruptPending := false }
        lastOp := 0x1
        cmd := { u := true, h := h, v := v, sso := s.cmd.sso }
        seekDest := s.regs.data
        t1Kind := .seekLike
        phase := .t1Run
        workerTimer := some { due := s.now + s.cfg.tAccept, kind := .t1Tick } }

/-- STEP, STEP-IN and STEP-OUT complete (R143, R144, R145, R140, R118): one step is pending; STEP-IN and STEP-OUT set
the direction, STEP leaves it as it is. Clearing `command_abort` is decision D4; that STEP-IN and STEP-OUT write
`step_dir` at acceptance is D10. -/
def Obligations.StepFamilyAccepted : Prop :=
  ∀ (u h v : Bool) (x : Nat) (s : State),
    exec (.step u h v x) s = .next
      { s with
        flags := { s.flags with busy := true, commandAbort := false, interruptPending := false }
        lastOp := if u then 0x3 else 0x2
        cmd := { u := u, h := h, v := v, sso := s.cmd.sso }
        t1Kind := .stepLike
        stepPending := true
        phase := .t1Run
        workerTimer := some { due := s.now + s.cfg.tAccept, kind := .t1Tick } } ∧
    exec (.stepIn u h v x) s = .next
      { s with
        flags := { s.flags with busy := true, commandAbort := false, interruptPending := false }
        lastOp := if u then 0x5 else 0x4
        cmd := { u := u, h := h, v := v, sso := s.cmd.sso }
        stepDir := .inward
        t1Kind := .stepLike
        stepPending := true
        phase := .t1Run
        workerTimer := some { due := s.now + s.cfg.tAccept, kind := .t1Tick } } ∧
    exec (.stepOut u h v x) s = .next
      { s with
        flags := { s.flags with busy := true, commandAbort := false, interruptPending := false }
        lastOp := if u then 0x7 else 0x6
        cmd := { u := u, h := h, v := v, sso := s.cmd.sso }
        stepDir := .outward
        t1Kind := .stepLike
        stepPending := true
        phase := .t1Run
        workerTimer := some { due := s.now + s.cfg.tAccept, kind := .t1Tick } }

/-- READ SECTOR single, WRITE SECTOR single and WRITE TRACK complete (R170, R171, R212, R118): the side select is
latched and the entry is scheduled (for WRITE TRACK decision D24). Clearing `command_abort` is D4. -/
def Obligations.TransferCommandsAccepted : Prop :=
  ∀ (l e sso a : Bool) (s : State),
    exec (.rdSec l e sso a) s = .next
      { s with
        flags := { s.flags with busy := true, commandAbort := false, interruptPending := false }
        lastOp := 0x8
        cmd := { s.cmd with sso := sso }
        phase := .t2Accept
        workerTimer := some { due := s.now + s.cfg.tAccept, kind := .sectorEntry } } ∧
    exec (.wrSec l e sso a) s = .next
      { s with
        flags := { s.flags with busy := true, commandAbort := false, interruptPending := false }
        lastOp := 0xA
        cmd := { s.cmd with sso := sso }
        phase := .t2Accept
        workerTimer := some { due := s.now + s.cfg.tAccept, kind := .sectorEntry } } ∧
    exec (.wrTrk l e sso a) s = .next
      { s with
        flags := { s.flags with busy := true, commandAbort := false, interruptPending := false }
        lastOp := 0xF
        cmd := { s.cmd with sso := sso }
        phase := .t3Accept
        workerTimer := some { due := s.now + s.cfg.tAccept, kind := .wtEntry } }

/-- FORCE INTERRUPT completes in every state, busy or not, and for every value of the low nibble (R250, R252):
`command_abort` set, `busy` and `drq` clear, RESTORE recorded, timer and buffers gone; no interrupt is
raised and nothing else changes (R253). Cancelling the timer is decision D6, ending the data phase D23. -/
def Obligations.ForceInterruptAborts : Prop :=
  ∀ (i : Nat) (s : State),
    exec (.fint i) s = .next
      { s with
        flags := { s.flags with commandAbort := true, busy := false, drq := false, interruptPending := false }
        lastOp := 0x0
        workerTimer := none
        xfer := none
        wt := none
        phase := .idle }

/-- The four decode-only commands stop with `NotImplemented` and their opcode, the state left having
`interrupt_pending` cleared and `last_op` recorded and nothing else changed (R119, R176, R177, R210, R211, R284;
that the error is raised at the write is decision D33). -/
def Obligations.DecodeOnlyCommandsRefused : Prop :=
  ∀ (l e sso a : Bool) (s : State),
    exec (.rdSecM l e sso a) s = .refused (.notImplemented 0x9
      { s with flags := { s.flags with interruptPending := false }, lastOp := 0x9 }) ∧
    exec (.wrSecM l e sso a) s = .refused (.notImplemented 0xB
      { s with flags := { s.flags with interruptPending := false }, lastOp := 0xB }) ∧
    exec (.rdAddr l e sso a) s = .refused (.notImplemented 0xC
      { s with flags := { s.flags with interruptPending := false }, lastOp := 0xC }) ∧
    exec (.rdTrk l e sso a) s = .refused (.notImplemented 0xE
      { s with flags := { s.flags with interruptPending := false }, lastOp := 0xE })

/-- The frame of every command (R114, R118, R140 to R145, R170, R171, R212, R250, R253): what accepting or aborting a
command leaves unchanged. `reg.track` changes only under RESTORE (decision D7, log 34), `step_dir` only under STEP-IN and
STEP-OUT (D10, log 34), `seek_dest` only under RESTORE and SEEK (D7, D8, log 34), the buffers and `drq` only under FORCE
INTERRUPT (D23, log 25), and no error flag at all (D5, log 34). Every byte of the disk reads as before. -/
def Obligations.CommandsLeaveTheRest : Prop :=
  ∀ (i : Instr) (s t : State), exec i s = .next t →
    CommandFrame s t ∧
    ((∀ h v x, i ≠ .restore h v x) → t.regs.track = s.regs.track) ∧
    ((∀ u h v x, i ≠ .stepIn u h v x ∧ i ≠ .stepOut u h v x) → t.stepDir = s.stepDir) ∧
    ((∀ h v x, i ≠ .restore h v x ∧ i ≠ .seek h v x) → t.seekDest = s.seekDest) ∧
    ((∀ c, i ≠ .fint c) → t.xfer = s.xfer ∧ t.wt = s.wt ∧ t.flags.drq = s.flags.drq)

/-! ### Register ports (40_ports_and_status.md) -/

/-- R110, R111: the track and the sector register ports. A write changes its register and nothing else, and moves no
head; the value 0 is storable like any other; a read has no effect but its answer. -/
def Obligations.RegisterPorts : Prop :=
  ∀ (s : State) (b : Byte), s.cfg.ports.Distinct →
    agentStep (.portWrite s.cfg.ports.track b) s = .next { s with regs := { s.regs with track := b } } ∧
    agentStep (.portRead s.cfg.ports.track) s = .next { s with reply := .byte s.regs.track } ∧
    agentStep (.portWrite s.cfg.ports.sector b) s = .next { s with regs := { s.regs with sector := b } } ∧
    agentStep (.portRead s.cfg.ports.sector) s = .next { s with reply := .byte s.regs.sector }

/-- R51, R285: an access to any port but the five of R50 is the fatal error UnexpectedPort, read and write alike. -/
def Obligations.UnknownPortIsFatal : Prop :=
  ∀ (s : State) (p b : Byte), p ≠ s.cfg.ports.cmdStatus → p ≠ s.cfg.ports.track → p ≠ s.cfg.ports.sector →
    p ≠ s.cfg.ports.data → p ≠ s.cfg.ports.ext →
    agentStep (.portWrite p b) s = .fault .unexpectedPort ∧ agentStep (.portRead p) s = .fault .unexpectedPort

/-- The data port where it is no strobe (R112, R113). With `drq` false it is a plain register, written and read; a
write during a READ SECTOR transfer loads `reg.data` and moves nothing (decisions D21, D22); a read while WRITE
TRACK collects is refused, since the spec gives it no behaviour (U7). -/
def Obligations.DataPortWithoutStrobe : Prop :=
  ∀ (s : State) (b : Byte), s.cfg.ports.Distinct →
    (s.flags.drq = false →
      agentStep (.portWrite s.cfg.ports.data b) s = .next { s with regs := { s.regs with data := b } } ∧
      agentStep (.portRead s.cfg.ports.data) s = .next { s with reply := .byte s.regs.data }) ∧
    (s.flags.drq = true → s.phase = .t2Xfer → s.lastOp ≠ 0xA →
      agentStep (.portWrite s.cfg.ports.data b) s = .next { s with regs := { s.regs with data := b } }) ∧
    (s.flags.drq = true → s.phase = .t3Collect →
      agentStep (.portRead s.cfg.ports.data) s = .refused .dataReadWhileCollecting)

/-- R55: of all port accesses, only the data port's, FORCE INTERRUPT and the latch write that disables the chip
can change `flag.drq`; and no read but the data port's can. -/
def Obligations.OtherPortsKeepDrq : Prop :=
  (∀ (s t : State) (p b : Byte), agentStep (.portWrite p b) s = .next t → t.flags.drq ≠ s.flags.drq →
    p = s.cfg.ports.data ∨ (p = s.cfg.ports.cmdStatus ∧ commandOp s b = 0xD) ∨
      (p = s.cfg.ports.ext ∧ s.flags.fdcEnabled = true ∧ (latchFields s.cfg.extStateBits b).chipEn = false)) ∧
  (∀ (s t : State) (p : Byte), agentStep (.portRead p) s = .next t → t.flags.drq ≠ s.flags.drq →
    p = s.cfg.ports.data)

/-! ### Status (R120 to R128) -/

/-- A status read clears `interrupt_pending` and answers the byte composed from the live state; it changes
nothing else (R120; that it is no `drq()` query is decision D18). -/
def Obligations.StatusReadAnswersLiveByte : Prop :=
  ∀ s : State, agentStep (.portRead s.cfg.ports.cmdStatus) s = .next
    { s with flags := { s.flags with interruptPending := false }, reply := .byte (statusByte s) }

/-- R122 with the signals of R121: the Type I layout, bit by bit. -/
def Obligations.TypeIStatusLayout : Prop :=
  ∀ s : State, s.lastOp.toNat < 8 ∨ s.lastOp = 0xD →
    (statusByte s).getLsbD 7 = (!s.ext.driveSelect || !s.drive.isLoaded) ∧
    (statusByte s).getLsbD 6 = s.drive.isWriteProtected ∧
    (statusByte s).getLsbD 5 = s.flags.headLoaded ∧
    (statusByte s).getLsbD 4 = s.flags.seekError ∧
    (statusByte s).getLsbD 3 = s.flags.crcError ∧
    (statusByte s).getLsbD 2 = s.drive.track0 ∧
    (statusByte s).getLsbD 1 = (s.drive.index || s.flags.indexReset) ∧
    (statusByte s).getLsbD 0 = s.flags.busy

/-- The layouts of the Type II and III commands, bit by bit (R123 to R127): READ SECTOR, which READ SECTOR multiple and
READ ADDRESS share; WRITE SECTOR, single and multiple; READ TRACK and WRITE TRACK, for both settings of
`WT_STATUS_SHOWS_RNF_CRC`. That bit 1 is the raw `flag.drq` is decision D18, the subsets of the Type III layouts D28. -/
def Obligations.TransferStatusLayouts : Prop :=
  ∀ s : State,
    (s.lastOp = 0x8 ∨ s.lastOp = 0x9 ∨ s.lastOp = 0xC →
      (statusByte s).getLsbD 7 = (!s.ext.driveSelect || !s.drive.isLoaded) ∧
      (statusByte s).getLsbD 6 = false ∧ (statusByte s).getLsbD 5 = false ∧
      (statusByte s).getLsbD 4 = s.flags.recordNotFound ∧ (statusByte s).getLsbD 3 = s.flags.crcError ∧
      (statusByte s).getLsbD 2 = s.flags.lostData ∧ (statusByte s).getLsbD 1 = s.flags.drq ∧
      (statusByte s).getLsbD 0 = s.flags.busy) ∧
    (s.lastOp = 0xA ∨ s.lastOp = 0xB →
      (statusByte s).getLsbD 7 = (!s.ext.driveSelect || !s.drive.isLoaded) ∧
      (statusByte s).getLsbD 6 = s.drive.isWriteProtected ∧
      (statusByte s).getLsbD 5 = s.flags.recordTypeOrWriteFault ∧
      (statusByte s).getLsbD 4 = s.flags.recordNotFound ∧ (statusByte s).getLsbD 3 = s.flags.crcError ∧
      (statusByte s).getLsbD 2 = s.flags.lostData ∧ (statusByte s).getLsbD 1 = s.flags.drq ∧
      (statusByte s).getLsbD 0 = s.flags.busy) ∧
    (s.lastOp = 0xE ∨ s.lastOp = 0xF →
      (statusByte s).getLsbD 7 = (!s.ext.driveSelect || !s.drive.isLoaded) ∧
      (statusByte s).getLsbD 6 = (decide (s.lastOp = 0xF) && s.drive.isWriteProtected) ∧
      (statusByte s).getLsbD 5 = (decide (s.lastOp = 0xF) && s.flags.recordTypeOrWriteFault) ∧
      (statusByte s).getLsbD 4 = (s.cfg.wtStatusShowsRnfCrc && s.flags.recordNotFound) ∧
      (statusByte s).getLsbD 3 = (s.cfg.wtStatusShowsRnfCrc && s.flags.crcError) ∧
      (statusByte s).getLsbD 2 = s.flags.lostData ∧ (statusByte s).getLsbD 1 = s.flags.drq ∧
      (statusByte s).getLsbD 0 = s.flags.busy)

/-! ### The Type I worker (41_type1.md section 2) -/

/-- A Type I tick at which a step is due (R146, R147, R149; decisions D9, D10, D41). A SEEK or RESTORE away from its
destination takes one step toward it, the register following modulo 256; the pending step of a STEP family
command goes one cylinder in `step_dir`, the register following when `u` is 1. The next tick is `T_STEP` later. -/
def Obligations.TypeITickSteps : Prop :=
  ∀ s : State, s.flags.commandAbort = false →
    (s.t1Kind = .seekLike → s.regs.track ≠ s.seekDest →
      fireWorker .t1Tick s = .next
        (let up := decide (s.regs.track.toNat < s.seekDest.toNat)
         let target := s.drive.track + (if up then 1 else -1)
         { s with
           drive := { s.drive with track := (seekTarget s.cfg s.drive target).track
                                   track0 := (seekTarget s.cfg s.drive target).track0 }
           regs := { s.regs with track := if up then s.regs.track + 1 else s.regs.track - 1 }
           stepDir := if up then .inward else .outward
           workerTimer := some { due := s.now + s.cfg.tStep, kind := .t1Tick } })) ∧
    (s.t1Kind = .stepLike → s.stepPending = true →
      fireWorker .t1Tick s = .next
        (let target := s.drive.track + (if s.stepDir = .inward then 1 else -1)
         { s with
           drive := { s.drive with track := (seekTarget s.cfg s.drive target).track
                                   track0 := (seekTarget s.cfg s.drive target).track0 }
           regs := { s.regs with
                     track := if s.cmd.u then (if s.stepDir = .inward then s.regs.track + 1 else s.regs.track - 1)
                              else s.regs.track }
           stepPending := false
           workerTimer := some { due := s.now + s.cfg.tStep, kind := .t1Tick } }))

/-- A tick at which no step is due completes the command: `seek_error` assigned by verify, `head_loaded` from the
command's bit, `busy` clear, the interrupt raised (R146, R148; decisions D5, D9). -/
def Obligations.TypeITickCompletes : Prop :=
  ∀ s : State, s.flags.commandAbort = false →
    (s.t1Kind = .seekLike ∧ s.regs.track = s.seekDest) ∨ (s.t1Kind = .stepLike ∧ s.stepPending = false) →
    fireWorker .t1Tick s = .next
      { s with
        flags := { s.flags with
          seekError := s.cmd.v && s.drive.isLoaded && decide (s.regs.track ≠ BitVec.ofInt 8 s.drive.track)
          headLoaded := s.cmd.h
          busy := false
          interruptPending := true }
        phase := .idle
        intEvents := s.cfg.intLine :: s.intEvents }

/-- The drive's positioning call within its range (R300): the head is there, and the track-0 sensor says whether
that is cylinder 0 (PRESUMED: the spec marks that part as general knowledge; log 8). -/
def Obligations.SeekToWithinRange : Prop :=
  ∀ (s : State) (c : Int), 0 ≤ c → c ≤ (s.cfg.maxCyl : Int) →
    seekTo c s = { s with drive := { s.drive with track := c, track0 := decide (c = 0) } }

/-- A SEEK in flight, left alone, reaches its destination: after as many ticks as there are cylinders between and
one more, the register holds the destination, the head has moved by the same amount, the command is complete
with one interrupt, and the time is that of R330 (R146 to R149; decisions D9, D11). The drive must have the
cylinders on the way (D11's precondition). -/
def Obligations.SeekReachesDestination : Prop :=
  ∀ (s : State) (due n : Nat),
    s.agenda = [] → s.indexTimer = none → s.flags.commandAbort = false → s.phase = .t1Run →
    s.workerTimer = some { due := due, kind := .t1Tick } → s.now ≤ due → s.t1Kind = .seekLike →
    n = Int.natAbs ((s.seekDest.toNat : Int) - s.regs.track.toNat) →
    0 ≤ s.drive.track → s.drive.track ≤ s.cfg.maxCyl →
    0 ≤ s.drive.track + ((s.seekDest.toNat : Int) - s.regs.track.toNat) →
    s.drive.track + ((s.seekDest.toNat : Int) - s.regs.track.toNat) ≤ s.cfg.maxCyl →
    ∃ t : State, core.run (n + 1) s = .next t ∧
      t.regs.track = s.seekDest ∧
      t.drive.track = s.drive.track + ((s.seekDest.toNat : Int) - s.regs.track.toNat) ∧
      t.phase = .idle ∧ t.workerTimer = none ∧ t.flags.busy = false ∧ t.flags.interruptPending = true ∧
      t.flags.headLoaded = s.cmd.h ∧ t.intEvents = s.cfg.intLine :: s.intEvents ∧ t.now = due + n * s.cfg.tStep ∧
      t.flags.seekError =
        (s.cmd.v && s.drive.isLoaded && decide (s.seekDest ≠ BitVec.ofInt 8 t.drive.track)) ∧
      t.regs.sector = s.regs.sector ∧ t.regs.data = s.regs.data ∧ t.mem = s.mem ∧ t.disk = s.disk

/-- RESTORE finds cylinder 0 from wherever the head is (R141, P3): run on a drive whose head stands at `n`, at most
255 and within its range, and left alone, it ends with register and head at 0, `seek_error` false whatever
V is, `head_loaded` from its bit and one interrupt. That `reg.data` stays is decision D7, the time is R330 with D9
(log 34), the range of the drive D11's precondition. -/
def Obligations.RestoreReachesCylinderZero : Prop :=
  ∀ (s : State) (h v : Bool) (x n : Nat),
    s.agenda = [] → s.indexTimer = none → s.drive.track = (n : Int) → n ≤ 255 → n ≤ s.cfg.maxCyl →
    ∃ t u : State, exec (.restore h v x) s = .next t ∧ core.run (n + 1) t = .next u ∧
      u.regs.track = 0 ∧ u.drive.track = 0 ∧ u.flags.seekError = false ∧ u.flags.headLoaded = h ∧
      u.flags.busy = false ∧ u.flags.interruptPending = true ∧ u.phase = .idle ∧
      u.intEvents = s.cfg.intLine :: s.intEvents ∧ u.regs.data = s.regs.data ∧
      u.now = s.now + s.cfg.tAccept + n * s.cfg.tStep

/-! ### The sector entry (42_type2.md section 2) -/

/-- The failure path of the sector entry (R172, R173, R174): no interrupt, no buffer, the disk untouched. On a drive that
is not ready no error flag is written (decision D14). Otherwise both error flags are assigned their conditions
(decision D5; the strict comparison is R173 (b)), and if either holds, or a write meets a write-protected
medium, the command ends. Where the medium has no such track the spec has the model refuse (U9; log 23). -/
def Obligations.SectorEntryFails : Prop :=
  (∀ s : State, s.flags.commandAbort = false → s.ext.driveSelect = false ∨ s.drive.isLoaded = false →
    fireWorker .sectorEntry s = .next
      { s with flags := { s.flags with busy := false, drq := false }, phase := .idle }) ∧
  (∀ s : State, s.flags.commandAbort = false → s.ext.driveSelect = true → s.drive.isLoaded = true →
    getTrack s.disk s.drive.track (headSelect s) = none → fireWorker .sectorEntry s = .refused .noSuchTrack) ∧
  (∀ (s : State) (trk : Track), s.flags.commandAbort = false → s.ext.driveSelect = true → s.drive.isLoaded = true →
    getTrack s.disk s.drive.track (headSelect s) = some trk →
    recordNotFoundAt s trk = true ∨ crcErrorAt s trk = true ∨ (s.lastOp ≠ 0x8 ∧ s.drive.isWriteProtected = true) →
    fireWorker .sectorEntry s = .next
      { s with
        flags := { s.flags with
          recordNotFound :=
            decide (s.regs.track ≠ BitVec.ofInt 8 s.drive.track) || decide (s.regs.sector.toNat > trk.sectorLens.length)
          crcError := !(decide (trk.format = .fm500) && !s.ext.dden || decide (trk.format = .mfm500) && s.ext.dden)
          busy := false
          drq := false }
        phase := .idle })

/-- The sector entry with no error begins the transfer (R172, R175): the buffer names the sector, `drq` is up, the
pacing counter is not reloaded (decision D16), and a write marks the disk. With `reg.sector` = 0 it is the
fatal error SectorZero (R173 (c), decision D15); a sector whose data array is empty is refused (U9; log 23). -/
def Obligations.SectorEntryBegins : Prop :=
  ∀ (s : State) (trk : Track), s.flags.commandAbort = false → s.ext.driveSelect = true → s.drive.isLoaded = true →
    getTrack s.disk s.drive.track (headSelect s) = some trk →
    recordNotFoundAt s trk = false → crcErrorAt s trk = false → s.lastOp = 0x8 ∨ s.drive.isWriteProtected = false →
    (s.regs.sector = 0 → fireWorker .sectorEntry s = .fault .sectorZero) ∧
    (s.regs.sector ≠ 0 → trk.sectorLens[s.regs.sector.toNat - 1]? = some 0 →
      fireWorker .sectorEntry s = .refused .noSuchSector) ∧
    (∀ len, s.regs.sector ≠ 0 → trk.sectorLens[s.regs.sector.toNat - 1]? = some len → 0 < len →
      fireWorker .sectorEntry s = .next
        { s with
          flags := { s.flags with recordNotFound := false, crcError := false, busy := true, drq := true }
          xfer := some { cyl := trk.cyl, head := trk.head, sidx := s.regs.sector.toNat - 1, len := len, idx := 0 }
          disk := { s.disk with modified := if s.lastOp = 0x8 then s.disk.modified else true }
          phase := .t2Xfer })

/-! ### DRQ, DMA and PIO (42_type2.md sections 3 and 4) -/

/-- R180: the pacing of DRQ over a run of queries. While `drq` is up, with the counter at `k + 1` the first `k` queries
answer false and the next one answers true and reloads the counter, so from 16 the sixteenth is the first true
one. A query with `drq` false answers false and counts nothing (decision D16). A query changes nothing else. -/
def Obligations.DrqPacing : Prop :=
  (∀ (s : State), s.flags.drq = false → agentStep .drqQuery s = .next { s with reply := .request false }) ∧
  (∀ (s : State), agentStep .drqQuery s = .next (drqQuery s)) ∧
  ∀ (s : State) (k n : Nat), s.flags.drq = true → s.drqCounter = k + 1 →
    (1 ≤ n → n ≤ k → drqQuery^[n] s = { s with drqCounter := k + 1 - n, reply := .request false }) ∧
    drqQuery^[k + 1] s = { s with drqCounter := s.cfg.drqReload, reply := .request true }

/-- R181: a DMA read inside the buffer answers the byte at the index, advances, and reloads the counter; it does not
complete the command, and every byte of the disk stays. -/
def Obligations.DmaReadMovesNextByte : Prop :=
  ∀ (s : State) (x : Xfer), s.flags.drq = true → s.phase = .t2Xfer → s.xfer = some x → x.idx < x.len →
    agentStep .dmaRead s = .next
      { s with
        xfer := some { x with idx := x.idx + 1 }
        drqCounter := s.cfg.drqReload
        reply := .byte (diskByte s x.cyl x.head x.sidx x.idx) }

/-- R182: a DMA write under WRITE SECTOR inside the buffer stores the byte and advances; the counter is not reloaded
(decision D17). Under any other command it is the fatal error DMAWriteNotAllowed. -/
def Obligations.DmaWriteStoresNextByte : Prop :=
  ∀ (s : State) (x : Xfer) (b : Byte), s.flags.drq = true → s.phase = .t2Xfer → s.xfer = some x →
    (s.lastOp = 0xA → x.idx < x.len →
      agentStep (.dmaWrite b) s = .next
        { s with
          mem := memWrite s.mem (diskAddr x.cyl x.head x.sidx x.idx) b
          xfer := some { x with idx := x.idx + 1 } }) ∧
    (s.lastOp ≠ 0xA → agentStep (.dmaWrite b) s = .fault .dmaWriteNotAllowed)

/-- R183 with R186: DMA complete ends the command wherever the index stands: `drq` and `busy` clear, the buffer
gone, the interrupt raised, nothing else changed (the guard is decision D20). -/
def Obligations.DmaCompleteFinishes : Prop :=
  ∀ s : State, s.flags.drq = true → s.phase = .t2Xfer →
    agentStep .dmaComplete s = .next
      { s with
        flags := { s.flags with drq := false, busy := false, interruptPending := true }
        xfer := none
        phase := .idle
        intEvents := s.cfg.intLine :: s.intEvents }

/-- R185, R216: a DMA transaction with `drq` false, or with no sector transfer in flight, is the fatal error
UnexpectedDMA (decision D20). -/
def Obligations.UnexpectedDmaIsFatal : Prop :=
  ∀ (s : State) (b : Byte), s.flags.drq = false ∨ s.phase ≠ .t2Xfer →
    agentStep .dmaRead s = .fault .unexpectedDma ∧ agentStep (.dmaWrite b) s = .fault .unexpectedDma ∧
      agentStep .dmaComplete s = .fault .unexpectedDma

/-- R184: past the end of the buffer a transfer step moves nothing: a DMA or PIO read answers some byte, a DMA or PIO
write drops its byte, and neither the buffer, the flags, the counter nor the disk changes (decision D19). A
data-port write still loads `reg.data` (D21). -/
def Obligations.OverrunMovesNothing : Prop :=
  ∀ (s : State) (x : Xfer) (b : Byte), s.cfg.ports.Distinct → s.flags.drq = true → s.phase = .t2Xfer →
    s.xfer = some x → x.len ≤ x.idx →
    (∃ v : Byte, agentStep .dmaRead s = .next { s with reply := .byte v, freeCount := s.freeCount + 1 } ∧
      agentStep (.portRead s.cfg.ports.data) s = .next { s with reply := .byte v, freeCount := s.freeCount + 1 }) ∧
    (s.lastOp = 0xA →
      agentStep (.dmaWrite b) s = .next s ∧
      agentStep (.portWrite s.cfg.ports.data b) s = .next { s with regs := { s.regs with data := b } })

/-- R187: a data-port read during a sector transfer answers the byte at the index and advances; at the last byte the
command completes in the same step. `reg.data` stays (decision D21), whatever the command is (D22). -/
def Obligations.PioReadMovesNextByte : Prop :=
  ∀ (s : State) (x : Xfer), s.cfg.ports.Distinct → s.flags.drq = true → s.phase = .t2Xfer → s.xfer = some x →
    (x.idx + 1 < x.len →
      agentStep (.portRead s.cfg.ports.data) s = .next
        { s with xfer := some { x with idx := x.idx + 1 }, reply := .byte (diskByte s x.cyl x.head x.sidx x.idx) }) ∧
    (x.idx + 1 = x.len →
      agentStep (.portRead s.cfg.ports.data) s = .next
        { s with
          flags := { s.flags with drq := false, busy := false, interruptPending := true }
          xfer := none
          phase := .idle
          intEvents := s.cfg.intLine :: s.intEvents
          reply := .byte (diskByte s x.cyl x.head x.sidx x.idx) })

/-- R188: a data-port write during WRITE SECTOR stores the byte and advances; at the last byte the command completes
in the same step. The byte is in `reg.data` too (decision D21). -/
def Obligations.PioWriteStoresNextByte : Prop :=
  ∀ (s : State) (x : Xfer) (b : Byte), s.cfg.ports.Distinct → s.flags.drq = true → s.phase = .t2Xfer →
    s.lastOp = 0xA → s.xfer = some x →
    (x.idx + 1 < x.len →
      agentStep (.portWrite s.cfg.ports.data b) s = .next
        { s with
          regs := { s.regs with data := b }
          mem := memWrite s.mem (diskAddr x.cyl x.head x.sidx x.idx) b
          xfer := some { x with idx := x.idx + 1 } }) ∧
    (x.idx + 1 = x.len →
      agentStep (.portWrite s.cfg.ports.data b) s = .next
        { s with
          regs := { s.regs with data := b }
          mem := memWrite s.mem (diskAddr x.cyl x.head x.sidx x.idx) b
          flags := { s.flags with drq := false, busy := false, interruptPending := true }
          xfer := none
          phase := .idle
          intEvents := s.cfg.intLine :: s.intEvents })

/-- R57, R58: the byte a WRITE SECTOR step stores is in the disk at once, and every other byte of every sector reads
as before. The stored place is the transfer's next byte. -/
def Obligations.StoredByteIsInTheDisk : Prop :=
  ∀ (s : State) (x : Xfer) (b : Byte) (cyl : Nat) (head : Bool) (sidx i : Nat),
    diskByte { s with mem := memWrite s.mem (diskAddr x.cyl x.head x.sidx x.idx) b } cyl head sidx i =
      if cyl = x.cyl ∧ head = x.head ∧ sidx = x.sidx ∧ i = x.idx then b else diskByte s cyl head sidx i

/-- A whole WRITE SECTOR by programmed I/O (R188, R57, R186): as many data-port writes as the sector has bytes, one
step each, leave exactly those bytes in the sector, every other byte of the disk as it was, the command complete with
one interrupt. `reg.data` holds the last byte (decision D21, log 39). That the writes are the next steps of the schedule
is log 2. -/
def Obligations.PioWriteStoresSector : Prop :=
  ∀ (s : State) (x : Xfer) (bytes : List Byte) (rest : List Event), s.cfg.ports.Distinct → s.flags.drq = true →
    s.phase = .t2Xfer → s.lastOp = 0xA → s.xfer = some x → x.idx = 0 → x.len = bytes.length → 0 < x.len →
    s.agenda = bytes.map (fun b => .portWrite s.cfg.ports.data b) ++ rest →
    ∃ t : State, core.run bytes.length s = .next t ∧
      (∀ i, i < bytes.length → some (diskByte t x.cyl x.head x.sidx i) = bytes[i]?) ∧
      (∀ (cyl : Nat) (head : Bool) (sidx i : Nat), ¬(cyl = x.cyl ∧ head = x.head ∧ sidx = x.sidx ∧ i < x.len) →
        diskByte t cyl head sidx i = diskByte s cyl head sidx i) ∧
      t.phase = .idle ∧ t.flags = { s.flags with drq := false, busy := false, interruptPending := true } ∧
      t.xfer = none ∧ t.intEvents = s.cfg.intLine :: s.intEvents ∧ t.disk = s.disk ∧ t.agenda = rest ∧
      some t.regs.data = bytes.getLast?

/-- Every step of the machine that changes the disk's bytes is a data-port write or a DMA write under WRITE SECTOR,
which changes only the transfer's next byte, or the index edge that ends a WRITE TRACK, which changes only the track
being formatted (R56, R57, R231). -/
def Obligations.OnlyTransfersAndFormatsChangeTheDisk : Prop :=
  ∀ s t : State, s.Inv → step s = .next t →
    (∃ (x : Xfer) (b : Byte) (rest : List Event),
      (s.agenda = .portWrite s.cfg.ports.data b :: rest ∨ s.agenda = .dmaWrite b :: rest) ∧
      s.xfer = some x ∧ s.lastOp = 0xA ∧ s.phase = .t2Xfer ∧ x.idx < x.len ∧
      t.mem = memWrite s.mem (diskAddr x.cyl x.head x.sidx x.idx) b ∧ t.disk = s.disk) ∨
    (∃ (w : WtBuffer) (rest : List Event),
      s.agenda = .indexEdge :: rest ∧ s.wt = some w ∧ s.lastOp = 0xF ∧ s.phase = .t3Collect ∧
      ∀ (cyl : Nat) (head : Bool) (sidx i : Nat), ¬(cyl = s.regs.track.toNat ∧ head = w.side) →
        diskByte t cyl head sidx i = diskByte s cyl head sidx i ∧
          getTrack t.disk cyl head = getTrack s.disk cyl head) ∨
    (t.mem = s.mem ∧ t.disk.tracks = s.disk.tracks)

/-! ### WRITE TRACK (43_type3.md) -/

/-- The write-track entry on a ready, unprotected drive (R213): an empty buffer with the selected head, `drq` up.
On any other drive the spec gives no behaviour and the model refuses (U8, decision D24). -/
def Obligations.WriteTrackEntry : Prop :=
  ∀ s : State, s.flags.commandAbort = false →
    (s.ext.driveSelect = true → s.drive.isLoaded = true → s.drive.isWriteProtected = false →
      fireWorker .wtEntry s = .next
        { s with
          wt := some { bytes := [], side := if s.cfg.sideSource = .latch then s.ext.side else s.cmd.sso }
          flags := { s.flags with drq := true }
          phase := .t3Collect }) ∧
    (s.ext.driveSelect = false ∨ s.drive.isLoaded = false → fireWorker .wtEntry s = .refused .writeTrackNotReady) ∧
    (s.ext.driveSelect = true → s.drive.isLoaded = true → s.drive.isWriteProtected = true →
      fireWorker .wtEntry s = .refused .writeTrackProtected)

/-- R214, R215: a stream byte is appended, uninterpreted, and loaded into `reg.data`; the byte that does not fit is
the fatal error WT_Overflow (decision D26). -/
def Obligations.StreamByteCollected : Prop :=
  ∀ (s : State) (w : WtBuffer) (b : Byte), s.cfg.ports.Distinct → s.flags.drq = true → s.phase = .t3Collect →
    s.wt = some w →
    (w.bytes.length < s.cfg.wtBufSize →
      agentStep (.portWrite s.cfg.ports.data b) s = .next
        { s with regs := { s.regs with data := b }, wt := some { bytes := w.bytes ++ [b], side := w.side } }) ∧
    (s.cfg.wtBufSize ≤ w.bytes.length → agentStep (.portWrite s.cfg.ports.data b) s = .fault .wtOverflow)

/-- An index edge outside T3_COLLECT changes nothing but the level of the drive's index signal (R222). That the edge is
a step of the drive which sets the level high, and is ignored there, is decision D25 (log 29, DESIGN CHOICE). -/
def Obligations.IndexEdgeElsewhere : Prop :=
  ∀ s : State, s.phase ≠ .t3Collect →
    agentStep .indexEdge s = .next { s with drive := { s.drive with index := true } }

/-- The index edge that ends a WRITE TRACK on a loaded medium (R222, R223, R231, R232): if the stream parses, the track
of the register and the captured side has the format the density latch selects and N sectors of the size, every other
track reads as before, and the command completes with the interrupt; if it does not parse, the step faults. That the
edge is a step which sets the index level is decision D25 (log 29); density and track read at the edge are D38; that
the disk is not marked modified is N15 of R213 (log 41). With the medium taken out since the entry the model refuses
(U8 and R300; its own choice, log 47). -/
def Obligations.IndexEdgeFormats : Prop :=
  ∀ (s : State) (w : WtBuffer), s.phase = .t3Collect → s.wt = some w →
    (∀ n size, parseTrack { dden := s.ext.dden, track := s.regs.track, side := w.side } w.bytes = .ok (n, size) →
      (s.drive.isLoaded = true →
        ∃ t : State, agentStep .indexEdge s = .next t ∧
          (∃ trk : Track, getTrack t.disk s.regs.track.toNat w.side = some trk ∧
            trk.format = (if s.ext.dden then .mfm500 else .fm500) ∧ trk.sectorLens = List.replicate n size) ∧
          (∀ (cyl : Nat) (head : Bool) (sidx i : Nat), ¬(cyl = s.regs.track.toNat ∧ head = w.side) →
            diskByte t cyl head sidx i = diskByte s cyl head sidx i) ∧
          t.flags = { s.flags with drq := false, busy := false, interruptPending := true } ∧
          t.wt = none ∧ t.phase = .idle ∧ t.intEvents = s.cfg.intLine :: s.intEvents ∧
          t.disk.modified = s.disk.modified ∧
          t.regs = s.regs ∧ t.ext = s.ext ∧ t.lastOp = s.lastOp ∧ t.drive = { s.drive with index := true }) ∧
      (s.drive.isLoaded = false → agentStep .indexEdge s = .refused .mediumAbsent)) ∧
    (∀ f, parseTrack { dden := s.ext.dden, track := s.regs.track, side := w.side } w.bytes = .error f →
      agentStep .indexEdge s = .fault f)

/-- In state `Gap4` the parser takes the gap byte of the density flag and goes to `IndexMark`; any other byte is the
fatal error WT_BadGap, so a stream that begins otherwise is rejected by that name (R225). That only the first byte is
tested is decision D27 (log 26, DESIGN CHOICE): in no other state does a byte raise WT_BadGap or lead back to `Gap4`. -/
def Obligations.FirstByteIsGap : Prop :=
  (∀ (env : ParseEnv) (p : Parser) (b : Byte), p.mode = .gap4 →
    parseByte env p b =
      if b = (if env.dden then 0x4E else 0xFF) then .ok { p with mode := .indexMark } else .error .wtBadGap) ∧
  (∀ (env : ParseEnv) (b : Byte) (rest : List Byte), b ≠ (if env.dden then 0x4E else 0xFF) →
    parseTrack env (b :: rest) = .error .wtBadGap) ∧
  (∀ (env : ParseEnv) (p : Parser) (b : Byte), p.mode ≠ .gap4 →
    parseByte env p b ≠ .error .wtBadGap ∧ ∀ q, parseByte env p b = .ok q → q.mode ≠ .gap4)

/-- The parser accepts the plainest layout, `formatStream`: sectors 1 to N in ascending order, of one size and one filler,
with no bytes between the parts. It does so for every N from 1 to 255, every length code, both densities and every filler
but 0xF7, and reports N and the size (R224 to R230; scenario S4). The other layouts are those of
`AcceptedStreamIsALayout`. -/
def Obligations.ParserAcceptsLayout : Prop :=
  ∀ (env : ParseEnv) (code fill : Byte) (n : Nat), 1 ≤ n → n ≤ 255 → code.toNat ≤ 3 → fill ≠ 0xF7 →
    parseTrack env (formatStream env code fill n) = .ok (n, 128 * 2 ^ code.toNat)

/-- The parser accepts exactly the streams that are layouts, and reports the layout's sector count and size (R225 to
R230): the gap byte, an index mark, then sectors whose ID fields name the track and the captured side, of one length
code up to 3, numbered exactly 1 to N, each with as many data bytes as the code says. Every violation has its name and
is the answer at the byte where it stands, whatever follows, or at the end of the stream. That one gap byte is tested,
that an empty or unfinished stream is a violation (`wtNoSectors`, `wtTruncated`), and the order of an ID field's tests
are decision D27 (log 26, DESIGN CHOICE). -/
def Obligations.AcceptedStreamIsALayout : Prop :=
  (∀ (env : ParseEnv) (bytes : List Byte) (n size : Nat),
    parseTrack env bytes = .ok (n, size) ↔ ∃ l : TrackLayout, l.Valid n size ∧ bytes = l.bytes env) ∧
  (∀ (env : ParseEnv) (p : Parser) (t h n l : Byte), p.mode = .idField [t, h, n] →
    (t ≠ env.track → parseByte env p l = .error .wtBadTrack) ∧
    (t = env.track → h ≠ sideByte env.side → parseByte env p l = .error .wtBadHead) ∧
    (t = env.track → h = sideByte env.side →
      (3 < l.toNat → parseByte env p l = .error .wtBadLengthCode) ∧
      (l.toNat ≤ 3 →
        (p.size ≠ none → p.size ≠ some (128 * 2 ^ l.toNat) → parseByte env p l = .error .wtSizeMismatch) ∧
        (p.size = none ∨ p.size = some (128 * 2 ^ l.toNat) → n ∈ p.seen →
          parseByte env p l = .error .wtDuplicateSector)))) ∧
  (∀ (env : ParseEnv) (p : Parser) (count : Nat), p.mode = .dataRecord count → p.size ≠ some count →
    parseByte env p 0xF7 = .error .wtDataLength) ∧
  (∀ (env : ParseEnv) (before after : List Byte) (b : Byte) (p : Parser) (f : Fault),
    parseBytes env parserStart before = .ok p → parseByte env p b = .error f →
    parseTrack env (before ++ b :: after) = .error f) ∧
  (∀ (env : ParseEnv) (bytes : List Byte) (p : Parser), parseBytes env parserStart bytes = .ok p →
    (p.mode = .dataRecordMark ∨ (∃ got, p.mode = .idField got) ∨ (∃ count, p.mode = .dataRecord count) →
      parseTrack env bytes = .error .wtTruncated) ∧
    (p.mode = .gap4 ∨ p.mode = .indexMark ∨ p.mode = .idRecordMark →
      (p.size = none → parseTrack env bytes = .error .wtNoSectors) ∧
      (∀ k, p.size ≠ none → 1 ≤ k → k ≤ p.seen.length → (∀ n ∈ p.seen, n.toNat ≠ k) →
        parseTrack env bytes = .error .wtNonContiguous)))

/-! ### The external latch (45_external_latch.md) -/

/-- R91, R92: the byte of a line `EXT` carries the fields it names, wherever the six distinct bits are. -/
def Obligations.LatchByteCarriesItsFields : Prop :=
  ∀ (m : Config.ExtStateBits) (e : ExtLatch), m.Distinct → latchFields m (latchByte m e) = e

/-- Chip enable of an idle, disabled block (R260, R264, R266, R267): the fields, the drive's select, the synthetic RESTORE
with h = 1 and V = 0, and, if the same write selects a drive, the index override. The RESTORE's byte is decision
D12, its clearing of `command_abort` D4. -/
def Obligations.ChipEnableStartsRestore : Prop :=
  ∀ (s : State) (b : Byte) (e : ExtLatch), s.cfg.ports.Distinct → latchFields s.cfg.extStateBits b = e →
    e.chipEn = true →
    s.flags.fdcEnabled = false → s.flags.busy = false →
    agentStep (.portWrite s.cfg.ports.ext b) s = .next
      { s with
        ext := e
        drive := { s.drive with driveSelect := e.driveSelect }
        flags := { s.flags with
          fdcEnabled := true, busy := true, commandAbort := false, interruptPending := false
          indexReset := e.driveSelect || s.flags.indexReset }
        indexTimer := if e.driveSelect then some (s.now + s.cfg.tIndexOverride) else s.indexTimer
        lastOp := 0x0
        cmd := { u := false, h := true, v := false, sso := s.cmd.sso }
        regs := { s.regs with track := BitVec.ofInt 8 s.drive.track }
        seekDest := 0
        t1Kind := .seekLike
        phase := .t1Run
        workerTimer := some { due := s.now + s.cfg.tAccept, kind := .t1Tick } }

/-- R269 with R268: a latch write that finds the chip already as it asks changes only the six fields and the
drive's select, a command in flight included. -/
def Obligations.LatchWriteIdempotent : Prop :=
  ∀ (s : State) (b : Byte), s.cfg.ports.Distinct →
    (latchFields s.cfg.extStateBits b).chipEn = s.flags.fdcEnabled →
    agentStep (.portWrite s.cfg.ports.ext b) s = .next
      { s with
        ext := latchFields s.cfg.extStateBits b
        drive := { s.drive with driveSelect := (latchFields s.cfg.extStateBits b).driveSelect } }

/-- Chip disable, the `RESET` step and the falling edge of master reset run the same `Reset()` (R268, R310, R311;
decision D32): all registers, flags, latches and timers as R26 says, buffers gone, `step_dir`, `now`, the head
and the disk as they were, no interrupt. -/
def Obligations.ResetClearsTheBlock : Prop :=
  ∀ (s r : State),
    r = { s with
      regs := { track := 0, sector := 0, data := 0 }
      flags := Flags.clear
      lastOp := 0x0
      ext := ExtLatch.clear
      cmd := CmdLatch.clear
      drive := { s.drive with driveSelect := false }
      workerTimer := none
      indexTimer := none
      xfer := none
      wt := none
      phase := .idle
      drqCounter := s.cfg.drqReload
      seekDest := 0
      t1Kind := .seekLike
      stepPending := false } →
    agentStep .reset s = .next r ∧
    (s.masterReset = true → agentStep (.masterReset false) s = .next { r with masterReset := false }) ∧
    (s.masterReset = false → ∀ h, agentStep (.masterReset h) s = .next { s with masterReset := h }) ∧
    (∀ b, s.cfg.ports.Distinct → s.flags.fdcEnabled = true → (latchFields s.cfg.extStateBits b).chipEn = false →
      agentStep (.portWrite s.cfg.ports.ext b) s = .next r)

/-- R270: the external status read answers the four fields, each at its bit and polarity, and changes nothing of the
block or the drive (decision D31); the other bits are free. -/
def Obligations.ExternalStatusRead : Prop :=
  ∀ s : State, s.cfg.ports.Distinct → s.cfg.extStatusBits.Distinct →
    ∃ v : Byte, agentStep (.portRead s.cfg.ports.ext) s = .next { s with reply := .byte v, freeCount := s.freeCount + 1 } ∧
      readField s.cfg.extStatusBits.diskChanged v = s.drive.diskChange ∧
      readField s.cfg.extStatusBits.terminalCount v = s.dmaTc ∧
      readField s.cfg.extStatusBits.twoSided v = !s.drive.isSingleSided ∧
      readField s.cfg.extStatusBits.noFloppy v = !s.drive.isLoaded

/-! ### Timers and interrupts (10_state.md, 60_exceptions.md) -/

/-- R22, R20, R21: a tick fires the earliest pending timer: time moves to its due time, which no pending timer's is
before; the index timer's step only ends the override. With none pending nothing happens. Time may also pass without
firing, to any moment not later than a pending due time, for another agent's step then (R294 (f); the event that does
so is the model's, log 40). -/
def Obligations.TickFiresEarliestTimer : Prop :=
  ∀ s : State,
    (s.workerTimer = none → s.indexTimer = none → agentStep .tick s = .next s) ∧
    (∀ w, s.workerTimer = some w → s.now ≤ w.due → (∀ i, s.indexTimer = some i → w.due < i) →
      agentStep .tick s = fireWorker w.kind { s with now := w.due, workerTimer := none }) ∧
    (∀ i, s.indexTimer = some i → s.now ≤ i → (∀ w, s.workerTimer = some w → i < w.due) →
      agentStep .tick s = .next
        { s with now := i, indexTimer := none, flags := { s.flags with indexReset := false } }) ∧
    (∀ ns, (∀ w, s.workerTimer = some w → s.now + ns ≤ w.due) → (∀ i, s.indexTimer = some i → s.now + ns ≤ i) →
      agentStep (.elapse ns) s = .next { s with now := s.now + ns })

/-- R290: in every step from a state of the invariant, the call on the line `INT_LINE` is made only by a completion: at
most once, in a step that leaves the block idle and not busy with `interrupt_pending` set, from T1_RUN, T2_XFER or T3_COLLECT. -/
def Obligations.OnlyCompletionsInterrupt : Prop :=
  ∀ s t : State, s.Inv → step s = .next t → t.intEvents ≠ s.intEvents →
    t.intEvents = s.cfg.intLine :: s.intEvents ∧ t.flags.interruptPending = true ∧ t.flags.busy = false ∧ t.phase = .idle ∧
      (s.phase = .t1Run ∨ s.phase = .t2Xfer ∨ s.phase = .t3Collect)

/-- R291: `interrupt_pending` is cleared only by a status read, by a command write that is not discarded (the synthetic
RESTORE of chip enable among them), or by a reset in one of its three forms. -/
def Obligations.OnlyAcknowledgesClearInterrupt : Prop :=
  ∀ s t : State, step s = .next t → s.flags.interruptPending = true → t.flags.interruptPending = false →
    ∃ (e : Event) (rest : List Event), s.agenda = e :: rest ∧
      (e = .portRead s.cfg.ports.cmdStatus ∨ e = .reset ∨ (e = .masterReset false ∧ s.masterReset = true) ∨
        (∃ c, e = .portWrite s.cfg.ports.cmdStatus c ∧ (s.flags.busy = false ∨ commandOp s c = 0xD)) ∨
        (∃ b, e = .portWrite s.cfg.ports.ext b ∧ (latchFields s.cfg.extStateBits b).chipEn ≠ s.flags.fdcEnabled))

/-- R300, R301: the head moves only in a step of the timer agent that fires the Type I worker (a `TICK`, `RUN` or `WAIT`,
or its turn with nothing scheduled, log 2); in every other step `drive.track` stays. -/
def Obligations.OnlyTheWorkerMovesTheHead : Prop :=
  ∀ s t : State, step s = .next t → t.drive.track ≠ s.drive.track →
    (∃ w : WorkerTimer, s.workerTimer = some w ∧ w.kind = .t1Tick ∧ s.flags.commandAbort = false ∧ w.due ≤ t.now) ∧
      (s.agenda = [] ∨
        ∃ (e : Event) (rest : List Event), s.agenda = e :: rest ∧ (e = .tick ∨ e = .run ∨ ∃ ns, e = .wait ns))

/-- Time never runs back (R22), and the parameters of R5 are fixed: no step changes them. -/
def Obligations.TimeAndParametersKeep : Prop :=
  ∀ s t : State, step s = .next t → s.now ≤ t.now ∧ t.cfg = s.cfg

/-- R250, R251, R253, R150: after a FORCE INTERRUPT, a block left alone stays as it is: no further head step, no
interrupt, no transfer, however many steps the timer agent is given (the cancelled timer is decision D6). -/
def Obligations.AfterForceInterruptNothingFires : Prop :=
  ∀ (s t : State) (c k : Nat), s.agenda = [] → s.indexTimer = none → exec (.fint c) s = .next t →
    core.run k t = .next t

/-! ### Reset and the invariant -/

/-- The machine at power-on (R26, R311, R312), under the defaults of R5 and under any good parameters, is in the invariant,
idle and disabled, with registers, flags, latches and timers as the table of R26 says, `step_dir` at `STEP_DIR_RESET`
(decision D10, log 6), and at the defaults the ports of R50. That power-on equals the state after `Reset()` and the values
of the hidden state are decision D32 (log 36, DESIGN CHOICE), the idle phase and the absent timers D6 (log 24). The values
of the surroundings are the model's (log 18), not stated here. -/
def Obligations.PowerOnState : Prop :=
  State.reset = State.powerOn Config.params ∧ State.reset.Inv ∧
    State.reset.cfg.ports = { cmdStatus := 0x84, track := 0x85, sector := 0x86, data := 0x87, ext := 0xE8 } ∧
    (∀ p : Config.Params, GoodParams p → (State.powerOn p).Inv) ∧
    ∀ (p : Config.Params) (s : State), s = State.powerOn p →
      s.regs = { track := 0, sector := 0, data := 0 } ∧ s.flags = Flags.clear ∧
      s.lastOp = 0x0 ∧ s.ext = ExtLatch.clear ∧ s.cmd = CmdLatch.clear ∧ s.stepDir = p.stepDirReset ∧
      s.seekDest = 0 ∧ s.t1Kind = .seekLike ∧ s.stepPending = false ∧
      s.phase = .idle ∧ s.workerTimer = none ∧ s.indexTimer = none ∧
      s.xfer = none ∧ s.wt = none ∧ s.drqCounter = p.drqReload ∧
      s.drive.driveSelect = false ∧ s.cfg = p

/-- Every step keeps the invariant, from every state that meets it (R19, with R12, R18, R20 to R25, R260, R267). -/
def Obligations.StepKeepsInvariant : Prop :=
  ∀ s t : State, s.Inv → step s = .next t → t.Inv
end

