-- ==== Sys2Proof/Laws/Memory.lean ====
section
/-! SUPPORT. The laws of the disk's bytes and of the track directory: a read after a write, that every memory
operation keeps the canonical form, and that the model's addresses tell places apart. -/

namespace Sys2Proof.Machine

/-! ### Reads after writes -/

theorem memRead_memWrite (m : Memory) (a : Nat) (v : Byte) (a' : Nat) :
    memRead (memWrite m a v) a' = if a' = a then some v else memRead m a' := by
  induction m with
  | nil => by_cases h' : a = a' <;> simp [memWrite, memRead, h', eq_comm]
  | cons c rest ih =>
    obtain ⟨b, w⟩ := c
    rw [memWrite]
    split
    · by_cases h' : a = a' <;> simp [memRead, h', eq_comm]
    · split
      · subst b
        by_cases h' : a = a'
        · simp [memRead, h']
        · simp [memRead, h', Ne.symm h']
      · rw [memRead, memRead, ih]
        by_cases h1 : b = a'
        · have : a' ≠ a := by omega
          simp [h1, this]
        · simp [h1]

theorem memRead_memErase (m : Memory) (cyl : Nat) (head : Bool) (a : Nat) :
    memRead (memErase m cyl head) a = if inTrack cyl head a then none else memRead m a := by
  induction m with
  | nil => simp [memErase, memRead]
  | cons c rest ih =>
    obtain ⟨b, w⟩ := c
    unfold memErase at ih ⊢
    by_cases hb : inTrack cyl head b = true
    · rw [List.filter_cons_of_neg (by simp [hb]), ih]
      by_cases ha : inTrack cyl head a = true
      · simp [ha]
      · have : b ≠ a := by rintro rfl; exact ha hb
        simp [ha, memRead, this]
    · rw [List.filter_cons_of_pos (by simp [hb]), memRead, memRead, ih]
      by_cases h1 : b = a
      · subst h1; rw [if_pos rfl, if_neg hb, if_pos rfl]
      · simp [h1]

/-! ### The canonical form -/

theorem mem_memWrite (m : Memory) (a : Nat) (v : Byte) (c : Host.Cell) (h : c ∈ memWrite m a v) : c.1 = a ∨ c ∈ m := by
  induction m with
  | nil => simp_all [memWrite]
  | cons d rest ih =>
    obtain ⟨b, w⟩ := d
    rw [memWrite] at h
    split at h
    · rcases List.mem_cons.mp h with h | h <;> simp_all
    · split at h
      · rcases List.mem_cons.mp h with h | h <;> simp_all
      · rcases List.mem_cons.mp h with h | h
        · simp_all
        · rcases ih h with h | h <;> simp_all

theorem memWrite_wf (m : Memory) (a : Nat) (v : Byte) (h : m.wf) : (memWrite m a v).wf := by
  induction m with
  | nil => simp [memWrite]
  | cons d rest ih =>
    obtain ⟨b, w⟩ := d
    obtain ⟨hb, hrest⟩ := List.pairwise_cons.mp h
    rw [memWrite]
    split
    · rename_i hab
      refine List.pairwise_cons.mpr ⟨fun c hc => ?_, h⟩
      rcases List.mem_cons.mp hc with rfl | hc
      · exact hab
      · exact lt_trans hab (hb c hc)
    · split
      · rename_i hab
        subst hab
        exact List.pairwise_cons.mpr ⟨hb, hrest⟩
      · refine List.pairwise_cons.mpr ⟨fun c hc => ?_, ih hrest⟩
        rcases mem_memWrite rest a v c hc with hc | hc
        · simp only; omega
        · exact hb c hc

theorem memErase_wf (m : Memory) (cyl : Nat) (head : Bool) (h : m.wf) : (memErase m cyl head).wf := List.Pairwise.filter _ h

theorem reset_mem_wf : State.reset.mem.wf := List.Pairwise.nil

/-! ### Addresses -/

theorem trackKey_inj {c c' : Nat} {h h' : Bool} : trackKey c h = trackKey c' h' ↔ c = c' ∧ h = h' := by
  unfold trackKey
  constructor
  · intro e; cases h <;> cases h' <;> simp at * <;> omega
  · rintro ⟨rfl, rfl⟩; rfl

/-- What 2 divides a pair's number by says the pair's first part. -/
theorem pairAddr_mod (k n j : Nat) : pairAddr k n % 2 ^ (j + 1) = 2 ^ j ↔ k = j := by
  unfold pairAddr
  rcases lt_trichotomy k j with h | h | h
  · constructor
    · intro e
      have hd : 2 ^ (k + 1) ∣ 2 ^ k * (2 * n + 1) := by
        have h1 : 2 ^ (k + 1) ∣ 2 ^ j := pow_dvd_pow 2 h
        have h2 : 2 ^ (k + 1) ∣ 2 ^ (j + 1) := pow_dvd_pow 2 (by omega)
        rw [← Nat.mod_add_div (2 ^ k * (2 * n + 1)) (2 ^ (j + 1)), e]
        exact dvd_add h1 (h2.mul_right _)
      rw [pow_succ, Nat.mul_dvd_mul_iff_left (by positivity)] at hd
      omega
    · omega
  · subst h
    rw [pow_succ, Nat.mul_mod_mul_left, Nat.mul_add_mod]
    simp
  · constructor
    · intro e
      have : 2 ^ k * (2 * n + 1) % 2 ^ (j + 1) = 0 :=
        Nat.mod_eq_zero_of_dvd ((pow_dvd_pow 2 (by omega)).mul_right _)
      have hp : 0 < 2 ^ j := by positivity
      omega
    · omega

theorem pairAddr_inj {k k' n n' : Nat} : pairAddr k n = pairAddr k' n' ↔ k = k' ∧ n = n' := by
  constructor
  · intro e
    have hk : k = k' := (pairAddr_mod k n k').mp (e ▸ (pairAddr_mod k' n' k').mpr rfl)
    subst hk
    have := Nat.eq_of_mul_eq_mul_left (by positivity) e
    exact ⟨rfl, by omega⟩
  · rintro ⟨rfl, rfl⟩; rfl

/-- The addresses of the disk space tell all places apart (R56; log 16). -/
theorem diskAddr_inj {c c' : Nat} {h h' : Bool} {k k' i i' : Nat} :
    diskAddr c h k i = diskAddr c' h' k' i' ↔ c = c' ∧ h = h' ∧ k = k' ∧ i = i' := by
  rw [diskAddr, diskAddr, pairAddr_inj, pairAddr_inj, trackKey_inj, and_assoc]

/-- A place lies among the addresses of its own track and of no other. -/
theorem inTrack_diskAddr (c c' : Nat) (h h' : Bool) (k i : Nat) :
    inTrack c' h' (diskAddr c h k i) = true ↔ c = c' ∧ h = h' := by
  rw [← trackKey_inj, inTrack, beq_iff_eq]
  exact pairAddr_mod _ _ _

/-! ### The track directory -/

theorem mem_putTrack (t u : Track) (l : List Track) (h : u ∈ putTrack t l) : u = t ∨ u ∈ l := by
  induction l with
  | nil => simp_all [putTrack]
  | cons v rest ih =>
    rw [putTrack] at h
    split at h
    · rcases List.mem_cons.mp h with h | h <;> simp_all
    · split at h
      · rcases List.mem_cons.mp h with h | h <;> simp_all
      · rcases List.mem_cons.mp h with h | h
        · simp_all
        · rcases ih h with h | h <;> simp_all

theorem putTrack_sorted (t : Track) (l : List Track)
    (h : l.Pairwise fun a b => trackKey a.cyl a.head < trackKey b.cyl b.head) :
    (putTrack t l).Pairwise fun a b => trackKey a.cyl a.head < trackKey b.cyl b.head := by
  induction l with
  | nil => simp [putTrack]
  | cons v rest ih =>
    obtain ⟨hv, hrest⟩ := List.pairwise_cons.mp h
    rw [putTrack]
    split
    · rename_i hlt
      refine List.pairwise_cons.mpr ⟨fun c hc => ?_, h⟩
      rcases List.mem_cons.mp hc with rfl | hc
      · exact hlt
      · exact lt_trans hlt (hv c hc)
    · split
      · rename_i heq
        exact List.pairwise_cons.mpr ⟨fun c hc => heq ▸ hv c hc, hrest⟩
      · refine List.pairwise_cons.mpr ⟨fun c hc => ?_, ih hrest⟩
        rcases mem_putTrack t c rest hc with rfl | hc
        · omega
        · exact hv c hc

theorem getTrack_eq_some {d : Disk} {c : Int} {h : Bool} {t : Track} (e : getTrack d c h = some t) :
    t ∈ d.tracks ∧ (t.cyl : Int) = c ∧ t.head = h := by
  have hm := List.mem_of_find?_eq_some e
  have hp := List.find?_some e
  simp only [Bool.and_eq_true, decide_eq_true_eq, beq_iff_eq] at hp
  exact ⟨hm, hp.1, hp.2⟩

/-- R231: after a track is put into the directory, it is the one found at its place. -/
theorem getTrack_putTrack_self (t : Track) (l : List Track) (m : Bool) :
    getTrack { tracks := putTrack t l, modified := m } t.cyl t.head = some t := by
  unfold getTrack
  induction l with
  | nil => simp [putTrack]
  | cons v rest ih =>
    simp only [putTrack]
    split
    · simp
    · split
      · simp
      · rename_i h1 h2
        rw [List.find?_cons_of_neg, ih]
        simp only [Bool.and_eq_true, decide_eq_true_eq, beq_iff_eq, not_and]
        intro hc hh
        exact absurd (trackKey_inj.mpr ⟨by exact_mod_cast hc.symm, hh.symm⟩) h2

/-- R231: putting a track into the directory changes what is found at no other place. -/
theorem getTrack_putTrack_other (t : Track) (l : List Track) (m : Bool) (c : Int) (h : Bool)
    (hne : ¬((t.cyl : Int) = c ∧ t.head = h)) :
    getTrack { tracks := putTrack t l, modified := m } c h = getTrack { tracks := l, modified := m } c h := by
  unfold getTrack
  have hp : (decide ((t.cyl : Int) = c) && (t.head == h)) = false := by
    simp only [Bool.and_eq_false_iff, decide_eq_false_iff_not, beq_eq_false_iff_ne]
    tauto
  induction l with
  | nil => simp [putTrack, hp]
  | cons v rest ih =>
    simp only [putTrack]
    split
    · rw [List.find?_cons_of_neg (by simp [hp])]
    · split
      · rename_i h1 h2
        have hv : ¬((v.cyl : Int) = c ∧ v.head = h) := by
          rintro ⟨e1, e2⟩
          obtain ⟨e3, e4⟩ := trackKey_inj.mp h2
          exact hne ⟨by rw [e3]; exact e1, e4.trans e2⟩
        rw [List.find?_cons_of_neg (by simp [hp]), List.find?_cons_of_neg (by simp; tauto)]
      · simp only [List.find?_cons]
        split
        · rfl
        · exact ih

end Sys2Proof.Machine
end

