-- ==== Sys2Proof/Laws/Operands.lean ====
section
/-! SUPPORT. The fields of an external latch byte: writing one makes it read so, and leaves the others. -/

namespace Sys2Proof.Machine

open Sys2Proof.Config (LatchBit)

/-- A field of a latch byte reads as it was written, whatever its bit and polarity (R91). -/
theorem readField_writeField_self (p : LatchBit) (v : Bool) (b : Byte) : readField p (writeField p v b) = v := by
  obtain ⟨i, h⟩ := p
  revert i h v b
  decide

/-- Writing one field of a latch byte leaves a field at another bit as it was (R91). -/
theorem readField_writeField_other (p q : LatchBit) (v : Bool) (b : Byte) (hne : p.index ≠ q.index) :
    readField p (writeField q v b) = readField p b := by
  obtain ⟨i, h⟩ := p
  obtain ⟨j, k⟩ := q
  unfold readField writeField setBit
  simp only at *
  congr 1
  generalize (v == k) = w
  revert i j w b
  decide

end Sys2Proof.Machine
end

