-- ==== Sys2Proof/Laws/State.lean ====
section
/-! SUPPORT. What each named update of State does to each field, by `rfl`: the simp set in which later proofs never
unfold an update. -/

namespace Sys2Proof.Machine

/-! ### recordCommand -/

@[simp] theorem recordCommand_regs (op : Nibble) (s : State) : (recordCommand op s).regs = s.regs := rfl
@[simp] theorem recordCommand_flags (op : Nibble) (s : State) :
    (recordCommand op s).flags = { s.flags with interruptPending := false } := rfl
@[simp] theorem recordCommand_lastOp (op : Nibble) (s : State) : (recordCommand op s).lastOp = op := rfl
@[simp] theorem recordCommand_ext (op : Nibble) (s : State) : (recordCommand op s).ext = s.ext := rfl
@[simp] theorem recordCommand_cmd (op : Nibble) (s : State) : (recordCommand op s).cmd = s.cmd := rfl
@[simp] theorem recordCommand_stepDir (op : Nibble) (s : State) : (recordCommand op s).stepDir = s.stepDir := rfl
@[simp] theorem recordCommand_seekDest (op : Nibble) (s : State) : (recordCommand op s).seekDest = s.seekDest := rfl
@[simp] theorem recordCommand_t1Kind (op : Nibble) (s : State) : (recordCommand op s).t1Kind = s.t1Kind := rfl
@[simp] theorem recordCommand_stepPending (op : Nibble) (s : State) :
    (recordCommand op s).stepPending = s.stepPending := rfl
@[simp] theorem recordCommand_phase (op : Nibble) (s : State) : (recordCommand op s).phase = s.phase := rfl
@[simp] theorem recordCommand_workerTimer (op : Nibble) (s : State) :
    (recordCommand op s).workerTimer = s.workerTimer := rfl
@[simp] theorem recordCommand_indexTimer (op : Nibble) (s : State) :
    (recordCommand op s).indexTimer = s.indexTimer := rfl
@[simp] theorem recordCommand_now (op : Nibble) (s : State) : (recordCommand op s).now = s.now := rfl
@[simp] theorem recordCommand_xfer (op : Nibble) (s : State) : (recordCommand op s).xfer = s.xfer := rfl
@[simp] theorem recordCommand_wt (op : Nibble) (s : State) : (recordCommand op s).wt = s.wt := rfl
@[simp] theorem recordCommand_drqCounter (op : Nibble) (s : State) :
    (recordCommand op s).drqCounter = s.drqCounter := rfl
@[simp] theorem recordCommand_drive (op : Nibble) (s : State) : (recordCommand op s).drive = s.drive := rfl
@[simp] theorem recordCommand_disk (op : Nibble) (s : State) : (recordCommand op s).disk = s.disk := rfl
@[simp] theorem recordCommand_mem (op : Nibble) (s : State) : (recordCommand op s).mem = s.mem := rfl
@[simp] theorem recordCommand_dmaTc (op : Nibble) (s : State) : (recordCommand op s).dmaTc = s.dmaTc := rfl
@[simp] theorem recordCommand_masterReset (op : Nibble) (s : State) :
    (recordCommand op s).masterReset = s.masterReset := rfl
@[simp] theorem recordCommand_cfg (op : Nibble) (s : State) : (recordCommand op s).cfg = s.cfg := rfl
@[simp] theorem recordCommand_reply (op : Nibble) (s : State) : (recordCommand op s).reply = s.reply := rfl
@[simp] theorem recordCommand_intEvents (op : Nibble) (s : State) : (recordCommand op s).intEvents = s.intEvents := rfl
@[simp] theorem recordCommand_freeCount (op : Nibble) (s : State) : (recordCommand op s).freeCount = s.freeCount := rfl
@[simp] theorem recordCommand_agenda (op : Nibble) (s : State) : (recordCommand op s).agenda = s.agenda := rfl

/-! ### acceptFlags -/

@[simp] theorem acceptFlags_regs (s : State) : (acceptFlags s).regs = s.regs := rfl
@[simp] theorem acceptFlags_flags (s : State) :
    (acceptFlags s).flags = { s.flags with busy := true, commandAbort := false } := rfl
@[simp] theorem acceptFlags_lastOp (s : State) : (acceptFlags s).lastOp = s.lastOp := rfl
@[simp] theorem acceptFlags_ext (s : State) : (acceptFlags s).ext = s.ext := rfl
@[simp] theorem acceptFlags_cmd (s : State) : (acceptFlags s).cmd = s.cmd := rfl
@[simp] theorem acceptFlags_stepDir (s : State) : (acceptFlags s).stepDir = s.stepDir := rfl
@[simp] theorem acceptFlags_seekDest (s : State) : (acceptFlags s).seekDest = s.seekDest := rfl
@[simp] theorem acceptFlags_t1Kind (s : State) : (acceptFlags s).t1Kind = s.t1Kind := rfl
@[simp] theorem acceptFlags_stepPending (s : State) : (acceptFlags s).stepPending = s.stepPending := rfl
@[simp] theorem acceptFlags_phase (s : State) : (acceptFlags s).phase = s.phase := rfl
@[simp] theorem acceptFlags_workerTimer (s : State) : (acceptFlags s).workerTimer = s.workerTimer := rfl
@[simp] theorem acceptFlags_indexTimer (s : State) : (acceptFlags s).indexTimer = s.indexTimer := rfl
@[simp] theorem acceptFlags_now (s : State) : (acceptFlags s).now = s.now := rfl
@[simp] theorem acceptFlags_xfer (s : State) : (acceptFlags s).xfer = s.xfer := rfl
@[simp] theorem acceptFlags_wt (s : State) : (acceptFlags s).wt = s.wt := rfl
@[simp] theorem acceptFlags_drqCounter (s : State) : (acceptFlags s).drqCounter = s.drqCounter := rfl
@[simp] theorem acceptFlags_drive (s : State) : (acceptFlags s).drive = s.drive := rfl
@[simp] theorem acceptFlags_disk (s : State) : (acceptFlags s).disk = s.disk := rfl
@[simp] theorem acceptFlags_mem (s : State) : (acceptFlags s).mem = s.mem := rfl
@[simp] theorem acceptFlags_dmaTc (s : State) : (acceptFlags s).dmaTc = s.dmaTc := rfl
@[simp] theorem acceptFlags_masterReset (s : State) : (acceptFlags s).masterReset = s.masterReset := rfl
@[simp] theorem acceptFlags_cfg (s : State) : (acceptFlags s).cfg = s.cfg := rfl
@[simp] theorem acceptFlags_reply (s : State) : (acceptFlags s).reply = s.reply := rfl
@[simp] theorem acceptFlags_intEvents (s : State) : (acceptFlags s).intEvents = s.intEvents := rfl
@[simp] theorem acceptFlags_freeCount (s : State) : (acceptFlags s).freeCount = s.freeCount := rfl
@[simp] theorem acceptFlags_agenda (s : State) : (acceptFlags s).agenda = s.agenda := rfl

/-! ### latchTypeI -/

@[simp] theorem latchTypeI_regs (u h v : Bool) (s : State) : (latchTypeI u h v s).regs = s.regs := rfl
@[simp] theorem latchTypeI_flags (u h v : Bool) (s : State) : (latchTypeI u h v s).flags = s.flags := rfl
@[simp] theorem latchTypeI_lastOp (u h v : Bool) (s : State) : (latchTypeI u h v s).lastOp = s.lastOp := rfl
@[simp] theorem latchTypeI_ext (u h v : Bool) (s : State) : (latchTypeI u h v s).ext = s.ext := rfl
@[simp] theorem latchTypeI_cmd (u h v : Bool) (s : State) :
    (latchTypeI u h v s).cmd = { s.cmd with u := u, h := h, v := v } := rfl
@[simp] theorem latchTypeI_stepDir (u h v : Bool) (s : State) : (latchTypeI u h v s).stepDir = s.stepDir := rfl
@[simp] theorem latchTypeI_seekDest (u h v : Bool) (s : State) : (latchTypeI u h v s).seekDest = s.seekDest := rfl
@[simp] theorem latchTypeI_t1Kind (u h v : Bool) (s : State) : (latchTypeI u h v s).t1Kind = s.t1Kind := rfl
@[simp] theorem latchTypeI_stepPending (u h v : Bool) (s : State) :
    (latchTypeI u h v s).stepPending = s.stepPending := rfl
@[simp] theorem latchTypeI_phase (u h v : Bool) (s : State) : (latchTypeI u h v s).phase = s.phase := rfl
@[simp] theorem latchTypeI_workerTimer (u h v : Bool) (s : State) :
    (latchTypeI u h v s).workerTimer = s.workerTimer := rfl
@[simp] theorem latchTypeI_indexTimer (u h v : Bool) (s : State) : (latchTypeI u h v s).indexTimer = s.indexTimer := rfl
@[simp] theorem latchTypeI_now (u h v : Bool) (s : State) : (latchTypeI u h v s).now = s.now := rfl
@[simp] theorem latchTypeI_xfer (u h v : Bool) (s : State) : (latchTypeI u h v s).xfer = s.xfer := rfl
@[simp] theorem latchTypeI_wt (u h v : Bool) (s : State) : (latchTypeI u h v s).wt = s.wt := rfl
@[simp] theorem latchTypeI_drqCounter (u h v : Bool) (s : State) : (latchTypeI u h v s).drqCounter = s.drqCounter := rfl
@[simp] theorem latchTypeI_drive (u h v : Bool) (s : State) : (latchTypeI u h v s).drive = s.drive := rfl
@[simp] theorem latchTypeI_disk (u h v : Bool) (s : State) : (latchTypeI u h v s).disk = s.disk := rfl
@[simp] theorem latchTypeI_mem (u h v : Bool) (s : State) : (latchTypeI u h v s).mem = s.mem := rfl
@[simp] theorem latchTypeI_dmaTc (u h v : Bool) (s : State) : (latchTypeI u h v s).dmaTc = s.dmaTc := rfl
@[simp] theorem latchTypeI_masterReset (u h v : Bool) (s : State) :
    (latchTypeI u h v s).masterReset = s.masterReset := rfl
@[simp] theorem latchTypeI_cfg (u h v : Bool) (s : State) : (latchTypeI u h v s).cfg = s.cfg := rfl
@[simp] theorem latchTypeI_reply (u h v : Bool) (s : State) : (latchTypeI u h v s).reply = s.reply := rfl
@[simp] theorem latchTypeI_intEvents (u h v : Bool) (s : State) : (latchTypeI u h v s).intEvents = s.intEvents := rfl
@[simp] theorem latchTypeI_freeCount (u h v : Bool) (s : State) : (latchTypeI u h v s).freeCount = s.freeCount := rfl
@[simp] theorem latchTypeI_agenda (u h v : Bool) (s : State) : (latchTypeI u h v s).agenda = s.agenda := rfl

/-! ### latchTypeII -/

@[simp] theorem latchTypeII_regs (sso : Bool) (s : State) : (latchTypeII sso s).regs = s.regs := rfl
@[simp] theorem latchTypeII_flags (sso : Bool) (s : State) : (latchTypeII sso s).flags = s.flags := rfl
@[simp] theorem latchTypeII_lastOp (sso : Bool) (s : State) : (latchTypeII sso s).lastOp = s.lastOp := rfl
@[simp] theorem latchTypeII_ext (sso : Bool) (s : State) : (latchTypeII sso s).ext = s.ext := rfl
@[simp] theorem latchTypeII_cmd (sso : Bool) (s : State) : (latchTypeII sso s).cmd = { s.cmd with sso := sso } := rfl
@[simp] theorem latchTypeII_stepDir (sso : Bool) (s : State) : (latchTypeII sso s).stepDir = s.stepDir := rfl
@[simp] theorem latchTypeII_seekDest (sso : Bool) (s : State) : (latchTypeII sso s).seekDest = s.seekDest := rfl
@[simp] theorem latchTypeII_t1Kind (sso : Bool) (s : State) : (latchTypeII sso s).t1Kind = s.t1Kind := rfl
@[simp] theorem latchTypeII_stepPending (sso : Bool) (s : State) :
    (latchTypeII sso s).stepPending = s.stepPending := rfl
@[simp] theorem latchTypeII_phase (sso : Bool) (s : State) : (latchTypeII sso s).phase = s.phase := rfl
@[simp] theorem latchTypeII_workerTimer (sso : Bool) (s : State) :
    (latchTypeII sso s).workerTimer = s.workerTimer := rfl
@[simp] theorem latchTypeII_indexTimer (sso : Bool) (s : State) : (latchTypeII sso s).indexTimer = s.indexTimer := rfl
@[simp] theorem latchTypeII_now (sso : Bool) (s : State) : (latchTypeII sso s).now = s.now := rfl
@[simp] theorem latchTypeII_xfer (sso : Bool) (s : State) : (latchTypeII sso s).xfer = s.xfer := rfl
@[simp] theorem latchTypeII_wt (sso : Bool) (s : State) : (latchTypeII sso s).wt = s.wt := rfl
@[simp] theorem latchTypeII_drqCounter (sso : Bool) (s : State) : (latchTypeII sso s).drqCounter = s.drqCounter := rfl
@[simp] theorem latchTypeII_drive (sso : Bool) (s : State) : (latchTypeII sso s).drive = s.drive := rfl
@[simp] theorem latchTypeII_disk (sso : Bool) (s : State) : (latchTypeII sso s).disk = s.disk := rfl
@[simp] theorem latchTypeII_mem (sso : Bool) (s : State) : (latchTypeII sso s).mem = s.mem := rfl
@[simp] theorem latchTypeII_dmaTc (sso : Bool) (s : State) : (latchTypeII sso s).dmaTc = s.dmaTc := rfl
@[simp] theorem latchTypeII_masterReset (sso : Bool) (s : State) :
    (latchTypeII sso s).masterReset = s.masterReset := rfl
@[simp] theorem latchTypeII_cfg (sso : Bool) (s : State) : (latchTypeII sso s).cfg = s.cfg := rfl
@[simp] theorem latchTypeII_reply (sso : Bool) (s : State) : (latchTypeII sso s).reply = s.reply := rfl
@[simp] theorem latchTypeII_intEvents (sso : Bool) (s : State) : (latchTypeII sso s).intEvents = s.intEvents := rfl
@[simp] theorem latchTypeII_freeCount (sso : Bool) (s : State) : (latchTypeII sso s).freeCount = s.freeCount := rfl
@[simp] theorem latchTypeII_agenda (sso : Bool) (s : State) : (latchTypeII sso s).agenda = s.agenda := rfl

/-! ### startTimer -/

@[simp] theorem startTimer_regs (d : Nat) (k : TimerKind) (s : State) : (startTimer d k s).regs = s.regs := rfl
@[simp] theorem startTimer_flags (d : Nat) (k : TimerKind) (s : State) : (startTimer d k s).flags = s.flags := rfl
@[simp] theorem startTimer_lastOp (d : Nat) (k : TimerKind) (s : State) : (startTimer d k s).lastOp = s.lastOp := rfl
@[simp] theorem startTimer_ext (d : Nat) (k : TimerKind) (s : State) : (startTimer d k s).ext = s.ext := rfl
@[simp] theorem startTimer_cmd (d : Nat) (k : TimerKind) (s : State) : (startTimer d k s).cmd = s.cmd := rfl
@[simp] theorem startTimer_stepDir (d : Nat) (k : TimerKind) (s : State) : (startTimer d k s).stepDir = s.stepDir := rfl
@[simp] theorem startTimer_seekDest (d : Nat) (k : TimerKind) (s : State) :
    (startTimer d k s).seekDest = s.seekDest := rfl
@[simp] theorem startTimer_t1Kind (d : Nat) (k : TimerKind) (s : State) : (startTimer d k s).t1Kind = s.t1Kind := rfl
@[simp] theorem startTimer_stepPending (d : Nat) (k : TimerKind) (s : State) :
    (startTimer d k s).stepPending = s.stepPending := rfl
@[simp] theorem startTimer_phase (d : Nat) (k : TimerKind) (s : State) : (startTimer d k s).phase = s.phase := rfl
@[simp] theorem startTimer_workerTimer (d : Nat) (k : TimerKind) (s : State) :
    (startTimer d k s).workerTimer = some { due := s.now + d, kind := k } := rfl
@[simp] theorem startTimer_indexTimer (d : Nat) (k : TimerKind) (s : State) :
    (startTimer d k s).indexTimer = s.indexTimer := rfl
@[simp] theorem startTimer_now (d : Nat) (k : TimerKind) (s : State) : (startTimer d k s).now = s.now := rfl
@[simp] theorem startTimer_xfer (d : Nat) (k : TimerKind) (s : State) : (startTimer d k s).xfer = s.xfer := rfl
@[simp] theorem startTimer_wt (d : Nat) (k : TimerKind) (s : State) : (startTimer d k s).wt = s.wt := rfl
@[simp] theorem startTimer_drqCounter (d : Nat) (k : TimerKind) (s : State) :
    (startTimer d k s).drqCounter = s.drqCounter := rfl
@[simp] theorem startTimer_drive (d : Nat) (k : TimerKind) (s : State) : (startTimer d k s).drive = s.drive := rfl
@[simp] theorem startTimer_disk (d : Nat) (k : TimerKind) (s : State) : (startTimer d k s).disk = s.disk := rfl
@[simp] theorem startTimer_mem (d : Nat) (k : TimerKind) (s : State) : (startTimer d k s).mem = s.mem := rfl
@[simp] theorem startTimer_dmaTc (d : Nat) (k : TimerKind) (s : State) : (startTimer d k s).dmaTc = s.dmaTc := rfl
@[simp] theorem startTimer_masterReset (d : Nat) (k : TimerKind) (s : State) :
    (startTimer d k s).masterReset = s.masterReset := rfl
@[simp] theorem startTimer_cfg (d : Nat) (k : TimerKind) (s : State) : (startTimer d k s).cfg = s.cfg := rfl
@[simp] theorem startTimer_reply (d : Nat) (k : TimerKind) (s : State) : (startTimer d k s).reply = s.reply := rfl
@[simp] theorem startTimer_intEvents (d : Nat) (k : TimerKind) (s : State) :
    (startTimer d k s).intEvents = s.intEvents := rfl
@[simp] theorem startTimer_freeCount (d : Nat) (k : TimerKind) (s : State) :
    (startTimer d k s).freeCount = s.freeCount := rfl
@[simp] theorem startTimer_agenda (d : Nat) (k : TimerKind) (s : State) : (startTimer d k s).agenda = s.agenda := rfl

/-! ### raiseInterrupt -/

@[simp] theorem raiseInterrupt_regs (s : State) : (raiseInterrupt s).regs = s.regs := rfl
@[simp] theorem raiseInterrupt_flags (s : State) :
    (raiseInterrupt s).flags = { s.flags with interruptPending := true } := rfl
@[simp] theorem raiseInterrupt_lastOp (s : State) : (raiseInterrupt s).lastOp = s.lastOp := rfl
@[simp] theorem raiseInterrupt_ext (s : State) : (raiseInterrupt s).ext = s.ext := rfl
@[simp] theorem raiseInterrupt_cmd (s : State) : (raiseInterrupt s).cmd = s.cmd := rfl
@[simp] theorem raiseInterrupt_stepDir (s : State) : (raiseInterrupt s).stepDir = s.stepDir := rfl
@[simp] theorem raiseInterrupt_seekDest (s : State) : (raiseInterrupt s).seekDest = s.seekDest := rfl
@[simp] theorem raiseInterrupt_t1Kind (s : State) : (raiseInterrupt s).t1Kind = s.t1Kind := rfl
@[simp] theorem raiseInterrupt_stepPending (s : State) : (raiseInterrupt s).stepPending = s.stepPending := rfl
@[simp] theorem raiseInterrupt_phase (s : State) : (raiseInterrupt s).phase = s.phase := rfl
@[simp] theorem raiseInterrupt_workerTimer (s : State) : (raiseInterrupt s).workerTimer = s.workerTimer := rfl
@[simp] theorem raiseInterrupt_indexTimer (s : State) : (raiseInterrupt s).indexTimer = s.indexTimer := rfl
@[simp] theorem raiseInterrupt_now (s : State) : (raiseInterrupt s).now = s.now := rfl
@[simp] theorem raiseInterrupt_xfer (s : State) : (raiseInterrupt s).xfer = s.xfer := rfl
@[simp] theorem raiseInterrupt_wt (s : State) : (raiseInterrupt s).wt = s.wt := rfl
@[simp] theorem raiseInterrupt_drqCounter (s : State) : (raiseInterrupt s).drqCounter = s.drqCounter := rfl
@[simp] theorem raiseInterrupt_drive (s : State) : (raiseInterrupt s).drive = s.drive := rfl
@[simp] theorem raiseInterrupt_disk (s : State) : (raiseInterrupt s).disk = s.disk := rfl
@[simp] theorem raiseInterrupt_mem (s : State) : (raiseInterrupt s).mem = s.mem := rfl
@[simp] theorem raiseInterrupt_dmaTc (s : State) : (raiseInterrupt s).dmaTc = s.dmaTc := rfl
@[simp] theorem raiseInterrupt_masterReset (s : State) : (raiseInterrupt s).masterReset = s.masterReset := rfl
@[simp] theorem raiseInterrupt_cfg (s : State) : (raiseInterrupt s).cfg = s.cfg := rfl
@[simp] theorem raiseInterrupt_reply (s : State) : (raiseInterrupt s).reply = s.reply := rfl
@[simp] theorem raiseInterrupt_intEvents (s : State) : (raiseInterrupt s).intEvents = s.cfg.intLine :: s.intEvents := rfl
@[simp] theorem raiseInterrupt_freeCount (s : State) : (raiseInterrupt s).freeCount = s.freeCount := rfl
@[simp] theorem raiseInterrupt_agenda (s : State) : (raiseInterrupt s).agenda = s.agenda := rfl

/-! ### answer -/

@[simp] theorem answer_regs (b : Byte) (s : State) : (answer b s).regs = s.regs := rfl
@[simp] theorem answer_flags (b : Byte) (s : State) : (answer b s).flags = s.flags := rfl
@[simp] theorem answer_lastOp (b : Byte) (s : State) : (answer b s).lastOp = s.lastOp := rfl
@[simp] theorem answer_ext (b : Byte) (s : State) : (answer b s).ext = s.ext := rfl
@[simp] theorem answer_cmd (b : Byte) (s : State) : (answer b s).cmd = s.cmd := rfl
@[simp] theorem answer_stepDir (b : Byte) (s : State) : (answer b s).stepDir = s.stepDir := rfl
@[simp] theorem answer_seekDest (b : Byte) (s : State) : (answer b s).seekDest = s.seekDest := rfl
@[simp] theorem answer_t1Kind (b : Byte) (s : State) : (answer b s).t1Kind = s.t1Kind := rfl
@[simp] theorem answer_stepPending (b : Byte) (s : State) : (answer b s).stepPending = s.stepPending := rfl
@[simp] theorem answer_phase (b : Byte) (s : State) : (answer b s).phase = s.phase := rfl
@[simp] theorem answer_workerTimer (b : Byte) (s : State) : (answer b s).workerTimer = s.workerTimer := rfl
@[simp] theorem answer_indexTimer (b : Byte) (s : State) : (answer b s).indexTimer = s.indexTimer := rfl
@[simp] theorem answer_now (b : Byte) (s : State) : (answer b s).now = s.now := rfl
@[simp] theorem answer_xfer (b : Byte) (s : State) : (answer b s).xfer = s.xfer := rfl
@[simp] theorem answer_wt (b : Byte) (s : State) : (answer b s).wt = s.wt := rfl
@[simp] theorem answer_drqCounter (b : Byte) (s : State) : (answer b s).drqCounter = s.drqCounter := rfl
@[simp] theorem answer_drive (b : Byte) (s : State) : (answer b s).drive = s.drive := rfl
@[simp] theorem answer_disk (b : Byte) (s : State) : (answer b s).disk = s.disk := rfl
@[simp] theorem answer_mem (b : Byte) (s : State) : (answer b s).mem = s.mem := rfl
@[simp] theorem answer_dmaTc (b : Byte) (s : State) : (answer b s).dmaTc = s.dmaTc := rfl
@[simp] theorem answer_masterReset (b : Byte) (s : State) : (answer b s).masterReset = s.masterReset := rfl
@[simp] theorem answer_cfg (b : Byte) (s : State) : (answer b s).cfg = s.cfg := rfl
@[simp] theorem answer_reply (b : Byte) (s : State) : (answer b s).reply = .byte b := rfl
@[simp] theorem answer_intEvents (b : Byte) (s : State) : (answer b s).intEvents = s.intEvents := rfl
@[simp] theorem answer_freeCount (b : Byte) (s : State) : (answer b s).freeCount = s.freeCount := rfl
@[simp] theorem answer_agenda (b : Byte) (s : State) : (answer b s).agenda = s.agenda := rfl

/-! ### answerRequest -/

@[simp] theorem answerRequest_regs (b : Bool) (s : State) : (answerRequest b s).regs = s.regs := rfl
@[simp] theorem answerRequest_flags (b : Bool) (s : State) : (answerRequest b s).flags = s.flags := rfl
@[simp] theorem answerRequest_lastOp (b : Bool) (s : State) : (answerRequest b s).lastOp = s.lastOp := rfl
@[simp] theorem answerRequest_ext (b : Bool) (s : State) : (answerRequest b s).ext = s.ext := rfl
@[simp] theorem answerRequest_cmd (b : Bool) (s : State) : (answerRequest b s).cmd = s.cmd := rfl
@[simp] theorem answerRequest_stepDir (b : Bool) (s : State) : (answerRequest b s).stepDir = s.stepDir := rfl
@[simp] theorem answerRequest_seekDest (b : Bool) (s : State) : (answerRequest b s).seekDest = s.seekDest := rfl
@[simp] theorem answerRequest_t1Kind (b : Bool) (s : State) : (answerRequest b s).t1Kind = s.t1Kind := rfl
@[simp] theorem answerRequest_stepPending (b : Bool) (s : State) :
    (answerRequest b s).stepPending = s.stepPending := rfl
@[simp] theorem answerRequest_phase (b : Bool) (s : State) : (answerRequest b s).phase = s.phase := rfl
@[simp] theorem answerRequest_workerTimer (b : Bool) (s : State) :
    (answerRequest b s).workerTimer = s.workerTimer := rfl
@[simp] theorem answerRequest_indexTimer (b : Bool) (s : State) : (answerRequest b s).indexTimer = s.indexTimer := rfl
@[simp] theorem answerRequest_now (b : Bool) (s : State) : (answerRequest b s).now = s.now := rfl
@[simp] theorem answerRequest_xfer (b : Bool) (s : State) : (answerRequest b s).xfer = s.xfer := rfl
@[simp] theorem answerRequest_wt (b : Bool) (s : State) : (answerRequest b s).wt = s.wt := rfl
@[simp] theorem answerRequest_drqCounter (b : Bool) (s : State) : (answerRequest b s).drqCounter = s.drqCounter := rfl
@[simp] theorem answerRequest_drive (b : Bool) (s : State) : (answerRequest b s).drive = s.drive := rfl
@[simp] theorem answerRequest_disk (b : Bool) (s : State) : (answerRequest b s).disk = s.disk := rfl
@[simp] theorem answerRequest_mem (b : Bool) (s : State) : (answerRequest b s).mem = s.mem := rfl
@[simp] theorem answerRequest_dmaTc (b : Bool) (s : State) : (answerRequest b s).dmaTc = s.dmaTc := rfl
@[simp] theorem answerRequest_masterReset (b : Bool) (s : State) :
    (answerRequest b s).masterReset = s.masterReset := rfl
@[simp] theorem answerRequest_cfg (b : Bool) (s : State) : (answerRequest b s).cfg = s.cfg := rfl
@[simp] theorem answerRequest_reply (b : Bool) (s : State) : (answerRequest b s).reply = .request b := rfl
@[simp] theorem answerRequest_intEvents (b : Bool) (s : State) : (answerRequest b s).intEvents = s.intEvents := rfl
@[simp] theorem answerRequest_freeCount (b : Bool) (s : State) : (answerRequest b s).freeCount = s.freeCount := rfl
@[simp] theorem answerRequest_agenda (b : Bool) (s : State) : (answerRequest b s).agenda = s.agenda := rfl

/-! ### answerAny -/

@[simp] theorem answerAny_regs (s : State) : (answerAny s).regs = s.regs := rfl
@[simp] theorem answerAny_flags (s : State) : (answerAny s).flags = s.flags := rfl
@[simp] theorem answerAny_lastOp (s : State) : (answerAny s).lastOp = s.lastOp := rfl
@[simp] theorem answerAny_ext (s : State) : (answerAny s).ext = s.ext := rfl
@[simp] theorem answerAny_cmd (s : State) : (answerAny s).cmd = s.cmd := rfl
@[simp] theorem answerAny_stepDir (s : State) : (answerAny s).stepDir = s.stepDir := rfl
@[simp] theorem answerAny_seekDest (s : State) : (answerAny s).seekDest = s.seekDest := rfl
@[simp] theorem answerAny_t1Kind (s : State) : (answerAny s).t1Kind = s.t1Kind := rfl
@[simp] theorem answerAny_stepPending (s : State) : (answerAny s).stepPending = s.stepPending := rfl
@[simp] theorem answerAny_phase (s : State) : (answerAny s).phase = s.phase := rfl
@[simp] theorem answerAny_workerTimer (s : State) : (answerAny s).workerTimer = s.workerTimer := rfl
@[simp] theorem answerAny_indexTimer (s : State) : (answerAny s).indexTimer = s.indexTimer := rfl
@[simp] theorem answerAny_now (s : State) : (answerAny s).now = s.now := rfl
@[simp] theorem answerAny_xfer (s : State) : (answerAny s).xfer = s.xfer := rfl
@[simp] theorem answerAny_wt (s : State) : (answerAny s).wt = s.wt := rfl
@[simp] theorem answerAny_drqCounter (s : State) : (answerAny s).drqCounter = s.drqCounter := rfl
@[simp] theorem answerAny_drive (s : State) : (answerAny s).drive = s.drive := rfl
@[simp] theorem answerAny_disk (s : State) : (answerAny s).disk = s.disk := rfl
@[simp] theorem answerAny_mem (s : State) : (answerAny s).mem = s.mem := rfl
@[simp] theorem answerAny_dmaTc (s : State) : (answerAny s).dmaTc = s.dmaTc := rfl
@[simp] theorem answerAny_masterReset (s : State) : (answerAny s).masterReset = s.masterReset := rfl
@[simp] theorem answerAny_cfg (s : State) : (answerAny s).cfg = s.cfg := rfl
@[simp] theorem answerAny_reply (s : State) : (answerAny s).reply = .byte (Config.freeByte s.freeCount) := rfl
@[simp] theorem answerAny_intEvents (s : State) : (answerAny s).intEvents = s.intEvents := rfl
@[simp] theorem answerAny_freeCount (s : State) : (answerAny s).freeCount = s.freeCount + 1 := rfl
@[simp] theorem answerAny_agenda (s : State) : (answerAny s).agenda = s.agenda := rfl

/-! ### storeXferByte -/

@[simp] theorem storeXferByte_regs (x : Xfer) (b : Byte) (s : State) : (storeXferByte x b s).regs = s.regs := rfl
@[simp] theorem storeXferByte_flags (x : Xfer) (b : Byte) (s : State) : (storeXferByte x b s).flags = s.flags := rfl
@[simp] theorem storeXferByte_lastOp (x : Xfer) (b : Byte) (s : State) : (storeXferByte x b s).lastOp = s.lastOp := rfl
@[simp] theorem storeXferByte_ext (x : Xfer) (b : Byte) (s : State) : (storeXferByte x b s).ext = s.ext := rfl
@[simp] theorem storeXferByte_cmd (x : Xfer) (b : Byte) (s : State) : (storeXferByte x b s).cmd = s.cmd := rfl
@[simp] theorem storeXferByte_stepDir (x : Xfer) (b : Byte) (s : State) :
    (storeXferByte x b s).stepDir = s.stepDir := rfl
@[simp] theorem storeXferByte_seekDest (x : Xfer) (b : Byte) (s : State) :
    (storeXferByte x b s).seekDest = s.seekDest := rfl
@[simp] theorem storeXferByte_t1Kind (x : Xfer) (b : Byte) (s : State) : (storeXferByte x b s).t1Kind = s.t1Kind := rfl
@[simp] theorem storeXferByte_stepPending (x : Xfer) (b : Byte) (s : State) :
    (storeXferByte x b s).stepPending = s.stepPending := rfl
@[simp] theorem storeXferByte_phase (x : Xfer) (b : Byte) (s : State) : (storeXferByte x b s).phase = s.phase := rfl
@[simp] theorem storeXferByte_workerTimer (x : Xfer) (b : Byte) (s : State) :
    (storeXferByte x b s).workerTimer = s.workerTimer := rfl
@[simp] theorem storeXferByte_indexTimer (x : Xfer) (b : Byte) (s : State) :
    (storeXferByte x b s).indexTimer = s.indexTimer := rfl
@[simp] theorem storeXferByte_now (x : Xfer) (b : Byte) (s : State) : (storeXferByte x b s).now = s.now := rfl
@[simp] theorem storeXferByte_xfer (x : Xfer) (b : Byte) (s : State) : (storeXferByte x b s).xfer = s.xfer := rfl
@[simp] theorem storeXferByte_wt (x : Xfer) (b : Byte) (s : State) : (storeXferByte x b s).wt = s.wt := rfl
@[simp] theorem storeXferByte_drqCounter (x : Xfer) (b : Byte) (s : State) :
    (storeXferByte x b s).drqCounter = s.drqCounter := rfl
@[simp] theorem storeXferByte_drive (x : Xfer) (b : Byte) (s : State) : (storeXferByte x b s).drive = s.drive := rfl
@[simp] theorem storeXferByte_disk (x : Xfer) (b : Byte) (s : State) : (storeXferByte x b s).disk = s.disk := rfl
@[simp] theorem storeXferByte_mem (x : Xfer) (b : Byte) (s : State) :
    (storeXferByte x b s).mem = memWrite s.mem (xferAddr x) b := rfl
@[simp] theorem storeXferByte_dmaTc (x : Xfer) (b : Byte) (s : State) : (storeXferByte x b s).dmaTc = s.dmaTc := rfl
@[simp] theorem storeXferByte_masterReset (x : Xfer) (b : Byte) (s : State) :
    (storeXferByte x b s).masterReset = s.masterReset := rfl
@[simp] theorem storeXferByte_cfg (x : Xfer) (b : Byte) (s : State) : (storeXferByte x b s).cfg = s.cfg := rfl
@[simp] theorem storeXferByte_reply (x : Xfer) (b : Byte) (s : State) : (storeXferByte x b s).reply = s.reply := rfl
@[simp] theorem storeXferByte_intEvents (x : Xfer) (b : Byte) (s : State) :
    (storeXferByte x b s).intEvents = s.intEvents := rfl
@[simp] theorem storeXferByte_freeCount (x : Xfer) (b : Byte) (s : State) :
    (storeXferByte x b s).freeCount = s.freeCount := rfl
@[simp] theorem storeXferByte_agenda (x : Xfer) (b : Byte) (s : State) : (storeXferByte x b s).agenda = s.agenda := rfl

/-! ### advanceXfer -/

@[simp] theorem advanceXfer_regs (x : Xfer) (s : State) : (advanceXfer x s).regs = s.regs := rfl
@[simp] theorem advanceXfer_flags (x : Xfer) (s : State) : (advanceXfer x s).flags = s.flags := rfl
@[simp] theorem advanceXfer_lastOp (x : Xfer) (s : State) : (advanceXfer x s).lastOp = s.lastOp := rfl
@[simp] theorem advanceXfer_ext (x : Xfer) (s : State) : (advanceXfer x s).ext = s.ext := rfl
@[simp] theorem advanceXfer_cmd (x : Xfer) (s : State) : (advanceXfer x s).cmd = s.cmd := rfl
@[simp] theorem advanceXfer_stepDir (x : Xfer) (s : State) : (advanceXfer x s).stepDir = s.stepDir := rfl
@[simp] theorem advanceXfer_seekDest (x : Xfer) (s : State) : (advanceXfer x s).seekDest = s.seekDest := rfl
@[simp] theorem advanceXfer_t1Kind (x : Xfer) (s : State) : (advanceXfer x s).t1Kind = s.t1Kind := rfl
@[simp] theorem advanceXfer_stepPending (x : Xfer) (s : State) : (advanceXfer x s).stepPending = s.stepPending := rfl
@[simp] theorem advanceXfer_phase (x : Xfer) (s : State) : (advanceXfer x s).phase = s.phase := rfl
@[simp] theorem advanceXfer_workerTimer (x : Xfer) (s : State) : (advanceXfer x s).workerTimer = s.workerTimer := rfl
@[simp] theorem advanceXfer_indexTimer (x : Xfer) (s : State) : (advanceXfer x s).indexTimer = s.indexTimer := rfl
@[simp] theorem advanceXfer_now (x : Xfer) (s : State) : (advanceXfer x s).now = s.now := rfl
@[simp] theorem advanceXfer_xfer (x : Xfer) (s : State) :
    (advanceXfer x s).xfer = some { x with idx := x.idx + 1 } := rfl
@[simp] theorem advanceXfer_wt (x : Xfer) (s : State) : (advanceXfer x s).wt = s.wt := rfl
@[simp] theorem advanceXfer_drqCounter (x : Xfer) (s : State) : (advanceXfer x s).drqCounter = s.drqCounter := rfl
@[simp] theorem advanceXfer_drive (x : Xfer) (s : State) : (advanceXfer x s).drive = s.drive := rfl
@[simp] theorem advanceXfer_disk (x : Xfer) (s : State) : (advanceXfer x s).disk = s.disk := rfl
@[simp] theorem advanceXfer_mem (x : Xfer) (s : State) : (advanceXfer x s).mem = s.mem := rfl
@[simp] theorem advanceXfer_dmaTc (x : Xfer) (s : State) : (advanceXfer x s).dmaTc = s.dmaTc := rfl
@[simp] theorem advanceXfer_masterReset (x : Xfer) (s : State) : (advanceXfer x s).masterReset = s.masterReset := rfl
@[simp] theorem advanceXfer_cfg (x : Xfer) (s : State) : (advanceXfer x s).cfg = s.cfg := rfl
@[simp] theorem advanceXfer_reply (x : Xfer) (s : State) : (advanceXfer x s).reply = s.reply := rfl
@[simp] theorem advanceXfer_intEvents (x : Xfer) (s : State) : (advanceXfer x s).intEvents = s.intEvents := rfl
@[simp] theorem advanceXfer_freeCount (x : Xfer) (s : State) : (advanceXfer x s).freeCount = s.freeCount := rfl
@[simp] theorem advanceXfer_agenda (x : Xfer) (s : State) : (advanceXfer x s).agenda = s.agenda := rfl

/-! ### seekTo -/

@[simp] theorem seekTo_regs (c : Int) (s : State) : (seekTo c s).regs = s.regs := rfl
@[simp] theorem seekTo_flags (c : Int) (s : State) : (seekTo c s).flags = s.flags := rfl
@[simp] theorem seekTo_lastOp (c : Int) (s : State) : (seekTo c s).lastOp = s.lastOp := rfl
@[simp] theorem seekTo_ext (c : Int) (s : State) : (seekTo c s).ext = s.ext := rfl
@[simp] theorem seekTo_cmd (c : Int) (s : State) : (seekTo c s).cmd = s.cmd := rfl
@[simp] theorem seekTo_stepDir (c : Int) (s : State) : (seekTo c s).stepDir = s.stepDir := rfl
@[simp] theorem seekTo_seekDest (c : Int) (s : State) : (seekTo c s).seekDest = s.seekDest := rfl
@[simp] theorem seekTo_t1Kind (c : Int) (s : State) : (seekTo c s).t1Kind = s.t1Kind := rfl
@[simp] theorem seekTo_stepPending (c : Int) (s : State) : (seekTo c s).stepPending = s.stepPending := rfl
@[simp] theorem seekTo_phase (c : Int) (s : State) : (seekTo c s).phase = s.phase := rfl
@[simp] theorem seekTo_workerTimer (c : Int) (s : State) : (seekTo c s).workerTimer = s.workerTimer := rfl
@[simp] theorem seekTo_indexTimer (c : Int) (s : State) : (seekTo c s).indexTimer = s.indexTimer := rfl
@[simp] theorem seekTo_now (c : Int) (s : State) : (seekTo c s).now = s.now := rfl
@[simp] theorem seekTo_xfer (c : Int) (s : State) : (seekTo c s).xfer = s.xfer := rfl
@[simp] theorem seekTo_wt (c : Int) (s : State) : (seekTo c s).wt = s.wt := rfl
@[simp] theorem seekTo_drqCounter (c : Int) (s : State) : (seekTo c s).drqCounter = s.drqCounter := rfl
@[simp] theorem seekTo_drive (c : Int) (s : State) :
    (seekTo c s).drive = { s.drive with
      track := (seekTarget s.cfg s.drive c).track, track0 := (seekTarget s.cfg s.drive c).track0 } := rfl
@[simp] theorem seekTo_disk (c : Int) (s : State) : (seekTo c s).disk = s.disk := rfl
@[simp] theorem seekTo_mem (c : Int) (s : State) : (seekTo c s).mem = s.mem := rfl
@[simp] theorem seekTo_dmaTc (c : Int) (s : State) : (seekTo c s).dmaTc = s.dmaTc := rfl
@[simp] theorem seekTo_masterReset (c : Int) (s : State) : (seekTo c s).masterReset = s.masterReset := rfl
@[simp] theorem seekTo_cfg (c : Int) (s : State) : (seekTo c s).cfg = s.cfg := rfl
@[simp] theorem seekTo_reply (c : Int) (s : State) : (seekTo c s).reply = s.reply := rfl
@[simp] theorem seekTo_intEvents (c : Int) (s : State) : (seekTo c s).intEvents = s.intEvents := rfl
@[simp] theorem seekTo_freeCount (c : Int) (s : State) : (seekTo c s).freeCount = s.freeCount := rfl
@[simp] theorem seekTo_agenda (c : Int) (s : State) : (seekTo c s).agenda = s.agenda := rfl

/-! ### advanceTo -/

@[simp] theorem advanceTo_regs (t : Nat) (s : State) : (advanceTo t s).regs = s.regs := rfl
@[simp] theorem advanceTo_flags (t : Nat) (s : State) : (advanceTo t s).flags = s.flags := rfl
@[simp] theorem advanceTo_lastOp (t : Nat) (s : State) : (advanceTo t s).lastOp = s.lastOp := rfl
@[simp] theorem advanceTo_ext (t : Nat) (s : State) : (advanceTo t s).ext = s.ext := rfl
@[simp] theorem advanceTo_cmd (t : Nat) (s : State) : (advanceTo t s).cmd = s.cmd := rfl
@[simp] theorem advanceTo_stepDir (t : Nat) (s : State) : (advanceTo t s).stepDir = s.stepDir := rfl
@[simp] theorem advanceTo_seekDest (t : Nat) (s : State) : (advanceTo t s).seekDest = s.seekDest := rfl
@[simp] theorem advanceTo_t1Kind (t : Nat) (s : State) : (advanceTo t s).t1Kind = s.t1Kind := rfl
@[simp] theorem advanceTo_stepPending (t : Nat) (s : State) : (advanceTo t s).stepPending = s.stepPending := rfl
@[simp] theorem advanceTo_phase (t : Nat) (s : State) : (advanceTo t s).phase = s.phase := rfl
@[simp] theorem advanceTo_workerTimer (t : Nat) (s : State) : (advanceTo t s).workerTimer = s.workerTimer := rfl
@[simp] theorem advanceTo_indexTimer (t : Nat) (s : State) : (advanceTo t s).indexTimer = s.indexTimer := rfl
@[simp] theorem advanceTo_now (t : Nat) (s : State) : (advanceTo t s).now = max s.now t := rfl
@[simp] theorem advanceTo_xfer (t : Nat) (s : State) : (advanceTo t s).xfer = s.xfer := rfl
@[simp] theorem advanceTo_wt (t : Nat) (s : State) : (advanceTo t s).wt = s.wt := rfl
@[simp] theorem advanceTo_drqCounter (t : Nat) (s : State) : (advanceTo t s).drqCounter = s.drqCounter := rfl
@[simp] theorem advanceTo_drive (t : Nat) (s : State) : (advanceTo t s).drive = s.drive := rfl
@[simp] theorem advanceTo_disk (t : Nat) (s : State) : (advanceTo t s).disk = s.disk := rfl
@[simp] theorem advanceTo_mem (t : Nat) (s : State) : (advanceTo t s).mem = s.mem := rfl
@[simp] theorem advanceTo_dmaTc (t : Nat) (s : State) : (advanceTo t s).dmaTc = s.dmaTc := rfl
@[simp] theorem advanceTo_masterReset (t : Nat) (s : State) : (advanceTo t s).masterReset = s.masterReset := rfl
@[simp] theorem advanceTo_cfg (t : Nat) (s : State) : (advanceTo t s).cfg = s.cfg := rfl
@[simp] theorem advanceTo_reply (t : Nat) (s : State) : (advanceTo t s).reply = s.reply := rfl
@[simp] theorem advanceTo_intEvents (t : Nat) (s : State) : (advanceTo t s).intEvents = s.intEvents := rfl
@[simp] theorem advanceTo_freeCount (t : Nat) (s : State) : (advanceTo t s).freeCount = s.freeCount := rfl
@[simp] theorem advanceTo_agenda (t : Nat) (s : State) : (advanceTo t s).agenda = s.agenda := rfl

/-! ### fireIndex -/

@[simp] theorem fireIndex_regs (s : State) : (fireIndex s).regs = s.regs := rfl
@[simp] theorem fireIndex_flags (s : State) : (fireIndex s).flags = { s.flags with indexReset := false } := rfl
@[simp] theorem fireIndex_lastOp (s : State) : (fireIndex s).lastOp = s.lastOp := rfl
@[simp] theorem fireIndex_ext (s : State) : (fireIndex s).ext = s.ext := rfl
@[simp] theorem fireIndex_cmd (s : State) : (fireIndex s).cmd = s.cmd := rfl
@[simp] theorem fireIndex_stepDir (s : State) : (fireIndex s).stepDir = s.stepDir := rfl
@[simp] theorem fireIndex_seekDest (s : State) : (fireIndex s).seekDest = s.seekDest := rfl
@[simp] theorem fireIndex_t1Kind (s : State) : (fireIndex s).t1Kind = s.t1Kind := rfl
@[simp] theorem fireIndex_stepPending (s : State) : (fireIndex s).stepPending = s.stepPending := rfl
@[simp] theorem fireIndex_phase (s : State) : (fireIndex s).phase = s.phase := rfl
@[simp] theorem fireIndex_workerTimer (s : State) : (fireIndex s).workerTimer = s.workerTimer := rfl
@[simp] theorem fireIndex_indexTimer (s : State) : (fireIndex s).indexTimer = s.indexTimer := rfl
@[simp] theorem fireIndex_now (s : State) : (fireIndex s).now = s.now := rfl
@[simp] theorem fireIndex_xfer (s : State) : (fireIndex s).xfer = s.xfer := rfl
@[simp] theorem fireIndex_wt (s : State) : (fireIndex s).wt = s.wt := rfl
@[simp] theorem fireIndex_drqCounter (s : State) : (fireIndex s).drqCounter = s.drqCounter := rfl
@[simp] theorem fireIndex_drive (s : State) : (fireIndex s).drive = s.drive := rfl
@[simp] theorem fireIndex_disk (s : State) : (fireIndex s).disk = s.disk := rfl
@[simp] theorem fireIndex_mem (s : State) : (fireIndex s).mem = s.mem := rfl
@[simp] theorem fireIndex_dmaTc (s : State) : (fireIndex s).dmaTc = s.dmaTc := rfl
@[simp] theorem fireIndex_masterReset (s : State) : (fireIndex s).masterReset = s.masterReset := rfl
@[simp] theorem fireIndex_cfg (s : State) : (fireIndex s).cfg = s.cfg := rfl
@[simp] theorem fireIndex_reply (s : State) : (fireIndex s).reply = s.reply := rfl
@[simp] theorem fireIndex_intEvents (s : State) : (fireIndex s).intEvents = s.intEvents := rfl
@[simp] theorem fireIndex_freeCount (s : State) : (fireIndex s).freeCount = s.freeCount := rfl
@[simp] theorem fireIndex_agenda (s : State) : (fireIndex s).agenda = s.agenda := rfl

/-! ### failSector -/

@[simp] theorem failSector_regs (s : State) : (failSector s).regs = s.regs := rfl
@[simp] theorem failSector_flags (s : State) :
    (failSector s).flags = { s.flags with busy := false, drq := false } := rfl
@[simp] theorem failSector_lastOp (s : State) : (failSector s).lastOp = s.lastOp := rfl
@[simp] theorem failSector_ext (s : State) : (failSector s).ext = s.ext := rfl
@[simp] theorem failSector_cmd (s : State) : (failSector s).cmd = s.cmd := rfl
@[simp] theorem failSector_stepDir (s : State) : (failSector s).stepDir = s.stepDir := rfl
@[simp] theorem failSector_seekDest (s : State) : (failSector s).seekDest = s.seekDest := rfl
@[simp] theorem failSector_t1Kind (s : State) : (failSector s).t1Kind = s.t1Kind := rfl
@[simp] theorem failSector_stepPending (s : State) : (failSector s).stepPending = s.stepPending := rfl
@[simp] theorem failSector_phase (s : State) : (failSector s).phase = .idle := rfl
@[simp] theorem failSector_workerTimer (s : State) : (failSector s).workerTimer = s.workerTimer := rfl
@[simp] theorem failSector_indexTimer (s : State) : (failSector s).indexTimer = s.indexTimer := rfl
@[simp] theorem failSector_now (s : State) : (failSector s).now = s.now := rfl
@[simp] theorem failSector_xfer (s : State) : (failSector s).xfer = s.xfer := rfl
@[simp] theorem failSector_wt (s : State) : (failSector s).wt = s.wt := rfl
@[simp] theorem failSector_drqCounter (s : State) : (failSector s).drqCounter = s.drqCounter := rfl
@[simp] theorem failSector_drive (s : State) : (failSector s).drive = s.drive := rfl
@[simp] theorem failSector_disk (s : State) : (failSector s).disk = s.disk := rfl
@[simp] theorem failSector_mem (s : State) : (failSector s).mem = s.mem := rfl
@[simp] theorem failSector_dmaTc (s : State) : (failSector s).dmaTc = s.dmaTc := rfl
@[simp] theorem failSector_masterReset (s : State) : (failSector s).masterReset = s.masterReset := rfl
@[simp] theorem failSector_cfg (s : State) : (failSector s).cfg = s.cfg := rfl
@[simp] theorem failSector_reply (s : State) : (failSector s).reply = s.reply := rfl
@[simp] theorem failSector_intEvents (s : State) : (failSector s).intEvents = s.intEvents := rfl
@[simp] theorem failSector_freeCount (s : State) : (failSector s).freeCount = s.freeCount := rfl
@[simp] theorem failSector_agenda (s : State) : (failSector s).agenda = s.agenda := rfl

end Sys2Proof.Machine
end

