-- ==== Sys2Proof/Laws/Ops.lean ====
section
/-! SUPPORT. One lemma per shared operation: everything it can have done when it answers a next state. -/

namespace Sys2Proof.Machine

theorem next_inj {s t : State} : (Host.Outcome.next s : Result) = .next t ↔ s = t := by
  constructor
  · intro h; injection h
  · rintro rfl; rfl

theorem andThen_eq_next {o : Result} {f : State → Result} {t : State} :
    andThen o f = .next t ↔ ∃ u, o = .next u ∧ f u = .next t := by
  cases o <;> simp [andThen]

/-! ### Which operation an agent's step is (R50, R62) -/

theorem agentStep_write_command (c : Byte) (s : State) :
    agentStep (.portWrite s.cfg.ports.cmdStatus c) s = commandWrite c s := by
  simp [agentStep, portWrite]

theorem agentStep_read_status (s : State) :
    agentStep (.portRead s.cfg.ports.cmdStatus) s = .next (statusRead84 s) := by
  simp [agentStep, portRead]

/-- Different ports, one inequality each, a later port on the left. -/
theorem ports_ne {p : Config.Ports} (h : p.Distinct) :
    (p.track ≠ p.cmdStatus) ∧ (p.sector ≠ p.cmdStatus ∧ p.sector ≠ p.track) ∧
      (p.data ≠ p.cmdStatus ∧ p.data ≠ p.track ∧ p.data ≠ p.sector) ∧
      (p.ext ≠ p.cmdStatus ∧ p.ext ≠ p.track ∧ p.ext ≠ p.sector ∧ p.ext ≠ p.data) := by
  simp only [Config.Ports.Distinct, List.nodup_cons, List.mem_cons, not_or, List.not_mem_nil] at h
  obtain ⟨⟨h1, h2, h3, h4, _⟩, ⟨h5, h6, h7, _⟩, ⟨h8, h9, _⟩, ⟨h10, _⟩, _⟩ := h
  exact ⟨Ne.symm h1, ⟨Ne.symm h2, Ne.symm h5⟩, ⟨Ne.symm h3, Ne.symm h6, Ne.symm h8⟩,
    ⟨Ne.symm h4, Ne.symm h7, Ne.symm h9, Ne.symm h10⟩⟩

theorem agentStep_write_track {s : State} (h : s.cfg.ports.Distinct) (b : Byte) :
    agentStep (.portWrite s.cfg.ports.track b) s = .next { s with regs := { s.regs with track := b } } := by
  simp [agentStep, portWrite, ports_ne h]

theorem agentStep_read_track {s : State} (h : s.cfg.ports.Distinct) :
    agentStep (.portRead s.cfg.ports.track) s = .next (answer s.regs.track s) := by
  simp [agentStep, portRead, ports_ne h]

theorem agentStep_write_sector {s : State} (h : s.cfg.ports.Distinct) (b : Byte) :
    agentStep (.portWrite s.cfg.ports.sector b) s = .next { s with regs := { s.regs with sector := b } } := by
  simp [agentStep, portWrite, ports_ne h]

theorem agentStep_read_sector {s : State} (h : s.cfg.ports.Distinct) :
    agentStep (.portRead s.cfg.ports.sector) s = .next (answer s.regs.sector s) := by
  simp [agentStep, portRead, ports_ne h]

theorem agentStep_write_data {s : State} (h : s.cfg.ports.Distinct) (b : Byte) :
    agentStep (.portWrite s.cfg.ports.data b) s = dataWrite b s := by
  simp [agentStep, portWrite, ports_ne h]

theorem agentStep_read_data {s : State} (h : s.cfg.ports.Distinct) :
    agentStep (.portRead s.cfg.ports.data) s = dataRead s := by
  simp [agentStep, portRead, ports_ne h]

theorem agentStep_write_ext {s : State} (h : s.cfg.ports.Distinct) (b : Byte) :
    agentStep (.portWrite s.cfg.ports.ext b) s = extWrite b s := by
  simp [agentStep, portWrite, ports_ne h]

theorem agentStep_read_ext {s : State} (h : s.cfg.ports.Distinct) :
    agentStep (.portRead s.cfg.ports.ext) s = .next (extRead s) := by
  simp [agentStep, portRead, ports_ne h]

/-- Under the default `OPCODE_MAP` a byte stands for itself (R82). -/
theorem standardByte_standardMap (c : Byte) : standardByte Config.standardMap c = c := by revert c; decide

/-- A byte the busy test lets through runs its command (R114). -/
theorem commandWrite_runs {s : State} {c : Byte} (h : s.flags.busy = false ∨ commandOp s c = 0xD) :
    commandWrite c s = exec (decodeUnder s.cfg.opcodeMap c) s := by
  unfold commandWrite dispatch
  rw [if_neg]
  · rfl
  · rintro ⟨hb, hc⟩
    rcases h with h | h
    · rw [h] at hb; cases hb
    · exact hc h

/-! ### Type I -/

/-- A Type I tick does one of three things (R146): a seek step, the pending step, or the completion. -/
theorem t1Tick_cases (s : State) :
    (s.t1Kind = .seekLike ∧ s.regs.track ≠ s.seekDest ∧
        t1Tick s = startTimer s.cfg.tStep .t1Tick (oneStep (seekDirection s) true s)) ∨
    (s.t1Kind = .stepLike ∧ s.stepPending = true ∧
        t1Tick s = startTimer s.cfg.tStep .t1Tick { oneStep s.stepDir s.cmd.u s with stepPending := false }) ∨
    t1Tick s = t1Complete s := by
  unfold t1Tick
  split
  · rename_i h; exact .inl ⟨h.1, h.2, rfl⟩
  · split
    · rename_i h; exact .inr (.inl ⟨h.1, h.2, rfl⟩)
    · exact .inr (.inr rfl)

theorem t1Tick_seek {s : State} (h : s.t1Kind = .seekLike) (hne : s.regs.track ≠ s.seekDest) :
    t1Tick s = startTimer s.cfg.tStep .t1Tick (oneStep (seekDirection s) true s) := if_pos ⟨h, hne⟩

theorem t1Tick_pending {s : State} (h : s.t1Kind = .stepLike) (hp : s.stepPending = true) :
    t1Tick s = startTimer s.cfg.tStep .t1Tick { oneStep s.stepDir s.cmd.u s with stepPending := false } := by
  rw [t1Tick, if_neg (by rw [h]; simp), if_pos ⟨h, hp⟩]

/-- With no step due the tick completes the command (R146, R148). -/
theorem t1Tick_done {s : State} (h1 : s.t1Kind = .seekLike → s.regs.track = s.seekDest)
    (h2 : s.t1Kind = .stepLike → s.stepPending = false) : t1Tick s = t1Complete s := by
  rw [t1Tick, if_neg (fun h => h.2 (h1 h.1)), if_neg (fun h => by rw [h2 h.1] at h; cases h.2)]

/-- A cylinder number the drive has is where its positioning call goes (R300). -/
theorem seekTarget_in_range (p : Config.Params) (d : Drive) (c : Int) (h0 : 0 ≤ c) (h1 : c ≤ (p.maxCyl : Int)) :
    seekTarget p d c = { track := c, track0 := decide (c = 0) } := by
  rw [seekTarget, if_pos ⟨h0, h1⟩]

/-! ### Type II -/

/-- A transfer begins exactly if the sector is there and its data array is not empty (R175, U9). -/
theorem beginTransfer_eq_next {trk : Track} {s t : State} :
    beginTransfer trk s = .next t ↔
      ∃ len, trk.sectorLens[s.regs.sector.toNat - 1]? = some len ∧ 0 < len ∧ openTransfer trk len s = t := by
  unfold beginTransfer
  rw [List.getD_eq_getElem?_getD]
  rcases trk.sectorLens[s.regs.sector.toNat - 1]? with _ | len
  · simp
  · by_cases h : len = 0
    · simp [h]
    · simp [h, Nat.pos_iff_ne_zero]

/-- A sector entry that answers has failed by NotReady, failed by a check, or begun the transfer (R172 to R175). -/
theorem sectorEntry_cases {s t : State} (h : sectorEntry s = .next t) :
    (notReady s = true ∧ t = failSector s) ∨
    ∃ trk, notReady s = false ∧ getTrack s.disk s.drive.track (headSelect s) = some trk ∧
      ((sectorRefused trk s = true ∧ t = failSector (assignErrorFlags trk s)) ∨
        ∃ len, sectorRefused trk s = false ∧ s.regs.sector ≠ 0 ∧
          trk.sectorLens[s.regs.sector.toNat - 1]? = some len ∧ 0 < len ∧
          t = openTransfer trk len (assignErrorFlags trk s)) := by
  unfold sectorEntry at h
  split at h
  · rename_i hn; exact .inl ⟨hn, (next_inj.mp h).symm⟩
  · rename_i hn
    split at h
    · cases h
    · rename_i trk ht
      refine .inr ⟨trk, by simpa using hn, ht, ?_⟩
      unfold sectorChecks at h
      split at h
      · rename_i hc; exact .inl ⟨hc, (next_inj.mp h).symm⟩
      · rename_i hc
        split at h
        · cases h
        · rename_i hz
          exact .inr (by
            obtain ⟨len, hl, hp, ht⟩ := beginTransfer_eq_next.mp h
            exact ⟨len, by simpa using hc, hz, by simpa [assignErrorFlags] using hl, hp, ht.symm⟩)

theorem withXfer_eq_next {f : Xfer → State → Result} {s t : State} :
    withXfer f s = .next t ↔ ∃ x, s.xfer = some x ∧ f x s = .next t := by
  unfold withXfer
  cases s.xfer <;> simp

theorem dmaReady_iff (s : State) : dmaReady s = true ↔ s.flags.drq = true ∧ s.phase = .t2Xfer := by
  simp [dmaReady]

/-- A DMA read that answers has overrun or moved the next byte (R181, R184). -/
theorem dmaRead_cases {s t : State} (h : dmaRead s = .next t) :
    s.flags.drq = true ∧ s.phase = .t2Xfer ∧ ∃ x, s.xfer = some x ∧
      ((x.len ≤ x.idx ∧ t = answerAny s) ∨
        (x.idx < x.len ∧ t = answer (xferByte s x) { advanceXfer x s with drqCounter := s.cfg.drqReload })) := by
  unfold dmaRead at h
  split at h
  · rename_i hr
    obtain ⟨x, hx, h⟩ := withXfer_eq_next.mp h
    refine ⟨((dmaReady_iff s).mp hr).1, ((dmaReady_iff s).mp hr).2, x, hx, ?_⟩
    unfold dmaReadByte at h
    split at h
    · rename_i hl; exact .inl ⟨hl, (next_inj.mp h).symm⟩
    · rename_i hl; exact .inr ⟨by omega, (next_inj.mp h).symm⟩
  · cases h

/-- A DMA write that answers has overrun or stored the next byte, under WRITE SECTOR (R182, R184). -/
theorem dmaWrite_cases {b : Byte} {s t : State} (h : dmaWrite b s = .next t) :
    s.flags.drq = true ∧ s.phase = .t2Xfer ∧ s.lastOp = 0xA ∧ ∃ x, s.xfer = some x ∧
      ((x.len ≤ x.idx ∧ t = s) ∨ (x.idx < x.len ∧ t = advanceXfer x (storeXferByte x b s))) := by
  unfold dmaWrite at h
  split at h
  · rename_i hr
    split at h
    · rename_i ho
      obtain ⟨x, hx, h⟩ := withXfer_eq_next.mp h
      refine ⟨((dmaReady_iff s).mp hr).1, ((dmaReady_iff s).mp hr).2, ho, x, hx, ?_⟩
      unfold dmaWriteByte at h
      split at h
      · rename_i hl; exact .inl ⟨hl, (next_inj.mp h).symm⟩
      · rename_i hl; exact .inr ⟨by omega, (next_inj.mp h).symm⟩
    · cases h
  · cases h

/-- A DMA complete that answers has finished the transfer (R183). -/
theorem dmaComplete_cases {s t : State} (h : dmaComplete s = .next t) :
    s.flags.drq = true ∧ s.phase = .t2Xfer ∧ t = finishDataTransfer s := by
  unfold dmaComplete at h
  split at h
  · rename_i hr
    exact ⟨((dmaReady_iff s).mp hr).1, ((dmaReady_iff s).mp hr).2, (next_inj.mp h).symm⟩
  · cases h

/-- A PIO read that answers has overrun or moved the next byte, the last one finishing the command (R187, R184). -/
theorem sectorPioRead_cases {s t : State} (h : sectorPioRead s = .next t) :
    ∃ x, s.xfer = some x ∧
      ((x.len ≤ x.idx ∧ t = answerAny s) ∨
        (x.idx + 1 = x.len ∧ t = answer (xferByte s x) (finishDataTransfer (advanceXfer x s))) ∨
        (x.idx + 1 < x.len ∧ t = answer (xferByte s x) (advanceXfer x s))) := by
  obtain ⟨x, hx, h⟩ := withXfer_eq_next.mp h
  refine ⟨x, hx, ?_⟩
  unfold pioReadByte at h
  split at h
  · rename_i hl; exact .inl ⟨hl, (next_inj.mp h).symm⟩
  · unfold finishIfLast at h
    split at h
    · rename_i hl; exact .inr (.inl ⟨hl, (next_inj.mp h).symm⟩)
    · exact .inr (.inr ⟨by omega, (next_inj.mp h).symm⟩)

/-- A PIO write that answers has overrun or stored the next byte, the last one finishing the command (R188, R184). -/
theorem sectorPioWrite_cases {b : Byte} {s t : State} (h : sectorPioWrite b s = .next t) :
    ∃ x, s.xfer = some x ∧
      ((x.len ≤ x.idx ∧ t = s) ∨
        (x.idx + 1 = x.len ∧ t = finishDataTransfer (advanceXfer x (storeXferByte x b s))) ∨
        (x.idx + 1 < x.len ∧ t = advanceXfer x (storeXferByte x b s))) := by
  obtain ⟨x, hx, h⟩ := withXfer_eq_next.mp h
  refine ⟨x, hx, ?_⟩
  unfold pioWriteByte at h
  split at h
  · rename_i hl; exact .inl ⟨hl, (next_inj.mp h).symm⟩
  · unfold finishIfLast at h
    split at h
    · rename_i hl; exact .inr (.inl ⟨hl, (next_inj.mp h).symm⟩)
    · exact .inr (.inr ⟨by omega, (next_inj.mp h).symm⟩)

/-! ### Type III -/

/-- A write-track entry that answers has opened an empty buffer on a ready, unprotected drive (R213). -/
theorem wtEntry_cases {s t : State} (h : wtEntry s = .next t) :
    notReady s = false ∧ s.drive.isWriteProtected = false ∧
      t = { s with
        wt := some { bytes := [], side := headSelect s }, flags := { s.flags with drq := true }, phase := .t3Collect } := by
  unfold wtEntry at h
  split at h
  · cases h
  · split at h
    · cases h
    · rename_i h1 h2
      exact ⟨by simpa using h1, by simpa using h2, (next_inj.mp h).symm⟩

/-- A stream byte that answers has been appended to the buffer (R214). -/
theorem writeTrackByte_cases {b : Byte} {s t : State} (h : writeTrackByte b s = .next t) :
    ∃ w, s.wt = some w ∧ w.bytes.length < s.cfg.wtBufSize ∧
      t = { s with wt := some { w with bytes := w.bytes ++ [b] } } := by
  unfold writeTrackByte at h
  split at h
  · cases h
  · rename_i w hw
    split at h
    · cases h
    · exact ⟨w, hw, by omega, (next_inj.mp h).symm⟩

/-- An end of WRITE TRACK that answers has parsed the stream and formatted the track of a loaded medium (R223). -/
theorem finishWriteTrack_cases {s t : State} (h : finishWriteTrack s = .next t) :
    ∃ w n size, s.wt = some w ∧ parseTrack (parseEnvOf s w) w.bytes = .ok (n, size) ∧ s.drive.isLoaded = true ∧
      t = writeTrackComplete (formatTrack (latchFormat s.ext.dden) s.regs.track.toNat w.side n size s) := by
  unfold finishWriteTrack at h
  split at h
  · cases h
  · rename_i w hw
    split at h
    · cases h
    · rename_i n size hp
      split at h
      · rename_i hl; exact ⟨w, n, size, hw, hp, hl, (next_inj.mp h).symm⟩
      · cases h

/-- An index edge that answers has formatted the track, or changed nothing but the sensor (R222). -/
theorem indexEdge_cases {s t : State} (h : indexEdge s = .next t) :
    (s.phase = .t3Collect ∧ finishWriteTrack { s with drive := { s.drive with index := true } } = .next t) ∨
    (s.phase ≠ .t3Collect ∧ t = { s with drive := { s.drive with index := true } }) := by
  unfold indexEdge at h
  split at h
  · rename_i hp; exact .inl ⟨hp, h⟩
  · rename_i hp; exact .inr ⟨hp, (next_inj.mp h).symm⟩

/-! ### Ports -/

/-- A command byte that answers was discarded or ran its command (R114, R115). -/
theorem dispatch_cases {c : Byte} {s t : State} (h : dispatch c s = .next t) :
    (s.flags.busy = true ∧ opcodeNibble c ≠ 0xD ∧ t = s) ∨
    ((s.flags.busy = false ∨ opcodeNibble c = 0xD) ∧ exec (decodeByte c) s = .next t) := by
  unfold dispatch at h
  split at h
  · rename_i hb; exact .inl ⟨hb.1, hb.2, (next_inj.mp h).symm⟩
  · rename_i hb
    refine .inr ⟨?_, h⟩
    by_cases hbusy : s.flags.busy = true
    · exact .inr (by by_contra hc; exact hb ⟨hbusy, hc⟩)
    · exact .inl (by simpa using hbusy)

/-- A command write that answers was discarded or ran its command (R114, R115). -/
theorem commandWrite_cases {c : Byte} {s t : State} (h : commandWrite c s = .next t) :
    (s.flags.busy = true ∧ commandOp s c ≠ 0xD ∧ t = s) ∨
    ((s.flags.busy = false ∨ commandOp s c = 0xD) ∧ exec (decodeUnder s.cfg.opcodeMap c) s = .next t) :=
  dispatch_cases h

/-- A data-port write that answers loaded the register and, under DRQ, moved a byte where the command takes one (R112). -/
theorem dataWrite_cases {b : Byte} {s t : State} (h : dataWrite b s = .next t) :
    (s.flags.drq = true ∧ s.phase = .t3Collect ∧
      writeTrackByte b { s with regs := { s.regs with data := b } } = .next t) ∨
    (s.flags.drq = true ∧ s.phase = .t2Xfer ∧ s.lastOp = 0xA ∧
      sectorPioWrite b { s with regs := { s.regs with data := b } } = .next t) ∨
    t = { s with regs := { s.regs with data := b } } := by
  unfold dataWrite at h
  split at h
  · rename_i hd
    split at h
    · rename_i hp; exact .inl ⟨hd, hp, h⟩
    · split at h
      · rename_i hp; exact .inr (.inl ⟨hd, hp.1, hp.2, h⟩)
      · exact .inr (.inr (next_inj.mp h).symm)
  · exact .inr (.inr (next_inj.mp h).symm)

/-- A data-port read that answers was a transfer step or gave the register (R113). -/
theorem dataRead_cases {s t : State} (h : dataRead s = .next t) :
    (s.flags.drq = true ∧ s.phase = .t2Xfer ∧ sectorPioRead s = .next t) ∨
    (s.flags.drq = false ∧ t = answer s.regs.data s) := by
  unfold dataRead at h
  split at h
  · rename_i hd
    split at h
    · rename_i hp; exact .inl ⟨hd, hp, h⟩
    · cases h
  · rename_i hd; exact .inr ⟨by simpa using hd, (next_inj.mp h).symm⟩

/-- A latch write that answers wrote the fields and then enabled, disabled, or left the chip as it was (R260 to R269). -/
theorem extWrite_cases {b : Byte} {s t : State} (h : extWrite b s = .next t) :
    ∃ e, e = latchFields s.cfg.extStateBits b ∧
      ((e.chipEn = s.flags.fdcEnabled ∧ t = latchWrite e s) ∨
        (e.chipEn = false ∧ s.flags.fdcEnabled = true ∧ t = resetBlock (latchWrite e s)) ∨
        (e.chipEn = true ∧ s.flags.fdcEnabled = false ∧
          ∃ u, dispatch syntheticRestore
              { latchWrite e s with flags := { s.flags with fdcEnabled := true } } = .next u ∧
            t = startIndexOverride u)) := by
  refine ⟨latchFields s.cfg.extStateBits b, rfl, ?_⟩
  unfold extWrite at h
  generalize latchFields s.cfg.extStateBits b = e at h ⊢
  simp only at h
  split at h
  · rename_i he
    change e.chipEn = true at he
    unfold chipEnable at h
    split at h
    · rename_i hf
      exact .inl ⟨he.trans hf.symm, (next_inj.mp h).symm⟩
    · rename_i hf
      obtain ⟨u, hu, ht⟩ := andThen_eq_next.mp h
      exact .inr (.inr ⟨he, by simpa [latchWrite] using hf, u, hu, (next_inj.mp ht).symm⟩)
  · rename_i he
    change ¬e.chipEn = true at he
    have he' : e.chipEn = false := by simpa using he
    unfold chipDisable at h
    split at h
    · rename_i hf
      exact .inr (.inl ⟨he', hf, (next_inj.mp h).symm⟩)
    · rename_i hf
      have hf' : s.flags.fdcEnabled = false := by simpa [latchWrite] using hf
      exact .inl ⟨he'.trans hf'.symm, (next_inj.mp h).symm⟩

/-- A port write that answers went to one of the five ports (R50, R51). -/
theorem portWrite_cases {p b : Byte} {s t : State} (h : portWrite p b s = .next t) :
    (p = s.cfg.ports.cmdStatus ∧ commandWrite b s = .next t) ∨
    (p = s.cfg.ports.track ∧ t = { s with regs := { s.regs with track := b } }) ∨
    (p = s.cfg.ports.sector ∧ t = { s with regs := { s.regs with sector := b } }) ∨
    (p = s.cfg.ports.data ∧ dataWrite b s = .next t) ∨
    (p = s.cfg.ports.ext ∧ extWrite b s = .next t) := by
  unfold portWrite at h
  split at h
  · rename_i hp; exact .inl ⟨hp, h⟩
  · split at h
    · rename_i hp; exact .inr (.inl ⟨hp, (next_inj.mp h).symm⟩)
    · split at h
      · rename_i hp; exact .inr (.inr (.inl ⟨hp, (next_inj.mp h).symm⟩))
      · split at h
        · rename_i hp; exact .inr (.inr (.inr (.inl ⟨hp, h⟩)))
        · split at h
          · rename_i hp; exact .inr (.inr (.inr (.inr ⟨hp, h⟩)))
          · cases h

/-- A port read that answers went to one of the five ports (R50, R51). -/
theorem portRead_cases {p : Byte} {s t : State} (h : portRead p s = .next t) :
    (p = s.cfg.ports.cmdStatus ∧ t = statusRead84 s) ∨
    (p = s.cfg.ports.track ∧ t = answer s.regs.track s) ∨
    (p = s.cfg.ports.sector ∧ t = answer s.regs.sector s) ∨
    (p = s.cfg.ports.data ∧ dataRead s = .next t) ∨
    (p = s.cfg.ports.ext ∧ t = extRead s) := by
  unfold portRead at h
  split at h
  · rename_i hp; exact .inl ⟨hp, (next_inj.mp h).symm⟩
  · split at h
    · rename_i hp; exact .inr (.inl ⟨hp, (next_inj.mp h).symm⟩)
    · split at h
      · rename_i hp; exact .inr (.inr (.inl ⟨hp, (next_inj.mp h).symm⟩))
      · split at h
        · rename_i hp; exact .inr (.inr (.inr (.inl ⟨hp, h⟩)))
        · split at h
          · rename_i hp; exact .inr (.inr (.inr (.inr ⟨hp, (next_inj.mp h).symm⟩)))
          · cases h

/-! ### Timers -/

/-- A worker step that answers was guarded away, or ran what its kind names (R20). -/
theorem fireWorker_cases {k : TimerKind} {s t : State} (h : fireWorker k s = .next t) :
    (s.flags.commandAbort = true ∧ t = s) ∨
    (s.flags.commandAbort = false ∧
      ((k = .t1Tick ∧ t = t1Tick s) ∨ (k = .sectorEntry ∧ sectorEntry s = .next t) ∨
        (k = .wtEntry ∧ wtEntry s = .next t))) := by
  unfold fireWorker at h
  split at h
  · rename_i ha; exact .inl ⟨ha, (next_inj.mp h).symm⟩
  · rename_i ha
    refine .inr ⟨by simpa using ha, ?_⟩
    cases k
    · exact .inl ⟨rfl, (next_inj.mp h).symm⟩
    · exact .inr (.inl ⟨rfl, h⟩)
    · exact .inr (.inr ⟨rfl, h⟩)

/-- The next timer is one that is pending, and no pending timer is due before it (R22). -/
theorem nextTimer_cases (s : State) :
    (nextTimer s = none ∧ s.workerTimer = none ∧ s.indexTimer = none) ∨
    (∃ w, nextTimer s = some (w.due, .worker w.kind) ∧ s.workerTimer = some w ∧ ∀ i, s.indexTimer = some i → w.due ≤ i) ∨
    (∃ i, nextTimer s = some (i, .index) ∧ s.indexTimer = some i ∧ ∀ w, s.workerTimer = some w → i ≤ w.due) := by
  unfold nextTimer
  rcases hw : s.workerTimer with _ | w <;> rcases hi : s.indexTimer with _ | i
  · exact .inl ⟨rfl, rfl, rfl⟩
  · exact .inr (.inr ⟨i, rfl, rfl, by simp⟩)
  · exact .inr (.inl ⟨w, rfl, rfl, by simp⟩)
  · simp only
    split
    · exact .inr (.inl ⟨w, rfl, rfl, by rintro j hj; cases hj; omega⟩)
    · split
      · exact .inr (.inr ⟨i, rfl, rfl, by rintro v hv; cases hv; omega⟩)
      · split
        · exact .inr (.inr ⟨i, rfl, rfl, by rintro v hv; cases hv; omega⟩)
        · exact .inr (.inl ⟨w, rfl, rfl, by rintro j hj; cases hj; omega⟩)

/-- Time that elapses never passes a pending timer's due time, and fires none (R22). -/
theorem elapse_cases (ns : Nat) (s : State) :
    ∃ d, d ≤ ns ∧ (∀ w, s.workerTimer = some w → s.now ≤ w.due → s.now + d ≤ w.due) ∧
      (∀ i, s.indexTimer = some i → s.now ≤ i → s.now + d ≤ i) ∧ elapse ns s = { s with now := s.now + d } := by
  unfold elapse advanceTo
  rcases nextTimer_cases s with ⟨hn, hw, hi⟩ | ⟨w, hn, hw, hle⟩ | ⟨i, hn, hi, hle⟩ <;> rw [hn]
  · refine ⟨ns, le_rfl, by simp [hw], by simp [hi], ?_⟩
    simp
  · refine ⟨max s.now (min (s.now + ns) w.due) - s.now, by omega, ?_, ?_, ?_⟩
    · rintro v hv h; cases hw.symm.trans hv; omega
    · intro j hj h; have := hle j hj; omega
    · simp only; congr 1; omega
  · refine ⟨max s.now (min (s.now + ns) i) - s.now, by omega, ?_, ?_, ?_⟩
    · intro v hv h; have := hle v hv; omega
    · rintro j hj h; cases hi.symm.trans hj; omega
    · simp only; congr 1; omega

/-- A tick that answers found no timer, or fired the earliest one (R22). -/
theorem tick_cases {s t : State} (h : tick s = .next t) :
    (s.workerTimer = none ∧ s.indexTimer = none ∧ t = s) ∨
    (∃ w, s.workerTimer = some w ∧ (∀ i, s.indexTimer = some i → w.due ≤ i) ∧
      fireWorker w.kind { advanceTo w.due s with workerTimer := none } = .next t) ∨
    (∃ i, s.indexTimer = some i ∧ (∀ w, s.workerTimer = some w → i ≤ w.due) ∧
      t = fireIndex { advanceTo i s with indexTimer := none }) := by
  unfold tick at h
  rcases nextTimer_cases s with ⟨hn, hw, hi⟩ | ⟨w, hn, hw, hle⟩ | ⟨i, hn, hi, hle⟩ <;> rw [hn] at h
  · exact .inl ⟨hw, hi, (next_inj.mp h).symm⟩
  · exact .inr (.inl ⟨w, hw, hle, h⟩)
  · exact .inr (.inr ⟨i, hi, hle, (next_inj.mp h).symm⟩)

/-- A line `RUN` that answers is done, or ticked and stands again (R92). -/
theorem runLine_cases {s t : State} (h : runLine s = .next t) :
    (s.workerTimer = none ∧ t = s) ∨ tick { s with agenda := .run :: s.agenda } = .next t := by
  unfold runLine at h
  split at h
  · rename_i hw; exact .inl ⟨hw, (next_inj.mp h).symm⟩
  · exact .inr h

/-- A line `WAIT` that answers let the time pass with no timer due in it, or ticked and stands again (R92). -/
theorem waitLine_cases {ns : Nat} {s t : State} (h : waitLine ns s = .next t) :
    ((∀ w, s.workerTimer = some w → s.now + ns < w.due) ∧ (∀ i, s.indexTimer = some i → s.now + ns < i) ∧
      t = { s with now := s.now + ns }) ∨
    ∃ rest, tick { s with agenda := .wait rest :: s.agenda } = .next t := by
  unfold waitLine at h
  rcases nextTimer_cases s with ⟨hn, hw, hi⟩ | ⟨w, hn, hw, hle⟩ | ⟨i, hn, hi, hle⟩ <;> rw [hn] at h
  · exact .inl ⟨by simp [hw], by simp [hi], (next_inj.mp h).symm⟩
  · simp only at h
    split at h
    · exact .inr ⟨_, h⟩
    · rename_i hlt
      refine .inl ⟨by rintro v hv; cases hw.symm.trans hv; omega, ?_, (next_inj.mp h).symm⟩
      intro j hj; have := hle j hj; omega
  · simp only at h
    split at h
    · exact .inr ⟨_, h⟩
    · rename_i hlt
      refine .inl ⟨?_, by rintro v hv; cases hi.symm.trans hv; omega, (next_inj.mp h).symm⟩
      intro v hv; have := hle v hv; omega

/-! ### The schedule -/

/-- A step that answers was the timer agent's tick, with nothing scheduled, or the step of the agent at the head (R6, R301). -/
theorem step_cases {s t : State} (h : step s = .next t) :
    (s.agenda = [] ∧ tick s = .next t) ∨
    ∃ e rest, s.agenda = e :: rest ∧ agentStep e { s with agenda := rest } = .next t := by
  unfold step nextStep at h
  split at h
  · rename_i ha; exact .inl ⟨ha, h⟩
  · rename_i e rest ha; exact .inr ⟨e, rest, ha, h⟩

end Sys2Proof.Machine
end

