-- ==== Sys2Proof/Laws/Parser.lean ====
section
/-! SUPPORT. The write-track parser: a stream in two parts, one byte in each of its states, and a run of data
bytes. -/

namespace Sys2Proof.Machine

/-- A stream parses as its first part and then, from there, its second. -/
theorem parseBytes_append (env : ParseEnv) (p : Parser) (l r : List Byte) :
    parseBytes env p (l ++ r) =
      match parseBytes env p l with
      | .ok q => parseBytes env q r
      | .error f => .error f := by
  induction l generalizing p with
  | nil => rfl
  | cons b l ih =>
    simp only [List.cons_append, parseBytes]
    cases parseByte env p b with
    | ok q => exact ih q
    | error f => rfl

theorem parseBytes_cons_ok {env : ParseEnv} {p q : Parser} {b : Byte} (h : parseByte env p b = .ok q) (r : List Byte) :
    parseBytes env p (b :: r) = parseBytes env q r := by
  simp only [parseBytes, h]

/-- `n` data bytes, none of them the end mark, are counted (R228). -/
theorem parseBytes_fill (env : ParseEnv) (p : Parser) (fill : Byte) (hf : fill ≠ 0xF7) (n count : Nat)
    (h : p.mode = .dataRecord count) (r : List Byte) :
    parseBytes env p (List.replicate n fill ++ r) = parseBytes env { p with mode := .dataRecord (count + n) } r := by
  induction n generalizing p count with
  | zero => cases p; cases h; rfl
  | succ n ih =>
    have hb : parseByte env p fill = .ok { p with mode := .dataRecord (count + 1) } := by
      simp only [parseByte, h, parseDataByte, if_neg hf]
    rw [List.replicate_succ, List.cons_append, parseBytes_cons_ok hb, ih _ (count + 1) rfl]
    congr 3; omega

/-- An ID field that passes its tests is recorded (R226). -/
theorem checkId_ok {env : ParseEnv} {p : Parser} {n l : Byte} (hl : l.toNat ≤ 3)
    (hs : p.size = none ∨ p.size = some (sectorSize l)) (hn : n ∉ p.seen) :
    checkId env p env.track (sideByte env.side) n l =
      .ok { mode := .dataRecordMark, size := some (sectorSize l), seen := n :: p.seen } := by
  unfold checkId
  rw [if_neg (by simp), if_neg (by simp), if_neg (by omega), if_neg (by rcases hs with h | h <;> simp [h]), if_neg hn]

/-- An ID field that is recorded passed its tests (R226). -/
theorem checkId_cases {env : ParseEnv} {p q : Parser} {t h n l : Byte} (e : checkId env p t h n l = .ok q) :
    t = env.track ∧ h = sideByte env.side ∧ l.toNat ≤ 3 ∧ (p.size = none ∨ p.size = some (sectorSize l)) ∧ n ∉ p.seen ∧
      q = { mode := .dataRecordMark, size := some (sectorSize l), seen := n :: p.seen } := by
  unfold checkId at e
  split at e
  · cases e
  · split at e
    · cases e
    · split at e
      · cases e
      · split at e
        · cases e
        · split at e
          · cases e
          · rename_i h1 h2 h3 h4 h5
            injection e with e
            refine ⟨by simpa using h1, by simpa using h2, by omega, ?_, h5, e.symm⟩
            by_cases hp : p.size = none
            · exact .inl hp
            · exact .inr (by by_contra hc; exact h4 ⟨hp, hc⟩)

end Sys2Proof.Machine
end

