-- ==== Sys2Proof/Laws/PerInstr.lean ====
section
/-! SUPPORT. One lemma per constructor: the high nibble of a command's byte is its opcode nibble (R80, R82). -/

namespace Sys2Proof.Laws.OpcodeNibble

/-- The encoder puts the command's opcode nibble in bits 7 to 4 of its byte (R80). -/
def Statement (i : Instr) : Prop := opcodeNibble (encodeByte i) = i.opcode

/-- The high half of an opcode nibble above a parameter nibble is the opcode nibble (R80). -/
theorem high_nibble (a b : Nibble) : opcodeNibble (a ++ b) = a := by
  revert a b
  decide

theorem restore (h v : Bool) (x : Nat) : Statement (.restore h v x) := high_nibble _ _
theorem seek (h v : Bool) (x : Nat) : Statement (.seek h v x) := high_nibble _ _
theorem step (u h v : Bool) (x : Nat) : Statement (.step u h v x) := high_nibble _ _
theorem stepIn (u h v : Bool) (x : Nat) : Statement (.stepIn u h v x) := high_nibble _ _
theorem stepOut (u h v : Bool) (x : Nat) : Statement (.stepOut u h v x) := high_nibble _ _
theorem rdSec (l e sso a : Bool) : Statement (.rdSec l e sso a) := high_nibble _ _
theorem rdSecM (l e sso a : Bool) : Statement (.rdSecM l e sso a) := high_nibble _ _
theorem wrSec (l e sso a : Bool) : Statement (.wrSec l e sso a) := high_nibble _ _
theorem wrSecM (l e sso a : Bool) : Statement (.wrSecM l e sso a) := high_nibble _ _
theorem rdAddr (l e sso a : Bool) : Statement (.rdAddr l e sso a) := high_nibble _ _
theorem fint (i : Nat) : Statement (.fint i) := high_nibble _ _
theorem rdTrk (l e sso a : Bool) : Statement (.rdTrk l e sso a) := high_nibble _ _
theorem wrTrk (l e sso a : Bool) : Statement (.wrTrk l e sso a) := high_nibble _ _

end Sys2Proof.Laws.OpcodeNibble
end

