-- ==== Sys2Proof/Tests/Slice0.lean ====
section
/-! SUPPORT. Our own tests: ill-formed commands refused, bytes written out from the encodings, single steps checked
against the examples and vectors of the spec, and for every obligation with hypotheses a case that meets them. -/

namespace Sys2Proof.Tests

open Sys2Proof.Machine

/-! ### Small states (95_test_vectors.md: "enabled idle") -/

/-- Parameters with every open one chosen: the latch fields from bit 0 up, all active high, 80 cylinders. -/
def cfg : Config.Params where
  ports := Config.ports
  regWidth := .byteWide
  intLine := .rst7_5
  opcodeMap := Config.standardMap
  stepDirReset := .outward
  tAccept := 12000
  tStep := 6000000
  tIndexOverride := 10000000
  drqReload := 16
  wtBufSize := 65536
  sideSource := .latch
  wtStatusShowsRnfCrc := false
  extStateBits :=
    { waitEn := ⟨0, true⟩, precomp := ⟨1, true⟩, side := ⟨2, true⟩, dden := ⟨3, true⟩, chipEn := ⟨4, true⟩
      driveSelect := ⟨5, true⟩ }
  extStatusBits :=
    { diskChanged := ⟨0, true⟩, terminalCount := ⟨1, false⟩, twoSided := ⟨2, true⟩, noFloppy := ⟨7, true⟩ }
  driveSeekRange := 0
  maxCyl := 79

/-- The block enabled and idle, its drive loaded with a disk that has one track: (2, 0), FM500, four sectors of 128
bytes, none of them stored yet. Register and head at `c`. -/
def idle (c : Nat) : State :=
  { State.reset with
    cfg := cfg
    flags := { Flags.clear with fdcEnabled := true }
    ext := { ExtLatch.clear with chipEn := true, driveSelect := true }
    regs := { track := BitVec.ofNat 8 c, sector := 2, data := 0 }
    stepDir := .inward
    drive := { State.reset.drive with driveSelect := true, isLoaded := true, track := c, track0 := decide (c = 0) }
    disk := { tracks := [{ cyl := 2, head := false, format := .fm500, sectorLens := [128, 128, 128, 128], serial := 0 }]
              modified := false } }

/-- A Type I command in flight, its next tick due at 500. -/
def seeking (c : Nat) (dest : Byte) : State :=
  { idle c with
    flags := { (idle c).flags with busy := true }, lastOp := 0x1, seekDest := dest, phase := .t1Run
    workerTimer := some { due := 500, kind := .t1Tick } }

/-- The one pending step of a STEP-family command, next tick due at 500. -/
def stepping (c : Nat) (dir : Config.StepDir) (u : Bool) : State :=
  { seeking c 0 with lastOp := 0x4, t1Kind := .stepLike, stepPending := true, stepDir := dir
                     cmd := { u := u, h := false, v := true, sso := false } }

/-- A sector command accepted, its entry due at 500. -/
def entering (op : Nibble) (sector : Byte) : State :=
  { idle 2 with
    flags := { (idle 2).flags with busy := true }, lastOp := op, phase := .t2Accept
    regs := { (idle 2).regs with sector := sector }, workerTimer := some { due := 500, kind := .sectorEntry } }

/-- A sector transfer in flight at byte `i` of sector 2, byte 127 of which is stored as 0x2F. -/
def moving (op : Nibble) (i : Nat) : State :=
  { idle 2 with
    flags := { (idle 2).flags with busy := true, drq := true }, lastOp := op, phase := .t2Xfer
    xfer := some { cyl := 2, head := false, sidx := 1, len := 128, idx := i }, mem := [(diskAddr 2 false 1 127, 0x2F)] }

/-- WRITE TRACK accepted, its entry due at 500. -/
def preparing : State :=
  { idle 1 with
    flags := { (idle 1).flags with busy := true }, lastOp := 0xF, phase := .t3Accept
    workerTimer := some { due := 500, kind := .wtEntry } }

/-- WRITE TRACK collecting, with these bytes received. -/
def collecting (bytes : List Byte) : State :=
  { idle 1 with
    flags := { (idle 1).flags with busy := true, drq := true }, lastOp := 0xF, phase := .t3Collect
    wt := some { bytes := bytes, side := false } }

/-- The outcome is a next state of which `p` holds. -/
def isNext (o : Result) (p : State → Bool) : Bool :=
  match o with
  | .next t => p t
  | .fault _ => false
  | .refused _ => false

/-- The outcome is this fault. -/
def isFault (o : Result) (f : Fault) : Bool :=
  match o with
  | .next _ => false
  | .fault g => decide (g = f)
  | .refused _ => false

/-- The outcome is the "not implemented" error of this opcode, with the opcode recorded, the interrupt acknowledged,
and the block not busy. -/
def isNotImplemented (o : Result) (op : Nibble) : Bool :=
  match o with
  | .next _ => false
  | .fault _ => false
  | .refused (.notImplemented g left) =>
    decide (g = op) && decide (left.lastOp = op) && !left.flags.interruptPending && !left.flags.busy
  | .refused _ => false

/-! ### Well-formedness: an ill-formed term for each check (R83, R85) -/

theorem test_illformed_restore : (Instr.restore false false 4).wellFormed = false := by decide
theorem test_illformed_seek : (Instr.seek true false 4).wellFormed = false := by decide
theorem test_illformed_step : (Instr.step true false false 4).wellFormed = false := by decide
theorem test_illformed_stepIn : (Instr.stepIn false true false 4).wellFormed = false := by decide
theorem test_illformed_stepOut : (Instr.stepOut false false true 7).wellFormed = false := by decide
theorem test_illformed_fint : (Instr.fint 16).wellFormed = false := by decide

/-! ### Decoding: one byte per constructor, written out from R82 to R85 -/

theorem test_decode_restore : decode [0b00001011#8] = .ok (.restore true false 3, []) := by decide
theorem test_decode_seek : decode [0b00010110#8] = .ok (.seek false true 2, []) := by decide
theorem test_decode_step : decode [0b00111000#8] = .ok (.step true true false 0, []) := by decide
theorem test_decode_stepIn : decode [0b01000100#8] = .ok (.stepIn false false true 0, []) := by decide
theorem test_decode_stepOut : decode [0b01111011#8] = .ok (.stepOut true true false 3, []) := by decide
theorem test_decode_rdSec : decode [0b10001101#8] = .ok (.rdSec true true false true, []) := by decide
theorem test_decode_rdSecM : decode [0b10010010#8] = .ok (.rdSecM false false true false, []) := by decide
theorem test_decode_wrSec : decode [0b10100010#8] = .ok (.wrSec false false true false, []) := by decide
theorem test_decode_wrSecM : decode [0b10111000#8] = .ok (.wrSecM true false false false, []) := by decide
theorem test_decode_rdAddr : decode [0b11000001#8] = .ok (.rdAddr false false false true, []) := by decide
theorem test_decode_fint : decode [0b11010101#8] = .ok (.fint 5, []) := by decide
theorem test_decode_rdTrk : decode [0b11100100#8] = .ok (.rdTrk false true false false, []) := by decide
theorem test_decode_wrTrk : decode [0b11110010#8, 0x84#8] = .ok (.wrTrk false false true false, [0x84#8]) := by decide

/-- The rows of spec/opcode_table.json: match, mask. -/
def rows : List (Byte × Byte) :=
  [(0x00, 0xF0), (0x10, 0xF0), (0x20, 0xE0), (0x40, 0xE0), (0x60, 0xE0), (0x80, 0xF0), (0x90, 0xF0), (0xA0, 0xF0),
    (0xB0, 0xF0), (0xC0, 0xF0), (0xD0, 0xF0), (0xE0, 0xF0), (0xF0, 0xF0)]

/-- The row of a command, in the order of `rows`. -/
def rowOf : Instr → Nat
  | .restore _ _ _ => 0
  | .seek _ _ _ => 1
  | .step _ _ _ _ => 2
  | .stepIn _ _ _ _ => 3
  | .stepOut _ _ _ _ => 4
  | .rdSec _ _ _ _ => 5
  | .rdSecM _ _ _ _ => 6
  | .wrSec _ _ _ _ => 7
  | .wrSecM _ _ _ _ => 8
  | .rdAddr _ _ _ _ => 9
  | .fint _ => 10
  | .rdTrk _ _ _ _ => 11
  | .wrTrk _ _ _ _ => 12

/-- Every byte meets the match and mask of its command's row and of no other. -/
theorem test_rows_partition : ∀ c : Byte,
    (rows.findIdx? fun r => c &&& r.2 == r.1) = some (rowOf (decodeByte c)) ∧
      (rows.filter fun r => c &&& r.2 == r.1).length = 1 := by decide

/-- R5, D1: an assignment with RESTORE and SEEK the other way round is one of D1's, and a byte then runs the other
command, in the default map's numbers. -/
def swapped : Config.OpcodeMap where
  standard := #v[0x1, 0x0, 0x2, 0x3, 0x4, 0x5, 0x6, 0x7, 0x8, 0x9, 0xA, 0xB, 0xC, 0xD, 0xE, 0xF]

theorem test_opcode_map : swapped.Good ∧
    decodeUnder swapped 0x1B = .restore true false 3 ∧ decodeUnder swapped 0xD5 = .fint 5 ∧
    isNext (agentStep (.portWrite 0x84 0x1C) { idle 2 with cfg := { cfg with opcodeMap := swapped } }) (fun t =>
      decide (t.lastOp = 0x0 ∧ t.flags.busy = true)) = true :=
  ⟨⟨by decide, by decide, by decide⟩, by decide⟩

theorem test_table_word : decodeTableWord 8 0x14 = some (.seek false true 0) := by decide
theorem test_table_no_other_length : decodeTableWord 16 0x14 = none := by decide

/-- The first step after reset runs a placed command (R114). -/
theorem test_first_step_runs : isNext (step (State.reset.withFetchWord 8 0x80)) (fun t =>
    decide (t.lastOp = 0x8 ∧ t.phase = .t2Accept ∧ t.agenda = [] ∧
      t.workerTimer = some { due := 12000, kind := .sectorEntry })) = true := by decide

/-! ### Commands at acceptance, and the worker -/

/-- R141's example: head at 5, register 99, byte 0x08. -/
theorem test_restore_accepted :
    isNext (agentStep (.portWrite 0x84 0x08) { idle 5 with regs := { track := 99, sector := 0, data := 7 } }) (fun t =>
      decide (t.regs.track = 5 ∧ t.seekDest = 0 ∧ t.regs.data = 7 ∧ t.cmd.h = true ∧ t.cmd.u = false)) = true := by
  decide

/-- T15: the direction of a STEP with no directed step since power-on is `STEP_DIR_RESET`. -/
theorem test_step_dir_reset : isNext (step ((State.powerOn cfg).withFetchWord 8 0x30)) (fun t =>
    decide (t.stepDir = .outward ∧ t.stepPending = true)) = true := by decide

/-- S1's first tick: one step out, register and head together. -/
theorem test_restore_tick : isNext (fireWorker .t1Tick (seeking 5 0)) (fun t =>
    decide (t.regs.track = 4 ∧ t.drive.track = 4 ∧ t.stepDir = .outward ∧ t.flags.busy = true)) = true := by decide

/-- R114's example: byte 0x1C on an idle block. -/
theorem test_seek_accepted :
    isNext (agentStep (.portWrite 0x84 0x1C) { idle 0 with regs := { track := 0, sector := 0, data := 5 } }) (fun t =>
      decide (t.lastOp = 0x1 ∧ t.flags.busy = true ∧ t.phase = .t1Run ∧ t.seekDest = 5 ∧
        t.workerTimer = some { due := 12000, kind := .t1Tick })) = true := by decide

/-- S2's completion: register at its destination 5, head at 8, V = 1. -/
theorem test_seek_completes :
    isNext (fireWorker .t1Tick
      { seeking 5 5 with drive := { (idle 8).drive with track := 8 }, cmd := { CmdLatch.clear with v := true } }) (fun t =>
      decide (t.flags.seekError = true ∧ t.flags.headLoaded = false ∧ t.flags.busy = false ∧
        t.flags.interruptPending = true ∧ t.intEvents = [.rst7_5] ∧ t.phase = .idle)) = true := by decide

/-- T4: STEP with u = 1 repeats OUT. -/
theorem test_step_accepted :
    isNext (agentStep (.portWrite 0x84 0x30) { idle 7 with stepDir := .outward }) (fun t =>
      decide (t.lastOp = 0x3 ∧ t.stepDir = .outward ∧ t.stepPending = true ∧ t.cmd.u = true)) = true := by decide
theorem test_step_tick : isNext (fireWorker .t1Tick (stepping 7 .outward true)) (fun t =>
    decide (t.regs.track = 6 ∧ t.drive.track = 6 ∧ t.stepPending = false)) = true := by decide

/-- T6: STEP-IN with u = 0 moves the head only. -/
theorem test_stepIn_accepted : isNext (agentStep (.portWrite 0x84 0x44) { idle 10 with stepDir := .outward }) (fun t =>
    decide (t.lastOp = 0x4 ∧ t.stepDir = .inward ∧ t.cmd.v = true ∧ t.cmd.u = false)) = true := by decide
theorem test_stepIn_tick : isNext (fireWorker .t1Tick (stepping 10 .inward false)) (fun t =>
    decide (t.regs.track = 10 ∧ t.drive.track = 11)) = true := by decide

/-- T9: STEP-OUT with u = 1 wraps the register from 0 to 0xFF. -/
theorem test_stepOut_accepted : isNext (agentStep (.portWrite 0x84 0x70) (idle 10)) (fun t =>
    decide (t.lastOp = 0x7 ∧ t.stepDir = .outward ∧ t.cmd.u = true)) = true := by decide
theorem test_stepOut_tick :
    isNext (fireWorker .t1Tick { stepping 5 .outward true with regs := { track := 0, sector := 0, data := 0 } }) (fun t =>
      decide (t.regs.track = 0xFF ∧ t.drive.track = 4)) = true := by decide

/-- Section 3: RDSEC with S = 1; L, E and a do nothing. -/
theorem test_rdSec_accepted : isNext (agentStep (.portWrite 0x84 0x8F) (idle 2)) (fun t =>
    decide (t.lastOp = 0x8 ∧ t.cmd.sso = true ∧ t.phase = .t2Accept)) = true := by decide
/-- X1, and X5's flags: the last sector passes; the sector above it, in the wrong density, sets both error flags. -/
theorem test_rdSec_entry :
    isNext (fireWorker .sectorEntry (entering 0x8 4)) (fun t =>
      decide (t.xfer = some { cyl := 2, head := false, sidx := 3, len := 128, idx := 0 } ∧ t.flags.drq = true)) = true ∧
    isNext (fireWorker .sectorEntry { entering 0x8 9 with ext := { (idle 2).ext with dden := true } }) (fun t =>
      decide (t.flags.recordNotFound = true ∧ t.flags.crcError = true ∧ t.flags.busy = false ∧ t.intEvents = [])) = true := by
  decide

theorem test_wrSec_accepted : isNext (agentStep (.portWrite 0x84 0xA0) (idle 2)) (fun t =>
    decide (t.lastOp = 0xA ∧ t.cmd.sso = false ∧ t.phase = .t2Accept)) = true := by decide
/-- X7: a write meets a write-protected medium; X13's last byte finishes the command. -/
theorem test_wrSec_entry_and_end :
    isNext (fireWorker .sectorEntry { entering 0xA 1 with drive := { (idle 2).drive with isWriteProtected := true } }) (fun t =>
      decide (t.phase = .idle ∧ t.disk.modified = false ∧ statusByte t = 0x40)) = true ∧
    isNext (agentStep (.portWrite 0x87 0x55) (moving 0xA 127)) (fun t =>
      decide (diskByte t 2 false 1 127 = 0x55 ∧ t.regs.data = 0x55 ∧ t.flags.interruptPending = true)) = true := by decide

/-- Section 3: the four unimplemented commands. -/
theorem test_rdSecM : isNotImplemented (agentStep (.portWrite 0x84 0x90) (idle 2)) 0x9 = true := by decide
theorem test_wrSecM : isNotImplemented (agentStep (.portWrite 0x84 0xB0) (idle 2)) 0xB = true := by decide
theorem test_rdAddr : isNotImplemented (agentStep (.portWrite 0x84 0xC0) (idle 2)) 0xC = true := by decide
theorem test_rdTrk : isNotImplemented (agentStep (.portWrite 0x84 0xE4) (idle 2)) 0xE = true := by decide

/-- V15, and S6 while a SEEK is in flight. -/
theorem test_fint :
    isNext (agentStep (.portWrite 0x84 0xD0) { idle 2 with flags := { (idle 2).flags with interruptPending := true } }) (fun t =>
      decide (t.flags.interruptPending = false ∧ t.flags.commandAbort = true ∧ t.lastOp = 0x0)) = true ∧
    isNext (agentStep (.portWrite 0x84 0xDF) (seeking 10 50)) (fun t =>
      decide (t.workerTimer = none ∧ t.flags.busy = false ∧ t.regs.track = 10 ∧ t.intEvents = [])) = true := by decide

/-- S4's first steps: the entry opens an empty buffer. -/
theorem test_wrTrk_entry : isNext (fireWorker .wtEntry preparing) (fun t =>
    decide (t.wt = some { bytes := [], side := false } ∧ t.flags.drq = true ∧ statusByte t = 0x03)) = true := by decide

/-! ### The parser (section 7 of 95_test_vectors.md) -/

def parserEnv : ParseEnv := { dden := false, track := 1, side := false }
/-- `ID(t,h,s,l)`. -/
def idBytes (t h s l : Byte) : List Byte := [0xFE, t, h, s, l]
/-- `D(n)`. -/
def dataBytes (n : Nat) : List Byte := [0xFB] ++ List.replicate n 0xE5 ++ [0xF7]

/-- The stream of W1: one sector of 128 bytes. -/
def stream : List Byte := [0xFF, 0xFC] ++ idBytes 1 0 1 0 ++ dataBytes 128

/-- The outcome of a parse is this count and size. -/
def parsesTo (bytes : List Byte) (n size : Nat) : Bool :=
  match parseTrack parserEnv bytes with
  | .ok r => decide (r = (n, size))
  | .error _ => false
/-- The outcome of a parse is this violation. -/
def parseFails (bytes : List Byte) (f : Fault) : Bool :=
  match parseTrack parserEnv bytes with
  | .ok _ => false
  | .error g => decide (g = f)

set_option maxRecDepth 20000 in
/-- W1 and W14. -/
theorem test_parser_accepts :
    parsesTo ([0xFF, 0xFC] ++ idBytes 1 0 1 0 ++ dataBytes 128) 1 128 = true ∧
    parsesTo ([0xFF, 0xFC] ++ idBytes 1 0 2 0 ++ dataBytes 128 ++ idBytes 1 0 1 0 ++ dataBytes 128) 2 128 = true := by decide

set_option maxRecDepth 20000 in
/-- W4 to W13, W16 and W18 to W20: each violation by its name. -/
theorem test_parser_rejects :
    parseFails [0x4E] .wtBadGap = true ∧
    parseFails ([0xFF, 0xFC] ++ idBytes 2 0 1 0) .wtBadTrack = true ∧
    parseFails ([0xFF, 0xFC] ++ idBytes 1 1 1 0) .wtBadHead = true ∧
    parseFails ([0xFF, 0xFC] ++ idBytes 1 0 1 4) .wtBadLengthCode = true ∧
    parseFails ([0xFF, 0xFC] ++ idBytes 1 0 1 0 ++ dataBytes 128 ++ idBytes 1 0 2 1) .wtSizeMismatch = true ∧
    parseFails ([0xFF, 0xFC] ++ idBytes 1 0 1 0 ++ dataBytes 128 ++ idBytes 1 0 1 0) .wtDuplicateSector = true ∧
    parseFails ([0xFF, 0xFC] ++ idBytes 1 0 1 0 ++ dataBytes 127) .wtDataLength = true ∧
    parseFails ([0xFF, 0xFC] ++ idBytes 1 0 1 0 ++ dataBytes 128 ++ idBytes 1 0 3 0 ++ dataBytes 128) .wtNonContiguous = true ∧
    parseFails [] .wtNoSectors = true ∧
    parseFails [0xFF, 0xFC, 0xFE, 1, 0] .wtTruncated = true ∧
    parseFails ([0xFF, 0xFC] ++ idBytes 1 0 1 0) .wtTruncated = true ∧
    parseFails ([0xFF, 0xFC] ++ idBytes 1 0 1 0 ++ [0xFB, 0xE5]) .wtTruncated = true := by decide

/-! ### Ports, status, DRQ, DMA, the latch -/

/-- V5 and V9: the sensors show with no drive selected; a read's layout hides WriteProt. -/
theorem test_status :
    statusByte { State.reset with
      drive := { State.reset.drive with index := true, track0 := true, isWriteProtected := true } } = 0xC6 ∧
    statusByte { idle 2 with
      lastOp := 0x8, flags := { (idle 2).flags with recordNotFound := true, crcError := true }
      drive := { (idle 2).drive with isWriteProtected := true } } = 0x18 := by decide

/-- S3: byte 127 by DMA, then an overrun that moves nothing; X16. -/
theorem test_dma :
    isNext (agentStep .dmaRead (moving 0x8 127)) (fun t =>
      decide (t.reply = .byte 0x2F ∧ t.flags.drq = true ∧ t.flags.busy = true)) = true ∧
    isNext (agentStep .dmaRead (moving 0x8 128)) (fun t => decide (t.xfer = (moving 0x8 128).xfer)) = true ∧
    isFault (agentStep .dmaComplete (idle 2)) .unexpectedDma = true ∧
    isFault (agentStep (.dmaWrite 0) (moving 0x8 0)) .dmaWriteNotAllowed = true := by decide

/-- X18: the sixteenth query is the true one. -/
theorem test_drq : isNext (agentStep .drqQuery { moving 0x8 0 with drqCounter := 1 }) (fun t =>
    decide (t.reply = .request true ∧ t.drqCounter = 16)) = true := by decide

/-- X9: sector 0 with no other error is fatal. X10: with a track mismatch it is an ordinary failure. -/
theorem test_sector_zero :
    isFault (fireWorker .sectorEntry (entering 0x8 0)) .sectorZero = true ∧
    isNext (fireWorker .sectorEntry { entering 0x8 0 with regs := { track := 3, sector := 0, data := 0 } }) (fun t =>
      decide (statusByte t = 0x10)) = true := by decide

/-- L4 and L3: a byte that leaves the chip disabled keeps its fields; one that disables it clears them all. -/
theorem test_latch :
    isNext (agentStep (.portWrite 0xE8 0x28)
      { idle 2 with flags := { (idle 2).flags with fdcEnabled := false }, ext := ExtLatch.clear }) (fun t =>
      decide (t.ext = { ExtLatch.clear with dden := true, driveSelect := true } ∧ t.flags.busy = false)) = true ∧
    isNext (agentStep (.portWrite 0xE8 0x20) (seeking 7 50)) (fun t =>
      decide (t.ext = ExtLatch.clear ∧ t.workerTimer = none ∧ t.regs.track = 0 ∧ t.drive.track = 7 ∧ t.intEvents = [])) =
      true := by decide

/-- R22: time passes up to a timer's due time and the timer has not fired, so a host's step may stand there. -/
theorem test_elapse : isNext (agentStep (.elapse 900) (seeking 5 0)) (fun t =>
    decide (t.now = 500 ∧ t.workerTimer = some { due := 500, kind := .t1Tick } ∧ t.regs.track = 5)) = true := by decide

set_option maxRecDepth 20000 in
/-- R300: at the index edge a WRITE TRACK formats a loaded medium; without one there is nothing to format. -/
theorem test_medium_absent :
    isNext (agentStep .indexEdge (collecting stream)) (fun t =>
      decide ((getTrack t.disk 1 false).map Track.sectorLens = some [128])) = true ∧
    agentStep .indexEdge { collecting stream with drive := { (idle 1).drive with isLoaded := false } } =
      .refused .mediumAbsent := ⟨by decide, rfl⟩

/-! ### Witnesses: for every obligation with hypotheses, a case that meets them all -/

theorem goodParams_cfg : GoodParams cfg := ⟨by decide, ⟨by decide, by decide, by decide⟩, by decide, by decide, by decide⟩

theorem mediumInv_idle (c : Nat) : MediumInv (idle c) :=
  ⟨List.Pairwise.nil, List.pairwise_singleton _ _, by rintro t (_ | ⟨_, ⟨⟩⟩); exact Nat.le_refl 0⟩

/-- The invariant says nothing of the schedule. -/
theorem inv_agenda {s : State} (h : s.Inv) (a : List Event) : ({ s with agenda := a } : State).Inv where
  params := h.params
  sequencer := { h.sequencer with }
  range := { h.range with }
  latch := { h.latch with }
  medium := { h.medium with }

/-- A Type I command in flight meets the invariant. -/
theorem inv_seeking (c : Nat) (dest : Byte) : (seeking c dest).Inv where
  params := goodParams_cfg
  sequencer := ⟨rfl, rfl, rfl, rfl, rfl, by rintro ⟨_, ⟨⟩⟩, by rintro ⟨⟩, (by decide : 1 < 8)⟩
  range :=
    ⟨by rintro x ⟨⟩, by rintro x ⟨⟩, (by decide : 1 ≤ 16 ∧ 16 ≤ 16), by rintro x ⟨⟩; exact (by decide : 0 ≤ 500),
      by rintro x ⟨⟩⟩
  latch := ⟨rfl, rfl, rfl, rfl, rfl⟩
  medium := ⟨(mediumInv_idle c).1, (mediumInv_idle c).2, (mediumInv_idle c).3⟩

/-- A WRITE SECTOR transfer at its last byte meets the invariant. -/
theorem inv_moving : (moving 0xA 127).Inv where
  params := goodParams_cfg
  sequencer := ⟨rfl, rfl, rfl, rfl, rfl, by decide, by rintro ⟨⟩, .inr rfl⟩
  range := ⟨by rintro x ⟨⟩; decide, by rintro x ⟨⟩, by decide, by rintro x ⟨⟩, by rintro x ⟨⟩⟩
  latch := ⟨rfl, rfl, rfl, rfl, rfl⟩
  medium := ⟨List.pairwise_singleton _ _, (mediumInv_idle 2).2, (mediumInv_idle 2).3⟩

/-- A WRITE TRACK with W1's stream received meets the invariant. -/
theorem inv_collecting : (collecting stream).Inv where
  params := goodParams_cfg
  sequencer := ⟨rfl, rfl, rfl, rfl, rfl, by decide, by rintro ⟨⟩, rfl⟩
  range := ⟨by rintro x ⟨⟩, by rintro x ⟨⟩; exact (by decide : 137 ≤ 65536), by decide, by rintro x ⟨⟩, by rintro x ⟨⟩⟩
  latch := ⟨rfl, rfl, rfl, rfl, rfl⟩
  medium := ⟨(mediumInv_idle 1).1, (mediumInv_idle 1).2, (mediumInv_idle 1).3⟩

theorem witness_DecodeOfEncode :
    (Instr.restore true true 3).wellFormed = true ∧ (Instr.stepOut true true true 3).wellFormed = true ∧
      (Instr.wrTrk true true true true).wellFormed = true ∧ (Instr.fint 15).wellFormed = true := by decide

/-- One pair of bytes for each clause: Type I, the executing Type II and III, FORCE INTERRUPT, decode-only. -/
theorem witness_IgnoredBitsIgnored : ∀ p ∈ [(0x08, 0x0B), (0x80, 0x8D), (0xF2, 0xFF), (0xD0, 0xDF), (0x90, 0x9F)],
    ∀ c d : Byte, (c, d) = p →
      opcodeNibble c = opcodeNibble d ∧
      ((commandOp (idle 2) c).toNat < 8 → c.getLsbD 3 = d.getLsbD 3 ∧ c.getLsbD 2 = d.getLsbD 2) ∧
      (commandOp (idle 2) c = 0x8 ∨ commandOp (idle 2) c = 0xA ∨ commandOp (idle 2) c = 0xF →
        c.getLsbD 1 = d.getLsbD 1) := by
  intro p hp c d h
  subst h
  fin_cases hp <;> decide

theorem witness_ScheduledAgentMoves :
    ({ idle 2 with agenda := [.dmaComplete, .tick] } : State).agenda = .dmaComplete :: [.tick] ∧ (idle 2).agenda = [] :=
  ⟨rfl, rfl⟩

/-- An idle block and any command; a busy one and FORCE INTERRUPT. -/
theorem witness_StepRunsDecodedCommand :
    (∃ s : State, s.agenda = .portWrite s.cfg.ports.cmdStatus 0x14 :: [] ∧
      decode [standardByte s.cfg.opcodeMap 0x14] = .ok (.seek false true 0, []) ∧ s.flags.busy = false) ∧
    (∃ s : State, s.agenda = .portWrite s.cfg.ports.cmdStatus 0xD3 :: [] ∧
      decode [standardByte s.cfg.opcodeMap 0xD3] = .ok (.fint 3, []) ∧ s.flags.busy = true ∧ commandOp s 0xD3 = 0xD) ∧
    (State.reset.cfg.opcodeMap = Config.standardMap ∧ decodeTableWord 8 0xD3 = some (.fint 3) ∧
      opcodeNibble (BitVec.ofNat 8 0xD3) = 0xD) :=
  ⟨⟨{ idle 2 with agenda := [.portWrite 0x84 0x14] }, rfl, by decide, rfl⟩,
    ⟨{ seeking 2 5 with agenda := [.portWrite 0x84 0xD3] }, rfl, by decide, rfl, by decide⟩, by decide⟩

theorem witness_BusyWriteDiscarded : (seeking 2 5).flags.busy = true ∧ commandOp (seeking 2 5) 0x80 ≠ 0xD := by decide

theorem witness_CommandAcknowledgesAndRecords :
    (idle 2).flags.busy = false ∧ (seeking 2 5).flags.busy = true ∧ commandOp (seeking 2 5) 0xD7 = 0xD := by decide

/-- The five ports of R50 are different ones. -/
theorem witness_RegisterPorts : (idle 2).cfg.ports.Distinct ∧ State.reset.cfg.ports.Distinct := by decide

theorem witness_CommandsLeaveTheRest :
    (∃ t, exec (.restore true true 3) (idle 2) = .next t) ∧ (∃ t, exec (.stepIn true true true 0) (idle 2) = .next t) ∧
      (∃ t, exec (.wrTrk false false true false) (idle 2) = .next t) ∧ ∃ t, exec (.fint 0) (moving 0xA 5) = .next t :=
  ⟨⟨_, rfl⟩, ⟨_, rfl⟩, ⟨_, rfl⟩, ⟨_, rfl⟩⟩

theorem witness_UnknownPortIsFatal : ∀ p ∈ [(0x83 : Byte), 0x88, 0xE7, 0x00, 0xFF],
    p ≠ (idle 2).cfg.ports.cmdStatus ∧ p ≠ (idle 2).cfg.ports.track ∧ p ≠ (idle 2).cfg.ports.sector ∧
      p ≠ (idle 2).cfg.ports.data ∧ p ≠ (idle 2).cfg.ports.ext := by decide

theorem witness_DataPortWithoutStrobe :
    (idle 2).cfg.ports.Distinct ∧ (moving 0x8 0).cfg.ports.Distinct ∧ (collecting []).cfg.ports.Distinct ∧ (idle 2).flags.drq = false ∧
    ((moving 0x8 0).flags.drq = true ∧ (moving 0x8 0).phase = .t2Xfer ∧ (moving 0x8 0).lastOp ≠ 0xA) ∧
    ((collecting []).flags.drq = true ∧ (collecting []).phase = .t3Collect) := by decide

/-- DRQ falls at the last byte written or read, at FORCE INTERRUPT, and when the chip is disabled. -/
theorem witness_OtherPortsKeepDrq :
    (∃ t, agentStep (.portWrite 0x87 0x55) (moving 0xA 127) = .next t ∧ t.flags.drq ≠ (moving 0xA 127).flags.drq) ∧
    (∃ t, agentStep (.portWrite 0x84 0xD0) (moving 0xA 5) = .next t ∧ t.flags.drq ≠ (moving 0xA 5).flags.drq) ∧
    (∃ t, agentStep (.portWrite 0xE8 0x00) (moving 0xA 5) = .next t ∧ t.flags.drq ≠ (moving 0xA 5).flags.drq) ∧
    (∃ t, agentStep (.portRead 0x87) (moving 0x8 127) = .next t ∧ t.flags.drq ≠ (moving 0x8 127).flags.drq) :=
  ⟨⟨_, rfl, by decide⟩, ⟨_, rfl, by decide⟩, ⟨_, rfl, by decide⟩, ⟨_, rfl, by decide⟩⟩

theorem witness_TypeIStatusLayout : (State.reset.lastOp.toNat < 8) ∧ ({ idle 2 with lastOp := 0x7 } : State).lastOp.toNat < 8 ∧
    ({ idle 2 with lastOp := 0xD } : State).lastOp = 0xD := by decide

theorem witness_TransferStatusLayouts :
    (moving 0x8 0).lastOp = 0x8 ∧ (moving 0xA 0).lastOp = 0xA ∧ (collecting []).lastOp = 0xF ∧
    ({ idle 2 with lastOp := 0xE } : State).lastOp = 0xE := by decide

theorem witness_TypeITickSteps :
    ((seeking 5 0).flags.commandAbort = false ∧ (seeking 5 0).t1Kind = .seekLike ∧
      (seeking 5 0).regs.track ≠ (seeking 5 0).seekDest) ∧
    ((stepping 5 .inward true).flags.commandAbort = false ∧ (stepping 5 .inward true).t1Kind = .stepLike ∧
      (stepping 5 .inward true).stepPending = true) := by decide

theorem witness_TypeITickCompletes :
    ((seeking 5 5).flags.commandAbort = false ∧ (seeking 5 5).t1Kind = .seekLike ∧
      (seeking 5 5).regs.track = (seeking 5 5).seekDest) ∧
    (∃ s : State, s.flags.commandAbort = false ∧ s.t1Kind = .stepLike ∧ s.stepPending = false) :=
  ⟨by decide, { stepping 5 .inward true with stepPending := false }, rfl, rfl, rfl⟩

theorem witness_SeekToWithinRange : (0 : Int) ≤ 0 ∧ (0 : Int) ≤ (cfg.maxCyl : Int) ∧ (0 : Int) ≤ 79 ∧ (79 : Int) ≤ (cfg.maxCyl : Int) := by
  decide

/-- From cylinder 79 down to 0, all of the drive's range. -/
theorem witness_SeekReachesDestination :
    ∃ (s : State) (due n : Nat),
      s.agenda = [] ∧ s.indexTimer = none ∧ s.flags.commandAbort = false ∧ s.phase = .t1Run ∧
      s.workerTimer = some { due := due, kind := .t1Tick } ∧ s.now ≤ due ∧ s.t1Kind = .seekLike ∧
      n = Int.natAbs ((s.seekDest.toNat : Int) - s.regs.track.toNat) ∧ n = 79 ∧
      0 ≤ s.drive.track ∧ s.drive.track ≤ s.cfg.maxCyl ∧
      0 ≤ s.drive.track + ((s.seekDest.toNat : Int) - s.regs.track.toNat) ∧
      s.drive.track + ((s.seekDest.toNat : Int) - s.regs.track.toNat) ≤ s.cfg.maxCyl :=
  ⟨seeking 79 0, 500, 79, by decide⟩

theorem witness_RestoreReachesCylinderZero :
    (idle 79).agenda = [] ∧ (idle 79).indexTimer = none ∧ (idle 79).drive.track = ((79 : Nat) : Int) ∧ 79 ≤ 255 ∧
      79 ≤ (idle 79).cfg.maxCyl := by decide

/-- Not selected; not loaded; no such track; the register off the head's cylinder; the wrong density; a protected medium. -/
theorem witness_SectorEntryFails :
    (∃ s : State, s.flags.commandAbort = false ∧ s.ext.driveSelect = false) ∧
    (∃ s : State, s.flags.commandAbort = false ∧ s.drive.isLoaded = false) ∧
    (∃ s : State, s.flags.commandAbort = false ∧ s.ext.driveSelect = true ∧ s.drive.isLoaded = true ∧
      getTrack s.disk s.drive.track (headSelect s) = none) ∧
    ∀ kind : Fin 3, ∃ (s : State) (trk : Track), s.flags.commandAbort = false ∧ s.ext.driveSelect = true ∧
      s.drive.isLoaded = true ∧ getTrack s.disk s.drive.track (headSelect s) = some trk ∧
      (if kind = 0 then recordNotFoundAt s trk = true
       else if kind = 1 then crcErrorAt s trk = true
       else s.lastOp ≠ 0x8 ∧ s.drive.isWriteProtected = true) := by
  refine ⟨⟨State.reset, rfl, rfl⟩, ⟨State.reset, rfl, rfl⟩, ⟨idle 3, rfl, rfl, rfl, by decide⟩, fun kind => ?_⟩
  fin_cases kind
  · exact ⟨entering 0x8 5, _, rfl, rfl, rfl, rfl, by decide⟩
  · exact ⟨{ entering 0x8 1 with ext := { (idle 2).ext with dden := true } }, _, rfl, rfl, rfl, rfl, by decide⟩
  · exact ⟨{ entering 0xA 1 with drive := { (idle 2).drive with isWriteProtected := true } }, _, rfl, rfl, rfl, rfl, by decide⟩

/-- An empty sector. -/
theorem witness_SectorEntryBegins_empty :
    ∃ (s : State) (trk : Track), s.flags.commandAbort = false ∧ s.ext.driveSelect = true ∧ s.drive.isLoaded = true ∧
      getTrack s.disk s.drive.track (headSelect s) = some trk ∧ recordNotFoundAt s trk = false ∧ crcErrorAt s trk = false ∧
      s.lastOp = 0x8 ∧ s.regs.sector ≠ 0 ∧ trk.sectorLens[s.regs.sector.toNat - 1]? = some 0 :=
  ⟨{ entering 0x8 1 with
      disk := { tracks := [{ cyl := 2, head := false, format := .fm500, sectorLens := [0], serial := 0 }], modified := false } },
    _, rfl, rfl, rfl, rfl, by decide, by decide, rfl, by decide, by decide⟩

/-- Sector 0, and the track's last sector. -/
theorem witness_SectorEntryBegins : ∀ sector : Byte, sector = 0 ∨ sector = 4 →
    ∃ (s : State) (trk : Track), s.regs.sector = sector ∧ s.flags.commandAbort = false ∧ s.ext.driveSelect = true ∧
      s.drive.isLoaded = true ∧ getTrack s.disk s.drive.track (headSelect s) = some trk ∧ recordNotFoundAt s trk = false ∧
      crcErrorAt s trk = false ∧ s.lastOp = 0x8 ∧ (sector = 4 → trk.sectorLens[s.regs.sector.toNat - 1]? = some 128) := by
  rintro _ (rfl | rfl)
  · exact ⟨entering 0x8 0, _, rfl, rfl, rfl, rfl, rfl, by decide, by decide, rfl, by decide⟩
  · exact ⟨entering 0x8 4, _, rfl, rfl, rfl, rfl, rfl, by decide, by decide, rfl, by decide⟩

theorem witness_DrqPacing : (idle 2).flags.drq = false ∧ (moving 0x8 0).flags.drq = true ∧
    (moving 0x8 0).drqCounter = 15 + 1 ∧ ({ moving 0x8 0 with drqCounter := 1 } : State).drqCounter = 0 + 1 := by decide

/-- The last byte, read and written; and a command that takes no DMA write. -/
theorem witness_DmaMoves :
    ((moving 0x8 127).flags.drq = true ∧ (moving 0x8 127).phase = .t2Xfer ∧ (moving 0x8 127).lastOp ≠ 0xA ∧
      ∃ x, (moving 0x8 127).xfer = some x ∧ x.idx < x.len) ∧
    ((moving 0xA 127).flags.drq = true ∧ (moving 0xA 127).phase = .t2Xfer ∧ (moving 0xA 127).lastOp = 0xA ∧
      ∃ x, (moving 0xA 127).xfer = some x ∧ x.idx < x.len) :=
  ⟨⟨rfl, rfl, by decide, _, rfl, by decide⟩, rfl, rfl, rfl, _, rfl, by decide⟩

theorem witness_DmaCompleteFinishes : (moving 0xA 5).flags.drq = true ∧ (moving 0xA 5).phase = .t2Xfer := by decide

theorem witness_UnexpectedDmaIsFatal :
    (idle 2).flags.drq = false ∧ (collecting []).flags.drq = true ∧ (collecting []).phase ≠ .t2Xfer := by decide

theorem witness_OverrunMovesNothing : (moving 0xA 128).cfg.ports.Distinct ∧ (moving 0xA 128).flags.drq = true ∧ (moving 0xA 128).phase = .t2Xfer ∧
    (moving 0xA 128).lastOp = 0xA ∧ ∃ x, (moving 0xA 128).xfer = some x ∧ x.len ≤ x.idx :=
  ⟨by decide, rfl, rfl, rfl, _, rfl, by decide⟩

/-- For a PIO read and a PIO write: the byte before the last, and the last. -/
theorem witness_PioMovesNextByte : ∀ op : Nibble, op = 0x8 ∨ op = 0xA →
    (∃ (s : State) (x : Xfer), s.cfg.ports.Distinct ∧ s.lastOp = op ∧ s.flags.drq = true ∧ s.phase = .t2Xfer ∧
      s.xfer = some x ∧ x.idx + 1 < x.len) ∧
    (∃ (s : State) (x : Xfer), s.cfg.ports.Distinct ∧ s.lastOp = op ∧ s.flags.drq = true ∧ s.phase = .t2Xfer ∧
      s.xfer = some x ∧ x.idx + 1 = x.len) :=
  fun op _ => ⟨⟨moving op 126, _, goodParams_cfg.ports, rfl, rfl, rfl, rfl, by decide⟩,
    ⟨moving op 127, _, goodParams_cfg.ports, rfl, rfl, rfl, rfl, by decide⟩⟩

/-- A sector of two bytes, then one more event. -/
theorem witness_PioWriteStoresSector :
    ∃ (s : State) (x : Xfer) (bytes : List Byte) (rest : List Event), s.cfg.ports.Distinct ∧
      s.flags.drq = true ∧ s.phase = .t2Xfer ∧
      s.lastOp = 0xA ∧ s.xfer = some x ∧ x.idx = 0 ∧ x.len = bytes.length ∧ 0 < x.len ∧
      s.agenda = bytes.map (fun b => .portWrite s.cfg.ports.data b) ++ rest :=
  ⟨{ moving 0xA 0 with
      xfer := some { cyl := 2, head := false, sidx := 255, len := 2, idx := 0 }
      agenda := [.portWrite 0x87 0x11, .portWrite 0x87 0x22, .indexEdge] },
    _, [0x11, 0x22], [.indexEdge], goodParams_cfg.ports, rfl, rfl, rfl, rfl, rfl, rfl, by decide, rfl⟩

set_option maxRecDepth 20000 in
/-- The steps of the whole-machine statements: a write's last byte, a format, a head step, from states of the
invariant; and a tick that changes neither the disk nor the interrupt count. -/
theorem witness_OnlyTransfersAndFormatsChangeTheDisk :
    (∃ s t : State, s.Inv ∧ step s = .next t ∧ t.mem ≠ s.mem) ∧
    (∃ s t : State, s.Inv ∧ step s = .next t ∧ t.disk.tracks ≠ s.disk.tracks) ∧
    (∃ s t : State, s.Inv ∧ step s = .next t ∧ t.mem = s.mem ∧ t.disk.tracks = s.disk.tracks) :=
  ⟨⟨{ moving 0xA 127 with agenda := [.portWrite 0x87 0x55] }, _, inv_agenda inv_moving _, rfl, by decide⟩,
    ⟨{ collecting stream with agenda := [.indexEdge] }, _, inv_agenda inv_collecting _, rfl, by decide⟩,
    ⟨seeking 5 0, _, inv_seeking 5 0, rfl, by decide⟩⟩

theorem witness_WriteTrackEntry :
    (preparing.flags.commandAbort = false ∧ preparing.ext.driveSelect = true ∧ preparing.drive.isLoaded = true ∧
      preparing.drive.isWriteProtected = false) ∧
    (State.reset.flags.commandAbort = false ∧ State.reset.ext.driveSelect = false ∧ State.reset.drive.isLoaded = false) ∧
    (∃ s : State, s.flags.commandAbort = false ∧ s.ext.driveSelect = true ∧ s.drive.isLoaded = true ∧
      s.drive.isWriteProtected = true) :=
  ⟨by decide, by decide, { preparing with drive := { (idle 1).drive with isWriteProtected := true } }, rfl, rfl, rfl, rfl⟩

/-- An empty buffer; one as long as the parameter allows. -/
theorem witness_StreamByteCollected :
    (collecting []).cfg.ports.Distinct ∧ (∃ (s : State) (w : WtBuffer), s.flags.drq = true ∧ s.phase = .t3Collect ∧ s.wt = some w ∧ w.bytes.length < s.cfg.wtBufSize) ∧
    (∃ (s : State) (w : WtBuffer), s.flags.drq = true ∧ s.phase = .t3Collect ∧ s.wt = some w ∧ s.cfg.wtBufSize ≤ w.bytes.length) :=
  ⟨goodParams_cfg.ports, ⟨collecting [], _, rfl, rfl, rfl, by decide⟩,
    ⟨{ collecting [0xFF, 0xFC] with cfg := { cfg with wtBufSize := 2 } }, _, rfl, rfl, rfl, by decide⟩⟩

theorem witness_IndexEdgeElsewhere : preparing.phase ≠ .t3Collect ∧ (idle 2).phase ≠ .t3Collect := by decide

set_option maxRecDepth 20000 in
theorem witness_IndexEdgeFormats :
    (∀ b : Bool, ∃ (s : State) (w : WtBuffer), s.phase = .t3Collect ∧ s.wt = some w ∧ s.drive.isLoaded = b ∧
      parseTrack { dden := s.ext.dden, track := s.regs.track, side := w.side } w.bytes = .ok (1, 128)) ∧
    (∃ (s : State) (w : WtBuffer), s.phase = .t3Collect ∧ s.wt = some w ∧
      parseTrack { dden := s.ext.dden, track := s.regs.track, side := w.side } w.bytes = .error .wtNoSectors) :=
  ⟨fun b => ⟨{ collecting stream with drive := { (idle 1).drive with isLoaded := b } }, _, rfl, rfl, rfl, by
      change parseTrack parserEnv stream = _; decide⟩,
    ⟨collecting [0xFF], _, rfl, rfl, by decide⟩⟩

theorem witness_FirstByteIsGap :
    parserStart.mode = .gap4 ∧ (0x4E : Byte) ≠ (if parserEnv.dden then 0x4E else 0xFF) ∧
      ({ parserStart with mode := .indexMark } : Parser).mode ≠ .gap4 ∧
      ({ parserStart with mode := .idField [1, 0, 1] } : Parser).mode ≠ .gap4 := by decide

theorem witness_ParserAcceptsLayout : 1 ≤ 1 ∧ 1 ≤ 255 ∧ 255 ≤ 255 ∧ (0 : Byte).toNat ≤ 3 ∧ (3 : Byte).toNat ≤ 3 ∧ (0xE5 : Byte) ≠ 0xF7 := by
  decide

set_option maxRecDepth 20000 in
/-- An accepted stream, and each way a byte or the end of a stream can be a violation. -/
theorem witness_AcceptedStreamIsALayout :
    parseTrack parserEnv stream = .ok (1, 128) ∧
    (∃ p : Parser, p.mode = .idField [1, 0, 1] ∧ p.size ≠ none ∧ p.size ≠ some (128 * 2 ^ (3 : Byte).toNat) ∧
      p.size = some (128 * 2 ^ (0 : Byte).toNat) ∧ 1 ∈ p.seen ∧ parserEnv.track = 1 ∧ sideByte parserEnv.side = 0) ∧
    (∃ p : Parser, p.mode = .dataRecord 127 ∧ p.size ≠ some 127) ∧
    (∃ p : Parser, parseBytes parserEnv parserStart [] = .ok p ∧ parseByte parserEnv p 0x4E = .error .wtBadGap) ∧
    (∃ p : Parser, parseBytes parserEnv parserStart [0xFF, 0xFC, 0xFE, 1, 0, 2, 0] = .ok p ∧ p.mode = .dataRecordMark) ∧
    (∃ p : Parser, parseBytes parserEnv parserStart [0xFF] = .ok p ∧ p.mode = .indexMark ∧ p.size = none) ∧
    (∃ p : Parser, parseBytes parserEnv parserStart ([0xFF, 0xFC] ++ idBytes 1 0 2 0 ++ dataBytes 128) = .ok p ∧
      p.mode = .idRecordMark ∧ p.size ≠ none ∧ 1 ≤ p.seen.length ∧ ∀ n ∈ p.seen, n.toNat ≠ 1) := by
  refine ⟨by decide, ⟨{ mode := .idField [1, 0, 1], size := some 128, seen := [1] }, by decide⟩,
    ⟨{ mode := .dataRecord 127, size := some 128, seen := [1] }, by decide⟩, ⟨parserStart, by decide⟩,
    ⟨{ mode := .dataRecordMark, size := some 128, seen := [2] }, by decide⟩,
    ⟨{ mode := .indexMark, size := none, seen := [] }, by decide⟩,
    ⟨{ mode := .idRecordMark, size := some 128, seen := [2] }, by decide⟩⟩

theorem witness_LatchByteCarriesItsFields : cfg.extStateBits.Distinct := by decide

/-- A byte that enables the chip and selects a drive, and one that enables it and selects none, on a disabled block. -/
theorem witness_ChipEnableStartsRestore : ∃ s : State, s.cfg.ports.Distinct ∧ s.flags.fdcEnabled = false ∧ s.flags.busy = false ∧
    (latchFields s.cfg.extStateBits 0x30).chipEn = true ∧ (latchFields s.cfg.extStateBits 0x30).driveSelect = true ∧
    (latchFields s.cfg.extStateBits 0x10).chipEn = true ∧ (latchFields s.cfg.extStateBits 0x10).driveSelect = false :=
  ⟨{ idle 2 with flags := Flags.clear }, by decide⟩

theorem witness_LatchWriteIdempotent :
    (seeking 2 5).cfg.ports.Distinct ∧ (latchFields (seeking 2 5).cfg.extStateBits 0x3C).chipEn = (seeking 2 5).flags.fdcEnabled ∧
    (∃ s : State, (latchFields s.cfg.extStateBits 0x28).chipEn = s.flags.fdcEnabled ∧ s.flags.fdcEnabled = false) :=
  ⟨by decide, by decide, { idle 2 with flags := Flags.clear }, by decide, rfl⟩

theorem witness_ResetClearsTheBlock :
    (∃ s : State, s.masterReset = true) ∧ (idle 2).masterReset = false ∧
    ((seeking 2 5).cfg.ports.Distinct ∧ (seeking 2 5).flags.fdcEnabled = true ∧ (latchFields (seeking 2 5).cfg.extStateBits 0x20).chipEn = false) :=
  ⟨⟨{ idle 2 with masterReset := true }, rfl⟩, by decide, by decide⟩

theorem witness_ExternalStatusRead : (idle 2).cfg.ports.Distinct ∧ (idle 2).cfg.extStatusBits.Distinct := by decide

/-- No timer; the worker first; the index timer first; time passing to exactly the due time of the earlier one. -/
theorem witness_TickFiresEarliestTimer :
    ((idle 2).workerTimer = none ∧ (idle 2).indexTimer = none) ∧
    (∃ (s : State) (w : WorkerTimer), s.workerTimer = some w ∧ s.now ≤ w.due ∧ s.indexTimer = some 501 ∧ w.due < 501) ∧
    (∃ (s : State) (w : WorkerTimer), s.workerTimer = some w ∧ s.indexTimer = some 0 ∧ s.now ≤ 0 ∧ 0 < w.due) ∧
    (∃ (s : State) (w : WorkerTimer), s.workerTimer = some w ∧ s.now + 500 = w.due ∧ s.indexTimer = some 501 ∧
      s.now + 500 ≤ 501) :=
  ⟨by decide, ⟨{ seeking 2 5 with indexTimer := some 501 }, _, rfl, by decide, rfl, by decide⟩,
    ⟨{ seeking 2 5 with indexTimer := some 0 }, _, rfl, rfl, by decide, by decide⟩,
    ⟨{ seeking 2 5 with indexTimer := some 501 }, _, rfl, rfl, rfl, by decide⟩⟩

set_option maxRecDepth 20000 in
/-- The three completions, each from a state of the invariant. -/
theorem witness_OnlyCompletionsInterrupt :
    (∃ s t : State, s.Inv ∧ step s = .next t ∧ t.intEvents ≠ s.intEvents ∧ s.phase = .t1Run) ∧
    (∃ s t : State, s.Inv ∧ step s = .next t ∧ t.intEvents ≠ s.intEvents ∧ s.phase = .t2Xfer) ∧
    (∃ s t : State, s.Inv ∧ step s = .next t ∧ t.intEvents ≠ s.intEvents ∧ s.phase = .t3Collect) :=
  ⟨⟨seeking 5 5, _, inv_seeking 5 5, rfl, by decide, rfl⟩,
    ⟨{ moving 0xA 127 with agenda := [.portWrite 0x87 0x55] }, _, inv_agenda inv_moving _, rfl, by decide, rfl⟩,
    ⟨{ collecting stream with agenda := [.indexEdge] }, _, inv_agenda inv_collecting _, rfl, by decide, rfl⟩⟩

/-- A block with the interrupt pending, this event next. -/
def pending (e : Event) : State :=
  { idle 2 with flags := { (idle 2).flags with interruptPending := true }, masterReset := true, agenda := [e] }

theorem witness_OnlyAcknowledgesClearInterrupt :
    ∀ e ∈ [Event.portRead 0x84, .reset, .masterReset false, .portWrite 0x84 0x10, .portWrite 0xE8 0x00],
      (pending e).flags.interruptPending = true ∧ isNext (step (pending e)) (fun t => !t.flags.interruptPending) = true := by
  decide

theorem witness_OnlyTheWorkerMovesTheHead : isNext (step (seeking 5 0)) (fun t => decide (t.drive.track ≠ 5)) = true := by decide

theorem witness_TimeAndParametersKeep : isNext (step (seeking 5 0)) (fun t => decide (t.now = 500)) = true := by decide

theorem witness_AfterForceInterruptNothingFires :
    (seeking 5 0).agenda = [] ∧ (seeking 5 0).indexTimer = none ∧ ∃ t, exec (.fint 0) (seeking 5 0) = .next t :=
  ⟨rfl, rfl, _, rfl⟩

theorem witness_PowerOnState : GoodParams cfg ∧ (State.powerOn cfg).stepDir = .outward := ⟨goodParams_cfg, rfl⟩

theorem witness_StepKeepsInvariant : ∃ s t : State, s.Inv ∧ step s = .next t := ⟨seeking 5 0, _, inv_seeking 5 0, rfl⟩

end Sys2Proof.Tests
end

