-- ==== Sys2Proof/Proofs/Scope.lean ====
section
/-! SUPPORT. The schedule of the agents (R6, R58, R301) and the machine at power-on (R26, R311, R312). -/

namespace Sys2Proof.Machine

/-! ### The schedule -/

/-- With a step scheduled, the agent at the head moves and its step leaves the schedule (log 2). -/
theorem step_of_agenda_cons {s : State} {e : Event} {rest : List Event} (h : s.agenda = e :: rest) :
    step s = agentStep e { s with agenda := rest } := by
  simp only [step, nextStep, h]

/-- With no step scheduled, the timer agent moves (R22; log 2). -/
theorem step_of_agenda_nil {s : State} (h : s.agenda = []) : step s = tick s := by
  simp only [step, nextStep, h]

/-- Settles O5: the two branches of the schedule. -/
theorem scheduledAgentMoves : Obligations.ScheduledAgentMoves :=
  ⟨fun _ _ _ h => step_of_agenda_cons h, fun _ h => step_of_agenda_nil h⟩

/-! ### The default parameters -/

@[simp] theorem standardMap_opcodeOf (n : Nibble) : Config.standardMap.opcodeOf n = n := by
  revert n; decide

/-- The default opcode assignment is one of decision D1's: it changes no nibble. -/
theorem standardMap_good : Config.standardMap.Good where
  injective a b h := by simpa using h
  typeI a := by rw [standardMap_opcodeOf]
  update a _ _ := by rw [standardMap_opcodeOf]

/-- The open places of the latch's fields are distinct, since a permutation gives them (R91). -/
theorem extStateBits_distinct : Config.extStateBits.Distinct :=
  List.Nodup.map (l := [0, 1, 2, 3, 4, 5]) Config.extStateOrder.injective (by decide)

/-- The open places of the external status's fields are distinct, since a permutation gives them (R91). -/
theorem extStatusBits_distinct : Config.extStatusBits.Distinct :=
  List.Nodup.map (l := [0, 1, 2, 3]) Config.extStatusOrder.injective (by decide)

theorem goodParams_params : GoodParams Config.params where
  ports := by decide
  opcodeMap := standardMap_good
  extState := extStateBits_distinct
  extStatus := extStatusBits_distinct
  reload := by decide

/-! ### Power-on -/

/-- Idle, with no timer and no buffer: every clause of R19 holds by the phase. -/
theorem powerOn_sequencerInv (p : Config.Params) : SequencerInv (State.powerOn p) where
  busy := rfl
  drq := rfl
  worker := rfl
  xfer := rfl
  wt := rfl
  quiet := by rintro ⟨⟨⟩, _⟩
  abort := by rintro ⟨⟩
  command := trivial

/-- The pacing counter stands at its reload value, which must be able to count (R25); nothing else is present. -/
theorem powerOn_rangeInv {p : Config.Params} (h : 1 ≤ p.drqReload) : RangeInv (State.powerOn p) where
  xfer := by rintro x ⟨⟩
  wt := by rintro w ⟨⟩
  counter := ⟨h, Nat.le_refl _⟩
  worker := by rintro w ⟨⟩
  index := by rintro t ⟨⟩

theorem powerOn_latchInv (p : Config.Params) : LatchInv (State.powerOn p) := ⟨rfl, rfl, rfl, rfl, rfl⟩

/-- The medium has no track and no stored byte. -/
theorem powerOn_mediumInv (p : Config.Params) : MediumInv (State.powerOn p) where
  mem := List.Pairwise.nil
  tracks := List.Pairwise.nil
  serials := by rintro t ⟨⟩

theorem powerOn_inv {p : Config.Params} (h : GoodParams p) : (State.powerOn p).Inv where
  params := h
  sequencer := powerOn_sequencerInv p
  range := powerOn_rangeInv h.reload
  latch := powerOn_latchInv p
  medium := powerOn_mediumInv p

/-- Settles O59: the invariant under good parameters, of which the defaults are one choice, and R26's table read off
the power-on state. -/
theorem powerOnState : Obligations.PowerOnState := by
  refine ⟨rfl, powerOn_inv goodParams_params, rfl, fun p h => powerOn_inv h, ?_⟩
  rintro p s rfl
  exact ⟨rfl, rfl, rfl, rfl, rfl, rfl, rfl, rfl, rfl, rfl, rfl, rfl, rfl, rfl, rfl, rfl, rfl⟩

end Sys2Proof.Machine
end

