-- ==== Sys2Proof/Proofs/State.lean ====
section
/-! SUPPORT. The state of the block over a step (10_state.md): reset (R311), the timer agent (R20 to R22), time and the
parameters (R5, R22), and the invariant (R19). -/

namespace Sys2Proof.Machine

/-! ### Reset (R311) -/

/-- The latch write that comes before a chip disable leaves no trace: `Reset()` writes both fields again (R260, R268). -/
theorem resetBlock_latchWrite (e : ExtLatch) (s : State) : resetBlock (latchWrite e s) = resetBlock s := rfl

theorem masterResetLevel_falling {s : State} (h : s.masterReset = true) :
    masterResetLevel false s = { resetBlock s with masterReset := false } := if_pos ⟨h, rfl⟩

theorem masterResetLevel_of_low {s : State} (h : s.masterReset = false) (high : Bool) :
    masterResetLevel high s = { s with masterReset := high } := if_neg fun hc => by simp [h] at hc

/-- A latch byte without chip enable resets an enabled block (R268). -/
theorem extWrite_disables {s : State} {b : Byte} (hf : s.flags.fdcEnabled = true)
    (hc : (latchFields s.cfg.extStateBits b).chipEn = false) : extWrite b s = .next (resetBlock s) := by
  have hd : chipDisable (latchWrite (latchFields s.cfg.extStateBits b) s) = resetBlock s := if_pos hf
  simp only [extWrite, latchWrite, hc, Bool.false_eq_true, if_false] at hd ⊢
  rw [hd]

/-- Settles O51: each of the three causes comes down to `Reset()`, whose fields the statement writes out. -/
theorem resetClearsTheBlock : Obligations.ResetClearsTheBlock := by
  intro s r hr
  obtain rfl : r = resetBlock s := hr
  refine ⟨rfl, fun hm => ?_, fun hm high => ?_, fun b hp hf hc => ?_⟩
  · exact congrArg _ (masterResetLevel_falling hm)
  · exact congrArg _ (masterResetLevel_of_low hm high)
  · rw [agentStep_write_ext hp, extWrite_disables hf hc]

/-! ### The timer agent (R20 to R22) -/

theorem advanceTo_of_le {t : Nat} {s : State} (h : s.now ≤ t) : advanceTo t s = { s with now := t } := by
  rw [advanceTo, Nat.max_eq_right h]

theorem nextTimer_of_none {s : State} (hw : s.workerTimer = none) (hi : s.indexTimer = none) : nextTimer s = none := by
  simp [nextTimer, hw, hi]

/-- A worker timer due before the index timer is the next one (R22). -/
theorem nextTimer_of_worker_first {s : State} {w : WorkerTimer} (hw : s.workerTimer = some w)
    (hlt : ∀ i, s.indexTimer = some i → w.due < i) : nextTimer s = some (w.due, .worker w.kind) := by
  unfold nextTimer
  cases hi : s.indexTimer with
  | none => simp [hw]
  | some i => simp [hw, hlt i hi]

/-- An index timer due before the worker timer is the next one (R22). -/
theorem nextTimer_of_index_first {s : State} {i : Nat} (hi : s.indexTimer = some i)
    (hlt : ∀ w, s.workerTimer = some w → i < w.due) : nextTimer s = some (i, .index) := by
  unfold nextTimer
  cases hw : s.workerTimer with
  | none => simp [hi]
  | some w => simp [hi, hlt w hw, Nat.not_lt_of_gt (hlt w hw)]

/-- Time that ends at or before every due time passes whole (R22). -/
theorem elapse_of_le {ns : Nat} {s : State} (hw : ∀ w, s.workerTimer = some w → s.now + ns ≤ w.due)
    (hi : ∀ i, s.indexTimer = some i → s.now + ns ≤ i) : elapse ns s = { s with now := s.now + ns } := by
  have hadv : advanceTo (s.now + ns) s = { s with now := s.now + ns } := advanceTo_of_le (Nat.le_add_right _ _)
  unfold elapse
  rcases nextTimer_cases s with ⟨hn, -, -⟩ | ⟨w, hn, hw', -⟩ | ⟨i, hn, hi', -⟩ <;> rw [hn]
  · exact hadv
  · simp only [Nat.min_eq_left (hw w hw'), hadv]
  · simp only [Nat.min_eq_left (hi i hi'), hadv]

/-- Settles O53: which timer is next decides what a tick fires, and `now` goes to its due time. -/
theorem tickFiresEarliestTimer : Obligations.TickFiresEarliestTimer := by
  refine fun s => ⟨fun hw hi => ?_, fun w hw hle hlt => ?_, fun i hi hle hlt => ?_, fun ns hw hi => ?_⟩
  · simp only [agentStep, tick, nextTimer_of_none hw hi]
  · simp only [agentStep, tick, nextTimer_of_worker_first hw hlt, advanceTo_of_le hle]
  · simp only [agentStep, tick, nextTimer_of_index_first hi hlt, advanceTo_of_le hle, fireIndex]
  · simp only [agentStep, elapse_of_le hw hi]

end Sys2Proof.Machine
end

