-- ==== Sys2Proof/Proofs/Invariant.lean ====
section
/-! SUPPORT. Every step keeps the invariant (R19): what each phase fixes, what each shared operation keeps, then the
operations of the agents by the cases of Laws/Ops. -/

namespace Sys2Proof.Machine

/-! ### What each phase fixes (R18, R19) -/

/-- In IDLE everything is absent. -/
theorem sequencerInv_idle_iff {s : State} (hp : s.phase = .idle) :
    SequencerInv s ↔ s.flags.busy = false ∧ s.flags.drq = false ∧ s.workerTimer = none ∧ s.xfer = none ∧ s.wt = none := by
  constructor
  · intro h
    exact ⟨by simpa [hp] using h.busy, by simpa [hp] using h.drq, by simpa [hp, Phase.timer] using h.worker,
      by simpa [hp] using h.xfer, by simpa [hp] using h.wt⟩
  · rintro ⟨hb, hd, hw, hx, ht⟩
    exact ⟨by simp [hp, hb], by simp [hp, hd], by simp [hp, hw, Phase.timer], by simp [hp, hx], by simp [hp, ht],
      by simp [hb], fun _ => hp, by simp [hp, Phase.allows]⟩

/-- In T1_RUN, T2_ACCEPT and T3_ACCEPT the worker timer runs, and no data moves. -/
theorem sequencerInv_waiting_iff {s : State} {k : TimerKind} (hp : s.phase.timer = some k) :
    SequencerInv s ↔ s.flags.busy = true ∧ s.flags.drq = false ∧ s.workerTimer.map WorkerTimer.kind = some k ∧
      s.xfer = none ∧ s.wt = none ∧ s.flags.interruptPending = false ∧ s.flags.commandAbort = false ∧
      s.phase.allows s.lastOp := by
  have hphase : s.phase ≠ .idle ∧ s.phase ≠ .t2Xfer ∧ s.phase ≠ .t3Collect := by
    refine ⟨?_, ?_, ?_⟩ <;> intro h <;> simp [h, Phase.timer] at hp
  obtain ⟨h1, h2, h3⟩ := hphase
  constructor
  · intro h
    have hb : s.flags.busy = true := by simpa [h1] using h.busy
    exact ⟨hb, by simpa [h2, h3] using h.drq, h.worker.trans hp, by simpa [h2] using h.xfer, by simpa [h3] using h.wt,
      by simpa [hb] using h.quiet, by simpa [h1] using h.abort, h.command⟩
  · rintro ⟨hb, hd, hw, hx, ht, hq, ha, hc⟩
    exact ⟨by simp [h1, hb], by simp [h2, h3, hd], hw.trans hp.symm, by simp [h2, hx], by simp [h3, ht], by simp [hq],
      by simp [ha], hc⟩

/-- In T2_XFER a sector command moves data through the sector buffer. -/
theorem sequencerInv_t2Xfer_iff {s : State} (hp : s.phase = .t2Xfer) :
    SequencerInv s ↔ s.flags.busy = true ∧ s.flags.drq = true ∧ s.workerTimer = none ∧ s.xfer.isSome = true ∧
      s.wt = none ∧ s.flags.interruptPending = false ∧ s.flags.commandAbort = false ∧
      (s.lastOp = 0x8 ∨ s.lastOp = 0xA) := by
  constructor
  · intro h
    have hb : s.flags.busy = true := by simpa [hp] using h.busy
    exact ⟨hb, by simpa [hp] using h.drq, by simpa [hp, Phase.timer] using h.worker, by simpa [hp] using h.xfer,
      by simpa [hp] using h.wt, by simpa [hb] using h.quiet, by simpa [hp] using h.abort,
      by simpa [hp, Phase.allows] using h.command⟩
  · rintro ⟨hb, hd, hw, hx, ht, hq, ha, hc⟩
    exact ⟨by simp [hp, hb], by simp [hp, hd], by simp [hp, hw, Phase.timer], by simp [hp, hx], by simp [hp, ht],
      by simp [hq], by simp [ha], by simpa [hp, Phase.allows] using hc⟩

/-- In T3_COLLECT a WRITE TRACK collects its stream in the write-track buffer. -/
theorem sequencerInv_t3Collect_iff {s : State} (hp : s.phase = .t3Collect) :
    SequencerInv s ↔ s.flags.busy = true ∧ s.flags.drq = true ∧ s.workerTimer = none ∧ s.xfer = none ∧
      s.wt.isSome = true ∧ s.flags.interruptPending = false ∧ s.flags.commandAbort = false ∧ s.lastOp = 0xF := by
  constructor
  · intro h
    have hb : s.flags.busy = true := by simpa [hp] using h.busy
    exact ⟨hb, by simpa [hp] using h.drq, by simpa [hp, Phase.timer] using h.worker, by simpa [hp] using h.xfer,
      by simpa [hp] using h.wt, by simpa [hb] using h.quiet, by simpa [hp] using h.abort,
      by simpa [hp, Phase.allows] using h.command⟩
  · rintro ⟨hb, hd, hw, hx, ht, hq, ha, hc⟩
    exact ⟨by simp [hp, hb], by simp [hp, hd], by simp [hp, hw, Phase.timer], by simp [hp, hx], by simp [hp, ht],
      by simp [hq], by simp [ha], by simpa [hp, Phase.allows] using hc⟩

theorem SequencerInv.idle_of_not_busy {s : State} (h : SequencerInv s) (hb : s.flags.busy = false) : s.phase = .idle := by
  simpa [hb] using h.busy

theorem SequencerInv.t2Xfer_of_xfer {s : State} {x : Xfer} (h : SequencerInv s) (hx : s.xfer = some x) :
    s.phase = .t2Xfer := by
  simpa [hx] using h.xfer

/-- A running worker timer is the one its phase waits for. -/
theorem SequencerInv.timer_of_worker {s : State} {w : WorkerTimer} (h : SequencerInv s) (hw : s.workerTimer = some w) :
    s.phase.timer = some w.kind := by
  simpa [hw] using h.worker.symm

theorem Phase.timer_eq_sectorEntry {p : Phase} : p.timer = some .sectorEntry ↔ p = .t2Accept := by
  cases p <;> simp [Phase.timer]

theorem Phase.timer_eq_wtEntry {p : Phase} : p.timer = some .wtEntry ↔ p = .t3Accept := by
  cases p <;> simp [Phase.timer]

/-! ### What the invariant does not read, or reads in one clause only -/

/-- The registers, the parameter latches, the positioning context, the levels from outside, the outputs and the schedule
are not in the invariant. -/
theorem State.Inv.unread {s : State} (h : s.Inv) (regs : Regs) (cmd : CmdLatch) (stepDir : Config.StepDir)
    (seekDest : Byte) (t1Kind : T1Kind) (stepPending dmaTc masterReset : Bool) (reply : Reply)
    (intEvents : List Config.IntLine) (agenda : List Event) :
    ({ s with
      regs := regs, cmd := cmd, stepDir := stepDir, seekDest := seekDest, t1Kind := t1Kind, stepPending := stepPending
      dmaTc := dmaTc, masterReset := masterReset, reply := reply, intEvents := intEvents, agenda := agenda } :
        State).Inv where
  params := h.params
  sequencer := { h.sequencer with }
  range := { h.range with }
  latch := { h.latch with }
  medium := { h.medium with }

/-- Of the drive the invariant reads the select line alone (R260). -/
theorem State.Inv.drive {s : State} (h : s.Inv) {d : Drive} (hd : d.driveSelect = s.drive.driveSelect) :
    ({ s with drive := d } : State).Inv where
  params := h.params
  sequencer := { h.sequencer with }
  range := { h.range with }
  latch := { h.latch with select := hd.trans h.latch.select }
  medium := { h.medium with }

/-- The interrupt may be acknowledged at any time (R120). -/
theorem State.Inv.acknowledge {s : State} (h : s.Inv) :
    ({ s with flags := { s.flags with interruptPending := false } } : State).Inv where
  params := h.params
  sequencer := { h.sequencer with quiet := by simp }
  range := { h.range with }
  latch := { h.latch with }
  medium := { h.medium with }

/-- A free byte may be drawn at any time: the tracks' serial numbers stay behind the counter. -/
theorem State.Inv.drawFree {s : State} (h : s.Inv) : ({ s with freeCount := s.freeCount + 1 } : State).Inv where
  params := h.params
  sequencer := { h.sequencer with }
  range := { h.range with }
  latch := { h.latch with }
  medium := { h.medium with serials := fun t ht => Nat.le_succ_of_le (h.medium.serials t ht) }

/-- The pacing counter may be set within its range (R25). -/
theorem State.Inv.counter {s : State} (h : s.Inv) {n : Nat} (h1 : 1 ≤ n) (hn : n ≤ s.cfg.drqReload) :
    ({ s with drqCounter := n } : State).Inv where
  params := h.params
  sequencer := { h.sequencer with }
  range := { h.range with counter := ⟨h1, hn⟩ }
  latch := { h.latch with }
  medium := { h.medium with }

/-- Time may move up to the earliest due time (R22). -/
theorem State.Inv.clock {s : State} (h : s.Inv) {n : Nat} (hw : ∀ w, s.workerTimer = some w → n ≤ w.due)
    (hi : ∀ i, s.indexTimer = some i → n ≤ i) : ({ s with now := n } : State).Inv where
  params := h.params
  sequencer := { h.sequencer with }
  range := { h.range with worker := hw, index := hi }
  latch := { h.latch with }
  medium := { h.medium with }

/-- The override and its timer come and go together (R264, R267). -/
theorem State.Inv.override {s : State} (h : s.Inv) {b : Bool} {i : Option Nat} (hb : b = i.isSome)
    (hi : ∀ t, i = some t → s.now ≤ t) :
    ({ s with flags := { s.flags with indexReset := b }, indexTimer := i } : State).Inv where
  params := h.params
  sequencer := { h.sequencer with }
  range := { h.range with index := hi }
  latch := { h.latch with override := hb }
  medium := { h.medium with }

/-- The latch, the drive's select and the enable flag are written together (R260). -/
theorem State.Inv.latchWrite {s : State} (h : s.Inv) {e : ExtLatch} {b : Bool} (hb : b = e.chipEn) :
    ({ Machine.latchWrite e s with flags := { s.flags with fdcEnabled := b } } : State).Inv where
  params := h.params
  sequencer := { h.sequencer with }
  range := { h.range with }
  latch := { h.latch with select := rfl, enabled := hb }
  medium := { h.medium with }

/-- A stored byte keeps the medium's form (R57). -/
theorem State.Inv.storeXferByte {s : State} (h : s.Inv) (x : Xfer) (b : Byte) :
    (Machine.storeXferByte x b s).Inv where
  params := h.params
  sequencer := { h.sequencer with }
  range := { h.range with }
  latch := { h.latch with }
  medium := { h.medium with mem := memWrite_wf _ _ _ h.medium.mem }

/-- A formatted track keeps the medium's form, its serial number the newest (R231). -/
theorem State.Inv.formatTrack {s : State} (h : s.Inv) (fmt : TrackFormat) (cyl : Nat) (head : Bool) (count size : Nat) :
    (Machine.formatTrack fmt cyl head count size s).Inv where
  params := h.params
  sequencer := { h.sequencer with }
  range := { h.range with }
  latch := { h.latch with }
  medium :=
    { mem := memErase_wf _ _ _ h.medium.mem
      tracks := putTrack_sorted _ _ h.medium.tracks
      serials := fun t ht => by
        rcases mem_putTrack _ _ _ ht with rfl | ht
        · exact Nat.le_refl _
        · exact Nat.le_succ_of_le (h.medium.serials t ht) }

/-! ### Commands (R114, R118, R250) -/

/-- An idle block that accepts a command waits for its worker timer (R118). -/
theorem State.Inv.accept {s : State} (h : s.Inv) (hb : s.flags.busy = false) {p : Phase} {k : TimerKind} {op : Nibble}
    (hp : p.timer = some k) (hop : p.allows op) (d : Nat) :
    (startTimer d k { acceptFlags (recordCommand op s) with phase := p }).Inv where
  params := h.params
  sequencer := by
    obtain ⟨-, hd, -, hx, ht⟩ := (sequencerInv_idle_iff (h.sequencer.idle_of_not_busy hb)).mp h.sequencer
    exact (sequencerInv_waiting_iff hp).mpr ⟨rfl, hd, rfl, hx, ht, rfl, rfl, hop⟩
  range := { h.range with worker := by rintro w ⟨⟩; exact Nat.le_add_right _ _ }
  latch := { h.latch with }
  medium := { h.medium with }

/-- A Type I opcode is one of T1_RUN's (R140). -/
theorem State.Inv.acceptTypeI {s : State} (h : s.Inv) (hb : s.flags.busy = false) {op : Nibble} (hop : op.toNat < 8)
    (u hl v : Bool) : (startTypeI (Machine.acceptTypeI op u hl v s)).Inv :=
  (h.accept hb (p := .t1Run) rfl hop _).unread ..

/-- FORCE INTERRUPT leaves an idle block, whatever was in flight (R250). -/
theorem State.Inv.execFint {s t : State} (h : s.Inv) {c : Nat} (e : Machine.execFint c s = .next t) : t.Inv := by
  obtain rfl := next_inj.mp e
  exact {
    params := h.params
    sequencer := (sequencerInv_idle_iff rfl).mpr ⟨rfl, rfl, rfl, rfl, rfl⟩
    range := { h.range with xfer := nofun, wt := nofun, worker := nofun }
    latch := { h.latch with }
    medium := { h.medium with } }

/-- A command run on a block that is not busy keeps the invariant: each accepted one starts its phase's timer. -/
theorem State.Inv.exec {s t : State} (h : s.Inv) {i : Instr} (hb : s.flags.busy = false)
    (e : Machine.exec i s = .next t) : t.Inv := by
  cases i with
  | restore hl v x => obtain rfl := next_inj.mp e; exact (h.acceptTypeI hb (op := 0x0) (by decide) false hl v).unread ..
  | seek hl v x => obtain rfl := next_inj.mp e; exact (h.acceptTypeI hb (op := 0x1) (by decide) true hl v).unread ..
  | step u hl v x =>
    obtain rfl := next_inj.mp e
    exact (h.acceptTypeI hb (op := if u then 0x3 else 0x2) (by cases u <;> decide) u hl v).unread ..
  | stepIn u hl v x =>
    obtain rfl := next_inj.mp e
    exact (h.acceptTypeI hb (op := if u then 0x5 else 0x4) (by cases u <;> decide) u hl v).unread ..
  | stepOut u hl v x =>
    obtain rfl := next_inj.mp e
    exact (h.acceptTypeI hb (op := if u then 0x7 else 0x6) (by cases u <;> decide) u hl v).unread ..
  | rdSec l e' sso a => obtain rfl := next_inj.mp e; exact (h.accept hb (p := .t2Accept) rfl (.inl rfl) _).unread ..
  | wrSec l e' sso a => obtain rfl := next_inj.mp e; exact (h.accept hb (p := .t2Accept) rfl (.inr rfl) _).unread ..
  | wrTrk l e' sso a => obtain rfl := next_inj.mp e; exact (h.accept hb (p := .t3Accept) rfl rfl _).unread ..
  | fint c => exact h.execFint (c := c) e
  | rdSecM l e' sso a => cases e
  | wrSecM l e' sso a => cases e
  | rdAddr l e' sso a => cases e
  | rdTrk l e' sso a => cases e

/-- The opcode nibble 0xD is FORCE INTERRUPT (R82). -/
theorem decodeByte_of_opcode_fint {c : Byte} (hc : opcodeNibble c = 0xD) : decodeByte c = .fint (lowFour c) := by
  simp [decodeByte, hc]

theorem State.Inv.dispatch {s t : State} (h : s.Inv) {c : Byte} (e : Machine.dispatch c s = .next t) : t.Inv := by
  obtain ⟨-, -, rfl⟩ | ⟨hb | hc, e⟩ := dispatch_cases e
  · exact h
  · exact h.exec hb e
  · rw [decodeByte_of_opcode_fint hc] at e
    exact h.execFint (c := lowFour c) e

/-! ### The worker timer's step (R20) -/

theorem State.Inv.restartTimer {s : State} (h : s.Inv) {k : TimerKind} (hp : s.phase.timer = some k) (d : Nat) :
    (startTimer d k s).Inv where
  params := h.params
  sequencer := { h.sequencer with worker := hp.symm }
  range := { h.range with worker := by rintro w ⟨⟩; exact Nat.le_add_right _ _ }
  latch := { h.latch with }
  medium := { h.medium with }

theorem State.Inv.oneStep {s : State} (h : s.Inv) (dir : Config.StepDir) (update : Bool) :
    (Machine.oneStep dir update s).Inv :=
  (h.drive (d := (seekTo (s.drive.track + stepDelta dir) s).drive) rfl).unread ..

theorem State.Inv.t1Complete {s : State} (h : s.Inv) {k : TimerKind} (hp : s.phase.timer = some k) :
    (Machine.t1Complete { s with workerTimer := none }).Inv where
  params := h.params
  sequencer := by
    obtain ⟨-, hd, -, hx, ht, -⟩ := (sequencerInv_waiting_iff hp).mp h.sequencer
    exact (sequencerInv_idle_iff rfl).mpr ⟨rfl, hd, rfl, hx, ht⟩
  range := { h.range with worker := nofun }
  latch := { h.latch with }
  medium := { h.medium with }

/-- A Type I tick starts the timer again, or completes the command (R146). -/
theorem State.Inv.t1Tick {s : State} (h : s.Inv) (hp : s.phase.timer = some .t1Tick) :
    (Machine.t1Tick { s with workerTimer := none }).Inv := by
  obtain ⟨-, -, e⟩ | ⟨-, -, e⟩ | e := t1Tick_cases { s with workerTimer := none } <;> rw [e]
  · exact (h.restartTimer hp s.cfg.tStep).oneStep (seekDirection s) true
  · exact ((h.restartTimer hp s.cfg.tStep).oneStep s.stepDir s.cmd.u).unread ..
  · exact h.t1Complete hp

/-- A sector command that fails ends in IDLE, whatever the entry's checks made of the two error flags (R174). -/
theorem State.Inv.failSector {s : State} (h : s.Inv) {k : TimerKind} (hp : s.phase.timer = some k) (rnf crc : Bool) :
    (Machine.failSector { s with
      workerTimer := none, flags := { s.flags with recordNotFound := rnf, crcError := crc } }).Inv where
  params := h.params
  sequencer := by
    obtain ⟨-, -, -, hx, ht, -⟩ := (sequencerInv_waiting_iff hp).mp h.sequencer
    exact (sequencerInv_idle_iff rfl).mpr ⟨rfl, rfl, rfl, hx, ht⟩
  range := { h.range with worker := nofun }
  latch := { h.latch with }
  medium := { h.medium with }

theorem openTransfer_tracks (trk : Track) (len : Nat) (s : State) :
    (openTransfer trk len s).disk.tracks = s.disk.tracks := by
  unfold openTransfer
  split <;> rfl

/-- A transfer that begins has its buffer at the first byte of a sector that is not empty (R175). -/
theorem State.Inv.openTransfer {s : State} (h : s.Inv) (hp : s.phase = .t2Accept) (trk : Track) {len : Nat}
    (hlen : 0 < len) :
    (Machine.openTransfer trk len (assignErrorFlags trk { s with workerTimer := none })).Inv where
  params := h.params
  sequencer := by
    have hop := h.sequencer.command
    obtain ⟨-, -, -, hx, ht, hq, ha, -⟩ :=
      (sequencerInv_waiting_iff (Phase.timer_eq_sectorEntry.mpr hp)).mp h.sequencer
    rw [hp] at hop
    exact (sequencerInv_t2Xfer_iff rfl).mpr ⟨rfl, rfl, rfl, rfl, ht, hq, ha, hop⟩
  range := { h.range with xfer := by rintro x ⟨⟩; exact ⟨Nat.zero_le _, hlen⟩, worker := nofun }
  latch := { h.latch with }
  medium :=
    { mem := h.medium.mem
      tracks := by rw [openTransfer_tracks]; exact h.medium.tracks
      serials := by rw [openTransfer_tracks]; exact h.medium.serials }

theorem State.Inv.sectorEntry {s t : State} (h : s.Inv) (hp : s.phase = .t2Accept)
    (e : Machine.sectorEntry { s with workerTimer := none } = .next t) : t.Inv := by
  have hk := Phase.timer_eq_sectorEntry.mpr hp
  obtain ⟨-, rfl⟩ | ⟨trk, -, -, ⟨-, rfl⟩ | ⟨len, -, -, -, hlen, rfl⟩⟩ := sectorEntry_cases e
  · exact h.failSector hk _ _
  · exact h.failSector hk _ _
  · exact h.openTransfer hp trk hlen

/-- The write-track entry opens an empty buffer (R213). -/
theorem State.Inv.wtEntry {s t : State} (h : s.Inv) (hp : s.phase = .t3Accept)
    (e : Machine.wtEntry { s with workerTimer := none } = .next t) : t.Inv := by
  obtain ⟨-, -, rfl⟩ := wtEntry_cases e
  have hop := h.sequencer.command
  obtain ⟨hb, -, -, hx, -, hq, ha, -⟩ := (sequencerInv_waiting_iff (Phase.timer_eq_wtEntry.mpr hp)).mp h.sequencer
  rw [hp] at hop
  exact {
    params := h.params
    sequencer := (sequencerInv_t3Collect_iff rfl).mpr ⟨hb, rfl, rfl, hx, rfl, hq, ha, hop⟩
    range := { h.range with wt := by rintro w ⟨⟩; exact Nat.zero_le _, worker := nofun }
    latch := { h.latch with }
    medium := { h.medium with } }

/-- The worker timer's step keeps the invariant. The guard on `command_abort` never holds here, since the flag is up in
IDLE only and no worker timer runs there (R19). -/
theorem State.Inv.fireWorker {s t : State} (h : s.Inv) {w : WorkerTimer} (hw : s.workerTimer = some w)
    (e : Machine.fireWorker w.kind { s with workerTimer := none } = .next t) : t.Inv := by
  have hp := h.sequencer.timer_of_worker hw
  obtain ⟨-, -, -, -, -, -, hna, -⟩ := (sequencerInv_waiting_iff hp).mp h.sequencer
  obtain ⟨ha, -⟩ | ⟨-, ⟨hk, rfl⟩ | ⟨hk, e⟩ | ⟨hk, e⟩⟩ := fireWorker_cases e
  · simp [hna] at ha
  · exact h.t1Tick (hk ▸ hp)
  · exact h.sectorEntry (Phase.timer_eq_sectorEntry.mp (hk ▸ hp)) e
  · exact h.wtEntry (Phase.timer_eq_wtEntry.mp (hk ▸ hp)) e

/-! ### The timer agent (R22, R92) -/

theorem State.Inv.advanceTo {s : State} (h : s.Inv) {n : Nat} (hw : ∀ w, s.workerTimer = some w → n ≤ w.due)
    (hi : ∀ i, s.indexTimer = some i → n ≤ i) : (Machine.advanceTo n s).Inv :=
  h.clock (fun w e => Nat.max_le.mpr ⟨h.range.worker w e, hw w e⟩) (fun i e => Nat.max_le.mpr ⟨h.range.index i e, hi i e⟩)

/-- A tick moves time to the earliest due time, which no pending timer is left behind by, and fires that timer. -/
theorem State.Inv.tick {s t : State} (h : s.Inv) (e : Machine.tick s = .next t) : t.Inv := by
  obtain ⟨-, -, rfl⟩ | ⟨w, hw, hle, e⟩ | ⟨i, hi, hle, rfl⟩ := tick_cases e
  · exact h
  · have ha : (Machine.advanceTo w.due s).Inv := h.advanceTo (fun v hv => by cases hw.symm.trans hv; exact le_rfl) hle
    exact ha.fireWorker hw e
  · have ha : (Machine.advanceTo i s).Inv := h.advanceTo hle (fun j hj => by cases hi.symm.trans hj; exact le_rfl)
    exact ha.override rfl nofun

theorem State.Inv.runLine {s t : State} (h : s.Inv) (e : Machine.runLine s = .next t) : t.Inv := by
  obtain ⟨-, rfl⟩ | e := runLine_cases e
  · exact h
  · exact State.Inv.tick (h.unread ..) e

theorem State.Inv.waitLine {s t : State} (h : s.Inv) {ns : Nat} (e : Machine.waitLine ns s = .next t) : t.Inv := by
  obtain ⟨hw, hi, rfl⟩ | ⟨rest, e⟩ := waitLine_cases e
  · exact h.clock (fun w hw' => (hw w hw').le) (fun i hi' => (hi i hi').le)
  · exact State.Inv.tick (h.unread ..) e

theorem State.Inv.elapse {s : State} (h : s.Inv) (ns : Nat) : (Machine.elapse ns s).Inv := by
  obtain ⟨d, -, hw, hi, e⟩ := elapse_cases ns s
  rw [e]
  exact h.clock (fun w hw' => hw w hw' (h.range.worker w hw')) (fun i hi' => hi i hi' (h.range.index i hi'))

/-! ### Sector transfers (R180 to R188) -/

theorem State.Inv.drqQuery {s : State} (h : s.Inv) : (Machine.drqQuery s).Inv := by
  obtain ⟨h1, h2⟩ := h.range.counter
  have hreload := h.params.reload
  have hcount : 1 ≤ drqCount s ∧ drqCount s ≤ s.cfg.drqReload := by unfold drqCount; split <;> omega
  unfold Machine.drqQuery
  split
  · exact (h.counter hcount.1 hcount.2).unread ..
  · exact h.unread ..

/-- The next byte moves within the buffer. -/
theorem State.Inv.advanceXfer {s : State} (h : s.Inv) {x : Xfer} (hx : s.xfer = some x) (hlt : x.idx < x.len) :
    (Machine.advanceXfer x s).Inv where
  params := h.params
  sequencer := { h.sequencer with xfer := by simp [h.sequencer.t2Xfer_of_xfer hx] }
  range := { h.range with xfer := by rintro y ⟨⟩; exact ⟨hlt, Nat.zero_lt_of_lt hlt⟩ }
  latch := { h.latch with }
  medium := { h.medium with }

theorem State.Inv.finishDataTransfer {s : State} (h : s.Inv) (hp : s.phase = .t2Xfer) :
    (Machine.finishDataTransfer s).Inv where
  params := h.params
  sequencer := by
    obtain ⟨-, -, hw, -, ht, -⟩ := (sequencerInv_t2Xfer_iff hp).mp h.sequencer
    exact (sequencerInv_idle_iff rfl).mpr ⟨rfl, rfl, hw, rfl, ht⟩
  range := { h.range with xfer := nofun }
  latch := { h.latch with }
  medium := { h.medium with }

theorem State.Inv.answerAny {s : State} (h : s.Inv) : (Machine.answerAny s).Inv := h.drawFree.unread ..

theorem State.Inv.dmaRead {s t : State} (h : s.Inv) (e : Machine.dmaRead s = .next t) : t.Inv := by
  obtain ⟨-, -, x, hx, ⟨-, rfl⟩ | ⟨hlt, rfl⟩⟩ := dmaRead_cases e
  · exact h.answerAny
  · exact ((h.advanceXfer hx hlt).counter h.params.reload le_rfl).unread ..

theorem State.Inv.dmaWrite {s t : State} (h : s.Inv) {b : Byte} (e : Machine.dmaWrite b s = .next t) : t.Inv := by
  obtain ⟨-, -, -, x, hx, ⟨-, rfl⟩ | ⟨hlt, rfl⟩⟩ := dmaWrite_cases e
  · exact h
  · exact (h.storeXferByte x b).advanceXfer hx hlt

theorem State.Inv.dmaComplete {s t : State} (h : s.Inv) (e : Machine.dmaComplete s = .next t) : t.Inv := by
  obtain ⟨-, hp, rfl⟩ := dmaComplete_cases e
  exact h.finishDataTransfer hp

theorem State.Inv.sectorPioRead {s t : State} (h : s.Inv) (e : Machine.sectorPioRead s = .next t) : t.Inv := by
  obtain ⟨x, hx, ⟨-, rfl⟩ | ⟨hlast, rfl⟩ | ⟨hlt, rfl⟩⟩ := sectorPioRead_cases e
  · exact h.answerAny
  · exact ((h.advanceXfer hx (by omega)).finishDataTransfer (h.sequencer.t2Xfer_of_xfer hx)).unread ..
  · exact (h.advanceXfer hx (by omega)).unread ..

theorem State.Inv.sectorPioWrite {s t : State} (h : s.Inv) {b : Byte} (e : Machine.sectorPioWrite b s = .next t) :
    t.Inv := by
  obtain ⟨x, hx, ⟨-, rfl⟩ | ⟨hlast, rfl⟩ | ⟨hlt, rfl⟩⟩ := sectorPioWrite_cases e
  · exact h
  · exact ((h.storeXferByte x b).advanceXfer hx (by omega)).finishDataTransfer (h.sequencer.t2Xfer_of_xfer hx)
  · exact (h.storeXferByte x b).advanceXfer hx (by omega)

/-! ### WRITE TRACK (R214, R222, R223) -/

theorem State.Inv.writeTrackByte {s t : State} (h : s.Inv) {b : Byte} (e : Machine.writeTrackByte b s = .next t) :
    t.Inv := by
  obtain ⟨w, hw, hlt, rfl⟩ := writeTrackByte_cases e
  exact {
    params := h.params
    sequencer := { h.sequencer with wt := by rw [← h.sequencer.wt, hw]; rfl }
    range := { h.range with wt := by rintro v ⟨⟩; simpa using hlt }
    latch := { h.latch with }
    medium := { h.medium with } }

theorem State.Inv.writeTrackComplete {s : State} (h : s.Inv) (hp : s.phase = .t3Collect) :
    (Machine.writeTrackComplete s).Inv where
  params := h.params
  sequencer := by
    obtain ⟨-, -, hw, hx, -⟩ := (sequencerInv_t3Collect_iff hp).mp h.sequencer
    exact (sequencerInv_idle_iff rfl).mpr ⟨rfl, rfl, hw, hx, rfl⟩
  range := { h.range with wt := nofun }
  latch := { h.latch with }
  medium := { h.medium with }

theorem State.Inv.indexEdge {s t : State} (h : s.Inv) (e : Machine.indexEdge s = .next t) : t.Inv := by
  obtain ⟨hp, e⟩ | ⟨-, rfl⟩ := indexEdge_cases e
  · obtain ⟨w, n, size, -, -, -, rfl⟩ := finishWriteTrack_cases e
    have hd : ({ s with drive := { s.drive with index := true } } : State).Inv := h.drive rfl
    exact (hd.formatTrack ..).writeTrackComplete hp
  · exact h.drive rfl

/-! ### Ports and reset (R50, R311) -/

/-- `Reset()` needs of the state before it the parameters and the medium alone. -/
theorem resetBlock_inv {s : State} (hp : GoodParams s.cfg) (hm : MediumInv s) : (resetBlock s).Inv where
  params := hp
  sequencer := (sequencerInv_idle_iff rfl).mpr ⟨rfl, rfl, rfl, rfl, rfl⟩
  range := ⟨nofun, nofun, ⟨hp.reload, le_rfl⟩, nofun, nofun⟩
  latch := ⟨rfl, rfl, rfl, rfl, rfl⟩
  medium := { hm with }

theorem State.Inv.resetBlock {s : State} (h : s.Inv) : (Machine.resetBlock s).Inv := resetBlock_inv h.params h.medium

theorem State.Inv.masterResetLevel {s : State} (h : s.Inv) (high : Bool) : (Machine.masterResetLevel high s).Inv := by
  unfold Machine.masterResetLevel
  split
  · exact h.resetBlock.unread ..
  · exact h.unread ..

theorem State.Inv.dataWrite {s t : State} (h : s.Inv) {b : Byte} (e : Machine.dataWrite b s = .next t) : t.Inv := by
  have hr : ({ s with regs := { s.regs with data := b } } : State).Inv := h.unread ..
  obtain ⟨-, -, e⟩ | ⟨-, -, -, e⟩ | rfl := dataWrite_cases e
  · exact hr.writeTrackByte e
  · exact hr.sectorPioWrite e
  · exact hr

theorem State.Inv.dataRead {s t : State} (h : s.Inv) (e : Machine.dataRead s = .next t) : t.Inv := by
  obtain ⟨-, -, e⟩ | ⟨-, rfl⟩ := dataRead_cases e
  · exact h.sectorPioRead e
  · exact h.unread ..

theorem State.Inv.startIndexOverride {s : State} (h : s.Inv) : (Machine.startIndexOverride s).Inv := by
  unfold Machine.startIndexOverride
  split
  · exact h.override rfl (by rintro t ⟨⟩; exact Nat.le_add_right _ _)
  · exact h

theorem State.Inv.extWrite {s t : State} (h : s.Inv) {b : Byte} (e : Machine.extWrite b s = .next t) : t.Inv := by
  obtain ⟨l, -, ⟨hl, rfl⟩ | ⟨-, -, rfl⟩ | ⟨hl, -, u, hu, rfl⟩⟩ := extWrite_cases e
  · exact h.latchWrite hl.symm
  · rw [resetBlock_latchWrite]
    exact h.resetBlock
  · exact (State.Inv.dispatch (h.latchWrite hl.symm) hu).startIndexOverride

theorem State.Inv.portWrite {s t : State} (h : s.Inv) {p b : Byte} (e : Machine.portWrite p b s = .next t) : t.Inv := by
  obtain ⟨-, e⟩ | ⟨-, rfl⟩ | ⟨-, rfl⟩ | ⟨-, e⟩ | ⟨-, e⟩ := portWrite_cases e
  · exact h.dispatch e
  · exact h.unread ..
  · exact h.unread ..
  · exact h.dataWrite e
  · exact h.extWrite e

theorem State.Inv.portRead {s t : State} (h : s.Inv) {p : Byte} (e : Machine.portRead p s = .next t) : t.Inv := by
  obtain ⟨-, rfl⟩ | ⟨-, rfl⟩ | ⟨-, rfl⟩ | ⟨-, e⟩ | ⟨-, rfl⟩ := portRead_cases e
  · exact h.acknowledge.unread ..
  · exact h.unread ..
  · exact h.unread ..
  · exact h.dataRead e
  · exact h.drawFree.unread ..

/-! ### Every step -/

theorem applyDriveInput_driveSelect (i : DriveInput) (d : Drive) : (applyDriveInput i d).driveSelect = d.driveSelect := by
  cases i <;> rfl

theorem State.Inv.agentStep {s t : State} (h : s.Inv) {a : Event} (e : Machine.agentStep a s = .next t) : t.Inv := by
  cases a with
  | portWrite port b => exact h.portWrite e
  | portRead port => exact h.portRead e
  | reset => obtain rfl := next_inj.mp e; exact h.resetBlock
  | masterReset high => obtain rfl := next_inj.mp e; exact h.masterResetLevel high
  | tick => exact h.tick e
  | run => exact h.runLine e
  | wait ns => exact h.waitLine e
  | elapse ns => obtain rfl := next_inj.mp e; exact h.elapse ns
  | drqQuery => obtain rfl := next_inj.mp e; exact h.drqQuery
  | dmaRead => exact h.dmaRead e
  | dmaWrite b => exact h.dmaWrite e
  | dmaComplete => exact h.dmaComplete e
  | dmaTc b => obtain rfl := next_inj.mp e; exact h.unread ..
  | indexEdge => exact h.indexEdge e
  | driveInput d => obtain rfl := next_inj.mp e; exact h.drive (applyDriveInput_driveSelect d _)

/-- Settles O60: the timer agent's tick with nothing scheduled, or the step of the agent at the head. -/
theorem stepKeepsInvariant : Obligations.StepKeepsInvariant := by
  intro s t h e
  obtain ⟨-, e⟩ | ⟨a, rest, -, e⟩ := step_cases e
  · exact h.tick e
  · exact State.Inv.agentStep (h.unread ..) e

end Sys2Proof.Machine
end

