-- ==== Sys2Proof/Proofs/Clock.lean ====
section
/-! SUPPORT. Time and the parameters over a step (R5, R22): the worker's and the timer agent's steps can move time,
forward alone; every other operation leaves both as they are. -/

namespace Sys2Proof.Machine

/-- `t` is not earlier than `s` and has its parameters. -/
structure Later (s t : State) : Prop where
  now : s.now ≤ t.now
  cfg : t.cfg = s.cfg

theorem Later.refl (s : State) : Later s s := ⟨le_rfl, rfl⟩

theorem Later.trans {s t u : State} (h : Later s t) (h' : Later t u) : Later s u :=
  ⟨h.now.trans h'.now, h'.cfg.trans h.cfg⟩

/-! ### Commands and ports -/

theorem later_of_exec {i : Instr} {s t : State} (e : exec i s = .next t) : Later s t := by
  cases i with
  | restore h v x => obtain rfl := next_inj.mp e; exact ⟨le_rfl, rfl⟩
  | seek h v x => obtain rfl := next_inj.mp e; exact ⟨le_rfl, rfl⟩
  | step u h v x => obtain rfl := next_inj.mp e; exact ⟨le_rfl, rfl⟩
  | stepIn u h v x => obtain rfl := next_inj.mp e; exact ⟨le_rfl, rfl⟩
  | stepOut u h v x => obtain rfl := next_inj.mp e; exact ⟨le_rfl, rfl⟩
  | rdSec l e' sso a => obtain rfl := next_inj.mp e; exact ⟨le_rfl, rfl⟩
  | wrSec l e' sso a => obtain rfl := next_inj.mp e; exact ⟨le_rfl, rfl⟩
  | wrTrk l e' sso a => obtain rfl := next_inj.mp e; exact ⟨le_rfl, rfl⟩
  | fint c => obtain rfl := next_inj.mp e; exact ⟨le_rfl, rfl⟩
  | rdSecM l e' sso a => cases e
  | wrSecM l e' sso a => cases e
  | rdAddr l e' sso a => cases e
  | rdTrk l e' sso a => cases e

theorem later_of_dispatch {c : Byte} {s t : State} (e : dispatch c s = .next t) : Later s t := by
  obtain ⟨-, -, rfl⟩ | ⟨-, e⟩ := dispatch_cases e
  · exact .refl _
  · exact later_of_exec e

theorem later_of_sectorPioRead {s t : State} (e : sectorPioRead s = .next t) : Later s t := by
  obtain ⟨x, -, ⟨-, rfl⟩ | ⟨-, rfl⟩ | ⟨-, rfl⟩⟩ := sectorPioRead_cases e <;> exact ⟨le_rfl, rfl⟩

theorem later_of_sectorPioWrite {b : Byte} {s t : State} (e : sectorPioWrite b s = .next t) : Later s t := by
  obtain ⟨x, -, ⟨-, rfl⟩ | ⟨-, rfl⟩ | ⟨-, rfl⟩⟩ := sectorPioWrite_cases e <;> exact ⟨le_rfl, rfl⟩

theorem later_of_dataWrite {b : Byte} {s t : State} (e : dataWrite b s = .next t) : Later s t := by
  have hr : Later s { s with regs := { s.regs with data := b } } := ⟨le_rfl, rfl⟩
  obtain ⟨-, -, e⟩ | ⟨-, -, -, e⟩ | rfl := dataWrite_cases e
  · obtain ⟨w, -, -, rfl⟩ := writeTrackByte_cases e
    exact ⟨le_rfl, rfl⟩
  · exact hr.trans (later_of_sectorPioWrite e)
  · exact hr

theorem later_of_dataRead {s t : State} (e : dataRead s = .next t) : Later s t := by
  obtain ⟨-, -, e⟩ | ⟨-, rfl⟩ := dataRead_cases e
  · exact later_of_sectorPioRead e
  · exact ⟨le_rfl, rfl⟩

theorem later_startIndexOverride (s : State) : Later s (startIndexOverride s) := by
  unfold startIndexOverride
  split <;> exact ⟨le_rfl, rfl⟩

theorem later_of_extWrite {b : Byte} {s t : State} (e : extWrite b s = .next t) : Later s t := by
  obtain ⟨l, -, ⟨-, rfl⟩ | ⟨-, -, rfl⟩ | ⟨-, -, u, hu, rfl⟩⟩ := extWrite_cases e
  · exact ⟨le_rfl, rfl⟩
  · exact ⟨le_rfl, rfl⟩
  · have hlatch : Later s { latchWrite l s with flags := { s.flags with fdcEnabled := true } } := ⟨le_rfl, rfl⟩
    exact (hlatch.trans (later_of_dispatch hu)).trans (later_startIndexOverride u)

theorem later_of_portWrite {p b : Byte} {s t : State} (e : portWrite p b s = .next t) : Later s t := by
  obtain ⟨-, e⟩ | ⟨-, rfl⟩ | ⟨-, rfl⟩ | ⟨-, e⟩ | ⟨-, e⟩ := portWrite_cases e
  · exact later_of_dispatch e
  · exact ⟨le_rfl, rfl⟩
  · exact ⟨le_rfl, rfl⟩
  · exact later_of_dataWrite e
  · exact later_of_extWrite e

theorem later_of_portRead {p : Byte} {s t : State} (e : portRead p s = .next t) : Later s t := by
  obtain ⟨-, rfl⟩ | ⟨-, rfl⟩ | ⟨-, rfl⟩ | ⟨-, e⟩ | ⟨-, rfl⟩ := portRead_cases e
  · exact ⟨le_rfl, rfl⟩
  · exact ⟨le_rfl, rfl⟩
  · exact ⟨le_rfl, rfl⟩
  · exact later_of_dataRead e
  · exact ⟨le_rfl, rfl⟩

/-! ### The DMA engine and the drive -/

theorem later_of_dmaRead {s t : State} (e : dmaRead s = .next t) : Later s t := by
  obtain ⟨-, -, x, -, ⟨-, rfl⟩ | ⟨-, rfl⟩⟩ := dmaRead_cases e <;> exact ⟨le_rfl, rfl⟩

theorem later_of_dmaWrite {b : Byte} {s t : State} (e : dmaWrite b s = .next t) : Later s t := by
  obtain ⟨-, -, -, x, -, ⟨-, rfl⟩ | ⟨-, rfl⟩⟩ := dmaWrite_cases e <;> exact ⟨le_rfl, rfl⟩

theorem later_of_dmaComplete {s t : State} (e : dmaComplete s = .next t) : Later s t := by
  obtain ⟨-, -, rfl⟩ := dmaComplete_cases e
  exact ⟨le_rfl, rfl⟩

theorem later_drqQuery (s : State) : Later s (drqQuery s) := by
  unfold drqQuery
  split <;> exact ⟨le_rfl, rfl⟩

theorem later_of_indexEdge {s t : State} (e : indexEdge s = .next t) : Later s t := by
  obtain ⟨-, e⟩ | ⟨-, rfl⟩ := indexEdge_cases e
  · obtain ⟨w, n, size, -, -, -, rfl⟩ := finishWriteTrack_cases e
    exact ⟨le_rfl, rfl⟩
  · exact ⟨le_rfl, rfl⟩

theorem later_masterResetLevel (high : Bool) (s : State) : Later s (masterResetLevel high s) := by
  unfold masterResetLevel
  split <;> exact ⟨le_rfl, rfl⟩

/-! ### The timer agent -/

theorem later_t1Tick (s : State) : Later s (t1Tick s) := by
  obtain ⟨-, -, e⟩ | ⟨-, -, e⟩ | e := t1Tick_cases s <;> rw [e] <;> exact ⟨le_rfl, rfl⟩

theorem later_of_fireWorker {k : TimerKind} {s t : State} (e : fireWorker k s = .next t) : Later s t := by
  obtain ⟨-, rfl⟩ | ⟨-, ⟨-, rfl⟩ | ⟨-, e⟩ | ⟨-, e⟩⟩ := fireWorker_cases e
  · exact .refl _
  · exact later_t1Tick s
  · obtain ⟨-, rfl⟩ | ⟨trk, -, -, ⟨-, rfl⟩ | ⟨len, -, -, -, -, rfl⟩⟩ := sectorEntry_cases e <;> exact ⟨le_rfl, rfl⟩
  · obtain ⟨-, -, rfl⟩ := wtEntry_cases e
    exact ⟨le_rfl, rfl⟩

/-- A tick moves time to a due time and never back: a timer left behind fires at once (log 45). -/
theorem later_of_tick {s t : State} (e : tick s = .next t) : Later s t := by
  obtain ⟨-, -, rfl⟩ | ⟨w, -, -, e⟩ | ⟨i, -, -, rfl⟩ := tick_cases e
  · exact .refl _
  · have hadv : Later s { advanceTo w.due s with workerTimer := none } := ⟨Nat.le_max_left _ _, rfl⟩
    exact hadv.trans (later_of_fireWorker e)
  · exact ⟨Nat.le_max_left _ _, rfl⟩

theorem later_of_runLine {s t : State} (e : runLine s = .next t) : Later s t := by
  obtain ⟨-, rfl⟩ | e := runLine_cases e
  · exact .refl _
  · exact ⟨(later_of_tick e).now, (later_of_tick e).cfg⟩

theorem later_of_waitLine {ns : Nat} {s t : State} (e : waitLine ns s = .next t) : Later s t := by
  obtain ⟨-, -, rfl⟩ | ⟨rest, e⟩ := waitLine_cases e
  · exact ⟨Nat.le_add_right _ _, rfl⟩
  · exact ⟨(later_of_tick e).now, (later_of_tick e).cfg⟩

theorem later_elapse (ns : Nat) (s : State) : Later s (elapse ns s) := by
  obtain ⟨d, -, -, -, e⟩ := elapse_cases ns s
  rw [e]
  exact ⟨Nat.le_add_right _ _, rfl⟩

/-! ### Every step -/

theorem later_of_agentStep {a : Event} {s t : State} (e : agentStep a s = .next t) : Later s t := by
  cases a with
  | portWrite port b => exact later_of_portWrite e
  | portRead port => exact later_of_portRead e
  | reset => obtain rfl := next_inj.mp e; exact ⟨le_rfl, rfl⟩
  | masterReset high => obtain rfl := next_inj.mp e; exact later_masterResetLevel high s
  | tick => exact later_of_tick e
  | run => exact later_of_runLine e
  | wait ns => exact later_of_waitLine e
  | elapse ns => obtain rfl := next_inj.mp e; exact later_elapse ns s
  | drqQuery => obtain rfl := next_inj.mp e; exact later_drqQuery s
  | dmaRead => exact later_of_dmaRead e
  | dmaWrite b => exact later_of_dmaWrite e
  | dmaComplete => exact later_of_dmaComplete e
  | dmaTc b => obtain rfl := next_inj.mp e; exact ⟨le_rfl, rfl⟩
  | indexEdge => exact later_of_indexEdge e
  | driveInput d => obtain rfl := next_inj.mp e; exact ⟨le_rfl, rfl⟩

/-- Settles O57: the timer agent's tick with nothing scheduled, or the step of the agent at the head. -/
theorem timeAndParametersKeep : Obligations.TimeAndParametersKeep := by
  intro s t e
  obtain ⟨-, e⟩ | ⟨a, rest, -, e⟩ := step_cases e
  · exact ⟨(later_of_tick e).now, (later_of_tick e).cfg⟩
  · exact ⟨(later_of_agentStep e).now, (later_of_agentStep e).cfg⟩

end Sys2Proof.Machine
end

