-- ==== Sys2Proof/Proofs/Memory.lean ====
section
/-! SUPPORT. What the ports and the agents' steps do to `flag.drq` and to the disk's bytes (R51, R55 to R58, R231):
which operations leave the medium as it is, and what a stored byte and a formatted track change. -/

namespace Sys2Proof.Machine

/-- Settles O17: none of the five port tests holds. -/
theorem unknownPortIsFatal : Obligations.UnknownPortIsFatal := by
  intro s p b hcmd htrack hsector hdata hext
  constructor
  · simp [agentStep, portWrite, hcmd, htrack, hsector, hdata, hext]
  · simp [agentStep, portRead, hcmd, htrack, hsector, hdata, hext]

/-! ### The bytes after a store and after a format (R57, R231) -/

/-- A byte of the disk is read from the stored bytes and, where none is stored, from its track's serial number. -/
theorem diskByte_congr {s t : State} {cyl : Nat} {head : Bool} {sidx i : Nat}
    (hm : memRead t.mem (diskAddr cyl head sidx i) = memRead s.mem (diskAddr cyl head sidx i))
    (ht : getTrack t.disk cyl head = getTrack s.disk cyl head) :
    diskByte t cyl head sidx i = diskByte s cyl head sidx i := by
  simp only [diskByte, trackSerial, hm, ht]

/-- After a store the transfer's next byte reads as stored, and every other byte as before (R57). -/
theorem diskByte_storeXferByte (x : Xfer) (b : Byte) (s : State) (cyl : Nat) (head : Bool) (sidx i : Nat) :
    diskByte (storeXferByte x b s) cyl head sidx i =
      if cyl = x.cyl ∧ head = x.head ∧ sidx = x.sidx ∧ i = x.idx then b else diskByte s cyl head sidx i := by
  have hread : memRead (storeXferByte x b s).mem (diskAddr cyl head sidx i) =
      if cyl = x.cyl ∧ head = x.head ∧ sidx = x.sidx ∧ i = x.idx then some b
      else memRead s.mem (diskAddr cyl head sidx i) := by
    simp only [storeXferByte_mem, memRead_memWrite, xferAddr, diskAddr_inj]
  split
  · rename_i hplace
    simp only [diskByte, hread, if_pos hplace]
  · rename_i hplace
    exact diskByte_congr (hread.trans (if_neg hplace)) rfl

/-- Settles O38: the stored place is the transfer's next byte. -/
theorem storedByteIsInTheDisk : Obligations.StoredByteIsInTheDisk :=
  fun s x b => diskByte_storeXferByte x b s

/-- Formatting a track leaves the directory's entry of every other place (R231). -/
theorem getTrack_formatTrack_other (fmt : TrackFormat) (count size : Nat) (s : State) {cyl cyl' : Nat}
    {head head' : Bool} (hne : ¬(cyl' = cyl ∧ head' = head)) :
    getTrack (formatTrack fmt cyl head count size s).disk cyl' head' = getTrack s.disk cyl' head' := by
  refine getTrack_putTrack_other _ s.disk.tracks s.disk.modified _ _ fun hplace => hne ?_
  exact ⟨(Int.ofNat_inj.mp hplace.1).symm, hplace.2.symm⟩

/-- Formatting a track leaves every byte of every other track (R231). -/
theorem diskByte_formatTrack_other (fmt : TrackFormat) (count size : Nat) (s : State) {cyl cyl' : Nat}
    {head head' : Bool} (hne : ¬(cyl' = cyl ∧ head' = head)) (sidx i : Nat) :
    diskByte (formatTrack fmt cyl head count size s) cyl' head' sidx i = diskByte s cyl' head' sidx i := by
  refine diskByte_congr ?_ (getTrack_formatTrack_other fmt count size s hne)
  exact (memRead_memErase ..).trans (if_neg fun hin => hne ((inTrack_diskAddr ..).mp hin))

/-! ### Commands -/

/-- `t` has the stored bytes and the tracks of `s`. -/
structure MediumKept (s t : State) : Prop where
  mem : t.mem = s.mem
  tracks : t.disk.tracks = s.disk.tracks

theorem MediumKept.refl (s : State) : MediumKept s s := ⟨rfl, rfl⟩

theorem MediumKept.trans {s t u : State} (h : MediumKept s t) (h' : MediumKept t u) : MediumKept s u :=
  ⟨h'.mem.trans h.mem, h'.tracks.trans h.tracks⟩

/-- No command touches the medium when it is run, and FORCE INTERRUPT alone touches `drq` (R250). -/
theorem exec_keeps_medium_and_drq {i : Instr} {s t : State} (e : exec i s = .next t) :
    MediumKept s t ∧ ((∀ c, i ≠ .fint c) → t.flags.drq = s.flags.drq) := by
  cases i with
  | restore | seek | step | stepIn | stepOut | rdSec | wrSec | wrTrk =>
    obtain rfl := next_inj.mp e
    exact ⟨⟨rfl, rfl⟩, fun _ => rfl⟩
  | fint c =>
    obtain rfl := next_inj.mp e
    exact ⟨⟨rfl, rfl⟩, fun h => absurd rfl (h c)⟩
  | rdSecM | wrSecM | rdAddr | rdTrk => cases e

/-- Only the opcode nibble 0xD is FORCE INTERRUPT (R82). -/
theorem opcode_of_decodeByte_fint {c : Byte} {k : Nat} (h : decodeByte c = .fint k) : opcodeNibble c = 0xD := by
  unfold decodeByte at h
  split at h <;> cases h
  next hop => exact BitVec.eq_of_toNat_eq hop

theorem mediumKept_of_dispatch {c : Byte} {s t : State} (e : dispatch c s = .next t) : MediumKept s t := by
  obtain ⟨-, -, rfl⟩ | ⟨-, e⟩ := dispatch_cases e
  · exact .refl _
  · exact (exec_keeps_medium_and_drq e).1

/-- A command byte other than FORCE INTERRUPT leaves `drq`, discarded or run (R115, R118). -/
theorem drq_of_dispatch {c : Byte} {s t : State} (hc : opcodeNibble c ≠ 0xD) (e : dispatch c s = .next t) :
    t.flags.drq = s.flags.drq := by
  obtain ⟨-, -, rfl⟩ | ⟨-, e⟩ := dispatch_cases e
  · rfl
  · exact (exec_keeps_medium_and_drq e).2 fun _ hk => hc (opcode_of_decodeByte_fint hk)

/-! ### Which port accesses can change `drq` (R55) -/

theorem startIndexOverride_drq (s : State) : (startIndexOverride s).flags.drq = s.flags.drq := by
  unfold startIndexOverride
  split <;> rfl

/-- A latch write that changes `drq` disables an enabled chip: the synthetic RESTORE of chip enable leaves `drq`
(R266, R268). -/
theorem disables_of_extWrite_drq {b : Byte} {s t : State} (e : extWrite b s = .next t)
    (hne : t.flags.drq ≠ s.flags.drq) :
    s.flags.fdcEnabled = true ∧ (latchFields s.cfg.extStateBits b).chipEn = false := by
  obtain ⟨l, rfl, ⟨-, rfl⟩ | ⟨hl, hf, -⟩ | ⟨-, -, u, hu, rfl⟩⟩ := extWrite_cases e
  · exact absurd rfl hne
  · exact ⟨hf, hl⟩
  · exact absurd ((startIndexOverride_drq u).trans (drq_of_dispatch (by decide) hu)) hne

/-- Settles O19: by the port accessed; a register port's write and every read but the data port's leave `drq`. -/
theorem otherPortsKeepDrq : Obligations.OtherPortsKeepDrq := by
  constructor
  · intro s t p b e hne
    obtain ⟨hp, e⟩ | ⟨-, rfl⟩ | ⟨-, rfl⟩ | ⟨hp, -⟩ | ⟨hp, e⟩ := portWrite_cases e
    · exact .inr (.inl ⟨hp, by_contra fun hc => hne (drq_of_dispatch hc e)⟩)
    · exact absurd rfl hne
    · exact absurd rfl hne
    · exact .inl hp
    · exact .inr (.inr ⟨hp, disables_of_extWrite_drq e hne⟩)
  · intro s t p e hne
    obtain ⟨-, rfl⟩ | ⟨-, rfl⟩ | ⟨-, rfl⟩ | ⟨hp, -⟩ | ⟨-, rfl⟩ := portRead_cases e
    · exact absurd rfl hne
    · exact absurd rfl hne
    · exact absurd rfl hne
    · exact hp
    · exact absurd rfl hne

/-! ### Steps that leave the medium (R56) -/

theorem mediumKept_of_sectorPioRead {s t : State} (e : sectorPioRead s = .next t) : MediumKept s t := by
  obtain ⟨x, -, ⟨-, rfl⟩ | ⟨-, rfl⟩ | ⟨-, rfl⟩⟩ := sectorPioRead_cases e <;> exact ⟨rfl, rfl⟩

theorem mediumKept_of_dataRead {s t : State} (e : dataRead s = .next t) : MediumKept s t := by
  obtain ⟨-, -, e⟩ | ⟨-, rfl⟩ := dataRead_cases e
  · exact mediumKept_of_sectorPioRead e
  · exact ⟨rfl, rfl⟩

theorem mediumKept_of_portRead {p : Byte} {s t : State} (e : portRead p s = .next t) : MediumKept s t := by
  obtain ⟨-, rfl⟩ | ⟨-, rfl⟩ | ⟨-, rfl⟩ | ⟨-, e⟩ | ⟨-, rfl⟩ := portRead_cases e
  · exact ⟨rfl, rfl⟩
  · exact ⟨rfl, rfl⟩
  · exact ⟨rfl, rfl⟩
  · exact mediumKept_of_dataRead e
  · exact ⟨rfl, rfl⟩

theorem mediumKept_startIndexOverride (s : State) : MediumKept s (startIndexOverride s) := by
  unfold startIndexOverride
  split <;> exact ⟨rfl, rfl⟩

theorem mediumKept_of_extWrite {b : Byte} {s t : State} (e : extWrite b s = .next t) : MediumKept s t := by
  obtain ⟨l, -, ⟨-, rfl⟩ | ⟨-, -, rfl⟩ | ⟨-, -, u, hu, rfl⟩⟩ := extWrite_cases e
  · exact ⟨rfl, rfl⟩
  · exact ⟨rfl, rfl⟩
  · have hlatch : MediumKept s { latchWrite l s with flags := { s.flags with fdcEnabled := true } } := ⟨rfl, rfl⟩
    exact (hlatch.trans (mediumKept_of_dispatch hu)).trans (mediumKept_startIndexOverride u)

theorem mediumKept_of_dmaRead {s t : State} (e : dmaRead s = .next t) : MediumKept s t := by
  obtain ⟨-, -, x, -, ⟨-, rfl⟩ | ⟨-, rfl⟩⟩ := dmaRead_cases e <;> exact ⟨rfl, rfl⟩

theorem mediumKept_of_dmaComplete {s t : State} (e : dmaComplete s = .next t) : MediumKept s t := by
  obtain ⟨-, -, rfl⟩ := dmaComplete_cases e
  exact ⟨rfl, rfl⟩

theorem mediumKept_drqQuery (s : State) : MediumKept s (drqQuery s) := by
  unfold drqQuery
  split <;> exact ⟨rfl, rfl⟩

theorem mediumKept_masterResetLevel (high : Bool) (s : State) : MediumKept s (masterResetLevel high s) := by
  unfold masterResetLevel
  split <;> exact ⟨rfl, rfl⟩

theorem mediumKept_t1Tick (s : State) : MediumKept s (t1Tick s) := by
  obtain ⟨-, -, e⟩ | ⟨-, -, e⟩ | e := t1Tick_cases s <;> rw [e] <;> exact ⟨rfl, rfl⟩

/-- A sector entry leaves the medium: a write that begins sets the modified mark alone (R175). -/
theorem mediumKept_of_sectorEntry {s t : State} (e : sectorEntry s = .next t) : MediumKept s t := by
  obtain ⟨-, rfl⟩ | ⟨trk, -, -, ⟨-, rfl⟩ | ⟨len, -, -, -, -, rfl⟩⟩ := sectorEntry_cases e
  · exact ⟨rfl, rfl⟩
  · exact ⟨rfl, rfl⟩
  · exact ⟨rfl, openTransfer_tracks ..⟩

theorem mediumKept_of_fireWorker {k : TimerKind} {s t : State} (e : fireWorker k s = .next t) : MediumKept s t := by
  obtain ⟨-, rfl⟩ | ⟨-, ⟨-, rfl⟩ | ⟨-, e⟩ | ⟨-, e⟩⟩ := fireWorker_cases e
  · exact .refl _
  · exact mediumKept_t1Tick s
  · exact mediumKept_of_sectorEntry e
  · obtain ⟨-, -, rfl⟩ := wtEntry_cases e
    exact ⟨rfl, rfl⟩

theorem mediumKept_of_tick {s t : State} (e : tick s = .next t) : MediumKept s t := by
  obtain ⟨-, -, rfl⟩ | ⟨w, -, -, e⟩ | ⟨i, -, -, rfl⟩ := tick_cases e
  · exact .refl _
  · have hadv : MediumKept s { advanceTo w.due s with workerTimer := none } := ⟨rfl, rfl⟩
    exact hadv.trans (mediumKept_of_fireWorker e)
  · exact ⟨rfl, rfl⟩

theorem mediumKept_of_runLine {s t : State} (e : runLine s = .next t) : MediumKept s t := by
  obtain ⟨-, rfl⟩ | e := runLine_cases e
  · exact .refl _
  · exact { mediumKept_of_tick e with }

theorem mediumKept_of_waitLine {ns : Nat} {s t : State} (e : waitLine ns s = .next t) : MediumKept s t := by
  obtain ⟨-, -, rfl⟩ | ⟨rest, e⟩ := waitLine_cases e
  · exact ⟨rfl, rfl⟩
  · exact { mediumKept_of_tick e with }

theorem mediumKept_elapse (ns : Nat) (s : State) : MediumKept s (elapse ns s) := by
  obtain ⟨d, -, -, -, e⟩ := elapse_cases ns s
  rw [e]
  exact ⟨rfl, rfl⟩

/-! ### Steps that change the medium (R57, R231) -/

/-- WRITE SECTOR has stored `b` at the transfer's next byte (R57). -/
def StoredNextByte (b : Byte) (s t : State) : Prop :=
  ∃ x : Xfer, s.xfer = some x ∧ s.lastOp = 0xA ∧ s.phase = .t2Xfer ∧ x.idx < x.len ∧
    t.mem = memWrite s.mem (diskAddr x.cyl x.head x.sidx x.idx) b ∧ t.disk = s.disk

/-- WRITE TRACK has changed no track but the one of `reg.track` and the captured side (R231). -/
def ChangedFormattedTrack (s t : State) : Prop :=
  ∃ w : WtBuffer, s.wt = some w ∧ s.lastOp = 0xF ∧ s.phase = .t3Collect ∧
    ∀ (cyl : Nat) (head : Bool) (sidx i : Nat), ¬(cyl = s.regs.track.toNat ∧ head = w.side) →
      diskByte t cyl head sidx i = diskByte s cyl head sidx i ∧
        getTrack t.disk cyl head = getTrack s.disk cyl head

theorem dmaWrite_medium {b : Byte} {s t : State} (e : dmaWrite b s = .next t) :
    StoredNextByte b s t ∨ MediumKept s t := by
  obtain ⟨-, hp, hop, x, hx, ⟨-, rfl⟩ | ⟨hlt, rfl⟩⟩ := dmaWrite_cases e
  · exact .inr (.refl _)
  · exact .inl ⟨x, hx, hop, hp, hlt, rfl, rfl⟩

/-- A data-port write changes the medium under WRITE SECTOR alone; the bytes of WRITE TRACK wait in its buffer
(R214). -/
theorem dataWrite_medium {b : Byte} {s t : State} (e : dataWrite b s = .next t) :
    StoredNextByte b s t ∨ MediumKept s t := by
  obtain ⟨-, -, e⟩ | ⟨-, hp, hop, e⟩ | rfl := dataWrite_cases e
  · obtain ⟨w, -, -, rfl⟩ := writeTrackByte_cases e
    exact .inr ⟨rfl, rfl⟩
  · obtain ⟨x, hx, ⟨-, rfl⟩ | ⟨hlast, rfl⟩ | ⟨hlt, rfl⟩⟩ := sectorPioWrite_cases e
    · exact .inr ⟨rfl, rfl⟩
    · exact .inl ⟨x, hx, hop, hp, by omega, rfl, rfl⟩
    · exact .inl ⟨x, hx, hop, hp, by omega, rfl, rfl⟩
  · exact .inr ⟨rfl, rfl⟩

theorem portWrite_medium {p b : Byte} {s t : State} (e : portWrite p b s = .next t) :
    (p = s.cfg.ports.data ∧ StoredNextByte b s t) ∨ MediumKept s t := by
  obtain ⟨-, e⟩ | ⟨-, rfl⟩ | ⟨-, rfl⟩ | ⟨hp, e⟩ | ⟨-, e⟩ := portWrite_cases e
  · exact .inr (mediumKept_of_dispatch e)
  · exact .inr ⟨rfl, rfl⟩
  · exact .inr ⟨rfl, rfl⟩
  · exact (dataWrite_medium e).imp_left (⟨hp, ·⟩)
  · exact .inr (mediumKept_of_extWrite e)

/-- An index edge changes the medium where it ends a WRITE TRACK, which T3_COLLECT says is the command (R19, R222). -/
theorem indexEdge_medium {s t : State} (h : SequencerInv s) (e : indexEdge s = .next t) :
    ChangedFormattedTrack s t ∨ MediumKept s t := by
  obtain ⟨hp, e⟩ | ⟨-, rfl⟩ := indexEdge_cases e
  · obtain ⟨-, -, -, -, -, -, -, hop⟩ := (sequencerInv_t3Collect_iff hp).mp h
    obtain ⟨w, n, size, hw, -, -, rfl⟩ := finishWriteTrack_cases e
    refine .inl ⟨w, hw, hop, hp, fun cyl head sidx i hne => ⟨?_, ?_⟩⟩
    · exact diskByte_formatTrack_other _ n size s hne sidx i
    · exact getTrack_formatTrack_other _ n size s hne
  · exact .inr ⟨rfl, rfl⟩

/-- What each agent's step can do to the medium. -/
theorem agentStep_medium {a : Event} {s t : State} (h : SequencerInv s) (e : agentStep a s = .next t) :
    (∃ b, (a = .portWrite s.cfg.ports.data b ∨ a = .dmaWrite b) ∧ StoredNextByte b s t) ∨
      (a = .indexEdge ∧ ChangedFormattedTrack s t) ∨ MediumKept s t := by
  cases a with
  | portWrite port b =>
    obtain ⟨rfl, hs⟩ | hk := portWrite_medium e
    · exact .inl ⟨b, .inl rfl, hs⟩
    · exact .inr (.inr hk)
  | dmaWrite b => exact (dmaWrite_medium e).imp (⟨b, .inr rfl, ·⟩) .inr
  | indexEdge => exact .inr ((indexEdge_medium h e).imp_left (⟨rfl, ·⟩))
  | portRead port => exact .inr (.inr (mediumKept_of_portRead e))
  | tick => exact .inr (.inr (mediumKept_of_tick e))
  | run => exact .inr (.inr (mediumKept_of_runLine e))
  | wait ns => exact .inr (.inr (mediumKept_of_waitLine e))
  | dmaRead => exact .inr (.inr (mediumKept_of_dmaRead e))
  | dmaComplete => exact .inr (.inr (mediumKept_of_dmaComplete e))
  | masterReset high => obtain rfl := next_inj.mp e; exact .inr (.inr (mediumKept_masterResetLevel high s))
  | elapse ns => obtain rfl := next_inj.mp e; exact .inr (.inr (mediumKept_elapse ns s))
  | drqQuery => obtain rfl := next_inj.mp e; exact .inr (.inr (mediumKept_drqQuery s))
  | reset | dmaTc | driveInput => obtain rfl := next_inj.mp e; exact .inr (.inr ⟨rfl, rfl⟩)

/-- Settles O40: the timer agent's tick with nothing scheduled, or the step of the agent at the head. -/
theorem onlyTransfersAndFormatsChangeTheDisk : Obligations.OnlyTransfersAndFormatsChangeTheDisk := by
  intro s t h e
  obtain ⟨-, e⟩ | ⟨a, rest, ha, e⟩ := step_cases e
  · exact .inr (.inr ⟨(mediumKept_of_tick e).mem, (mediumKept_of_tick e).tracks⟩)
  · have hseq : SequencerInv { s with agenda := rest } := { h.sequencer with }
    obtain ⟨b, hb, x, hx⟩ | ⟨rfl, w, hw⟩ | hk := agentStep_medium hseq e
    · have hagenda : s.agenda = .portWrite s.cfg.ports.data b :: rest ∨ s.agenda = .dmaWrite b :: rest :=
        hb.imp (fun hb => by rw [ha, hb]) (fun hb => by rw [ha, hb])
      exact .inl ⟨x, b, rest, hagenda, hx⟩
    · exact .inr (.inl ⟨w, rest, ha, hw⟩)
    · exact .inr (.inr ⟨hk.mem, hk.tracks⟩)

end Sys2Proof.Machine
end

