-- ==== Sys2Proof/Proofs/Encoding.lean ====
section
/-! SUPPORT. The encoding of a command byte and of the external latch byte (30_encoding.md): the fields in the byte,
the decoder and the encoder as inverses (R80 to R86), the bits no command reads (R83 to R85), the latch byte (R91, R92). -/

namespace Sys2Proof.Machine

/-! ### The fields of a command byte (R80, R83 to R85) -/

/-- A byte is its opcode nibble above its parameter nibble (R80). -/
theorem opcodeNibble_append_params (c : Byte) : opcodeNibble c ++ c.extractLsb' 0 4 = c := by
  revert c; decide

/-- Bit 4 of a command byte, `u` of STEP, STEP-IN and STEP-OUT, tells the odd opcode from the even one (R83). -/
theorem getLsbD_four_eq_odd_opcode (c : Byte) : c.getLsbD 4 = decide ((opcodeNibble c).toNat % 2 = 1) := by
  revert c; decide

/-- The fields of a Type I command stand in its byte as `u h V x x` from bit 4 down (R83). -/
theorem typeI_fields (op : Nibble) (h v : Bool) {x : Nat} (hx : x < 4) :
    (op ++ typeIParams h v x)[4] = op[0] ∧ (op ++ typeIParams h v x)[3] = h ∧
      (op ++ typeIParams h v x)[2] = v ∧ lowTwo (op ++ typeIParams h v x) = x := by
  revert op h v x
  decide

/-- The fields of a Type II or III command stand in its byte as `L E S a` from bit 3 down (R84). -/
theorem typeII_fields (op : Nibble) (l e sso a : Bool) :
    (op ++ typeIIParams l e sso a)[3] = l ∧ (op ++ typeIIParams l e sso a)[2] = e ∧
      (op ++ typeIIParams l e sso a)[1] = sso ∧ (op ++ typeIIParams l e sso a)[0] = a := by
  revert op l e sso a
  decide

/-- The condition bits of FORCE INTERRUPT are the low half of its byte (R85). -/
theorem lowFour_append (op : Nibble) {k : Nat} (hk : k < 16) : lowFour (op ++ BitVec.ofNat 4 k) = k := by
  revert op k
  decide

theorem typeIParams_of_byte (c : Byte) : typeIParams (c.getLsbD 3) (c.getLsbD 2) (lowTwo c) = c.extractLsb' 0 4 := by
  revert c; decide

theorem typeIIParams_of_byte (c : Byte) :
    typeIIParams (c.getLsbD 3) (c.getLsbD 2) (c.getLsbD 1) (c.getLsbD 0) = c.extractLsb' 0 4 := by
  revert c; decide

theorem ofNat_lowFour (c : Byte) : BitVec.ofNat 4 (lowFour c) = c.extractLsb' 0 4 := by
  revert c; decide

/-! ### The decoder undoes the encoder -/

/-- The opcode nibble picks the command's row, and the row's fields are read back from where they were put. -/
theorem decodeByte_encodeByte {i : Instr} (hi : i.wellFormed = true) : decodeByte (encodeByte i) = i := by
  have hop (op p : Nibble) : opcodeNibble (op ++ p) = op := Laws.OpcodeNibble.high_nibble op p
  cases i with
  | restore h v x | seek h v x =>
    have hx : x < 4 := of_decide_eq_true hi
    simp [decodeByte, encodeByte, Instr.opcode, Instr.params, hop, typeI_fields _ h v hx]
  | step u h v x | stepIn u h v x | stepOut u h v x =>
    have hx : x < 4 := of_decide_eq_true hi
    cases u <;> simp [decodeByte, encodeByte, Instr.opcode, Instr.params, hop, typeI_fields _ h v hx]
  | fint k =>
    have hk : k < 16 := of_decide_eq_true hi
    simp [decodeByte, encodeByte, Instr.opcode, Instr.params, hop, lowFour_append _ hk]
  | rdSec | rdSecM | wrSec | wrSecM | rdAddr | rdTrk | wrTrk =>
    simp [decodeByte, encodeByte, Instr.opcode, Instr.params, hop, typeII_fields]

/-- Settles O1: the decoder takes one byte, the command's, and leaves what follows. -/
theorem decodeOfEncode : Obligations.DecodeOfEncode := by
  intro i rest hi
  simp only [encode, List.singleton_append, decode, decodeByte_encodeByte hi]

/-! ### The encoder undoes the decoder -/

theorem decodeByte_wellFormed (c : Byte) : (decodeByte c).wellFormed = true := by
  have hx : lowTwo c < 4 := BitVec.isLt _
  have hk : lowFour c < 16 := BitVec.isLt _
  unfold decodeByte
  split <;> simp only [Instr.wellFormed, hx, hk, decide_true]

theorem decodeByte_opcode (c : Byte) : (decodeByte c).opcode = opcodeNibble c := by
  have hu := getLsbD_four_eq_odd_opcode c
  have hlt : (opcodeNibble c).toNat < 16 := BitVec.isLt _
  unfold decodeByte
  split <;> simp_all [Instr.opcode, ← BitVec.toNat_inj]
  case h_16 => omega

theorem decodeByte_params (c : Byte) : (decodeByte c).params = c.extractLsb' 0 4 := by
  unfold decodeByte
  split <;> simp only [Instr.params, typeIParams_of_byte, typeIIParams_of_byte, ofNat_lowFour]

theorem encodeByte_decodeByte (c : Byte) : encodeByte (decodeByte c) = c := by
  rw [encodeByte, decodeByte_opcode, decodeByte_params, opcodeNibble_append_params]

/-- A well-formed command is known by its byte: decoding gives it back. -/
theorem eq_decodeByte_of_encode {i : Instr} {c : Byte} (hi : i.wellFormed = true) (e : encode i = [c]) :
    i = decodeByte c := by
  rw [← decodeByte_encodeByte hi, List.singleton_injective e]

/-- Settles O2: the byte's own command, and under an `OPCODE_MAP` the command of `standardByte`. -/
theorem everyByteDecodes : Obligations.EveryByteDecodes := by
  refine ⟨fun c rest => ⟨decodeByte c, rfl, decodeByte_wellFormed c, decodeByte_opcode c, ?_, fun j hj e => ?_⟩,
    fun m c => ?_, fun c => ?_⟩
  · exact congrArg ([·]) (encodeByte_decodeByte c)
  · exact eq_decodeByte_of_encode hj e
  · exact congrArg ([·]) (encodeByte_decodeByte (standardByte m c))
  · exact congrArg decodeByte (standardByte_standardMap c)

/-- Settles O3: each byte is decoded. -/
theorem specBytesDecode : Obligations.SpecBytesDecode := by
  unfold Obligations.SpecBytesDecode
  decide

/-! ### The bits no command reads (R83 to R86) -/

theorem opcodeNibble_standardByte (m : Config.OpcodeMap) (c : Byte) :
    opcodeNibble (standardByte m c) = m.opcodeOf (opcodeNibble c) := Laws.OpcodeNibble.high_nibble _ _

/-- An `OPCODE_MAP` leaves the parameter bits (R5, R80). -/
theorem getLsbD_standardByte (m : Config.OpcodeMap) (c : Byte) {k : Nat} (hk : k < 4) :
    (standardByte m c).getLsbD k = c.getLsbD k := by
  simp only [standardByte, BitVec.getLsbD_append, BitVec.getLsbD_extractLsb', hk, decide_true, Bool.true_and,
    Nat.zero_add, if_true]

/-- Bytes that agree in the opcode and in the bits the opcode's command reads are run alike: `u h V` of a Type I command,
`S` of READ SECTOR, WRITE SECTOR and WRITE TRACK, and no bit of the others. -/
theorem exec_decodeByte_congr {c d : Byte} (hop : opcodeNibble c = opcodeNibble d)
    (hI : (opcodeNibble c).toNat < 8 → c.getLsbD 3 = d.getLsbD 3 ∧ c.getLsbD 2 = d.getLsbD 2)
    (hII : opcodeNibble c = 0x8 ∨ opcodeNibble c = 0xA ∨ opcodeNibble c = 0xF → c.getLsbD 1 = d.getLsbD 1) (s : State) :
    exec (decodeByte c) s = exec (decodeByte d) s := by
  have hu : c.getLsbD 4 = d.getLsbD 4 := by rw [getLsbD_four_eq_odd_opcode, hop, ← getLsbD_four_eq_odd_opcode]
  unfold decodeByte
  rw [← hop]
  split
  case h_1 hk | h_2 hk | h_3 hk | h_4 hk | h_5 hk | h_6 hk | h_7 hk | h_8 hk =>
    obtain ⟨h3, h2⟩ := hI (by omega)
    simp only [hu, h3, h2]
    rfl
  case h_9 hk =>
    rw [hII (.inl (BitVec.eq_of_toNat_eq hk))]
    rfl
  case h_11 hk =>
    rw [hII (.inr (.inl (BitVec.eq_of_toNat_eq hk)))]
    rfl
  case h_16 =>
    have h15 : (opcodeNibble c).toNat = 15 := by
      have := (opcodeNibble c).isLt
      simp only [imp_false] at *
      omega
    rw [hII (.inr (.inr (BitVec.eq_of_toNat_eq h15)))]
    rfl
  case h_10 | h_12 | h_13 | h_14 | h_15 => rfl

/-- Settles O4: the two bytes have one opcode under the machine's `OPCODE_MAP`, so one busy test and one command. -/
theorem ignoredBitsIgnored : Obligations.IgnoredBitsIgnored := by
  intro c d s hop hI hII
  have hop' : opcodeNibble (standardByte s.cfg.opcodeMap c) = opcodeNibble (standardByte s.cfg.opcodeMap d) := by
    rw [opcodeNibble_standardByte, opcodeNibble_standardByte, hop]
  have hbit {k : Nat} (hk : k < 4) (e : c.getLsbD k = d.getLsbD k) :
      (standardByte s.cfg.opcodeMap c).getLsbD k = (standardByte s.cfg.opcodeMap d).getLsbD k := by
    rw [getLsbD_standardByte _ _ hk, getLsbD_standardByte _ _ hk, e]
  have hexec := exec_decodeByte_congr hop' (fun h => ⟨hbit (by decide) (hI h).1, hbit (by decide) (hI h).2⟩)
    (fun h => hbit (by decide) (hII h)) s
  rw [agentStep_write_command, agentStep_write_command, commandWrite, commandWrite, dispatch, dispatch, hop', hexec]

/-! ### The external latch byte (R91, R92) -/

/-- Settles O48: each field reads as written, and the writes after it are at other bits. -/
theorem latchByteCarriesItsFields : Obligations.LatchByteCarriesItsFields := by
  intro m e h
  simp only [Config.ExtStateBits.Distinct, List.nodup_cons, List.mem_cons, List.not_mem_nil, or_false, not_or] at h
  obtain ⟨⟨hwp, hws, hwd, hwc, hwv⟩, ⟨hps, hpd, hpc, hpv⟩, ⟨hsd, hsc, hsv⟩, ⟨hdc, hdv⟩, hcv, -, -⟩ := h
  have hother (p q : Config.LatchBit) (v : Bool) (b : Byte) (hne : ¬q.index = p.index) :
      readField p (writeField q v b) = readField p b := readField_writeField_other p q v b (Ne.symm hne)
  simp only [latchFields, latchByte, readField_writeField_self, hother, hwp, hws, hwd, hwc, hwv, hps, hpd, hpc, hpv, hsd,
    hsc, hsv, hdc, hdv, hcv, not_false_eq_true]

end Sys2Proof.Machine
end

