-- ==== Sys2Proof/Proofs/TrackStream.lean ====
section
/-! SUPPORT. The streams the write-track parser accepts (R224 to R230): what it passes over before a mark, one sector, a
run of sectors, and the end of the stream, each read in both directions; and the violations. -/

namespace Sys2Proof.Machine

/-! ### Up to a mark (R225 to R228) -/

/-- The parser passes over every byte but `mark`. -/
def WaitsFor (env : ParseEnv) (mark : Byte) (p : Parser) : Prop := ∀ b, b ≠ mark → parseByte env p b = .ok p

theorem waitsFor_indexMark (env : ParseEnv) {p : Parser} (hp : p.mode = .indexMark) : WaitsFor env 0xFC p :=
  fun b hb => by simp only [parseByte, hp, if_neg hb]

theorem waitsFor_idMark (env : ParseEnv) {p : Parser} (hp : p.mode = .idRecordMark) : WaitsFor env 0xFE p :=
  fun b hb => by simp only [parseByte, hp, if_neg hb]

theorem waitsFor_dataMark (env : ParseEnv) {p : Parser} (hp : p.mode = .dataRecordMark) : WaitsFor env 0xFB p :=
  fun b hb => by simp only [parseByte, hp, if_neg hb]

theorem WaitsFor.parseBytes_append {env : ParseEnv} {mark : Byte} {p : Parser} (h : WaitsFor env mark p) {l : List Byte}
    (hl : mark ∉ l) (r : List Byte) : parseBytes env p (l ++ r) = parseBytes env p r := by
  induction l with
  | nil => rfl
  | cons b l ih =>
    obtain ⟨hb, hl⟩ := not_or.mp (mt List.mem_cons.mpr hl)
    rw [List.cons_append, parseBytes_cons_ok (h b (Ne.symm hb)), ih hl]

/-- A stream without the mark leaves the parser where it was; any other is cut at the first mark. -/
theorem WaitsFor.parseBytes_cases {env : ParseEnv} {mark : Byte} {p q : Parser} (h : WaitsFor env mark p) {l : List Byte}
    (e : parseBytes env p l = .ok q) :
    (mark ∉ l ∧ q = p) ∨
      ∃ before rest, l = before ++ mark :: rest ∧ mark ∉ before ∧ parseBytes env p (mark :: rest) = .ok q := by
  by_cases hm : mark ∈ l
  · obtain ⟨before, rest, rfl, hb⟩ := List.eq_append_cons_of_mem hm
    exact .inr ⟨before, rest, rfl, hb, (h.parseBytes_append hb _).symm.trans e⟩
  · rw [← List.append_nil l, h.parseBytes_append hm] at e
    injection e with e
    exact .inl ⟨hm, e.symm⟩

theorem parseByte_indexMark (env : ParseEnv) {p : Parser} (hp : p.mode = .indexMark) :
    parseByte env p 0xFC = .ok { p with mode := .idRecordMark } := by simp only [parseByte, hp, if_true]

theorem parseByte_idMark (env : ParseEnv) {p : Parser} (hp : p.mode = .idRecordMark) :
    parseByte env p 0xFE = .ok { p with mode := .idField [] } := by simp only [parseByte, hp, if_true]

theorem parseByte_dataMark (env : ParseEnv) {p : Parser} (hp : p.mode = .dataRecordMark) :
    parseByte env p 0xFB = .ok { p with mode := .dataRecord 0 } := by simp only [parseByte, hp, if_true]

/-! ### The ID field (R226) -/

theorem parseBytes_idField (env : ParseEnv) {p : Parser} (hp : p.mode = .idField []) (t h n l : Byte) (rest : List Byte) :
    parseBytes env p (t :: h :: n :: l :: rest) =
      match checkId env p t h n l with
      | .ok q => parseBytes env q rest
      | .error f => .error f := by
  cases p; cases hp; rfl

/-- A stream that ends in order after the mark 0xFE has a whole ID field, which passes its tests. -/
theorem parseBytes_idField_cases {env : ParseEnv} {p q : Parser} {l : List Byte} (hp : p.mode = .idField [])
    (e : parseBytes env p l = .ok q) (hq : mayEnd q.mode = true) :
    ∃ n code rest, l = env.track :: sideByte env.side :: n :: code :: rest ∧ code.toNat ≤ 3 ∧
      (p.size = none ∨ p.size = some (sectorSize code)) ∧ n ∉ p.seen ∧
      parseBytes env { mode := .dataRecordMark, size := some (sectorSize code), seen := n :: p.seen } rest = .ok q := by
  match l with
  | [] | [_] | [_, _] | [_, _, _] =>
    cases p; cases hp; cases e; cases hq
  | t :: h :: n :: code :: rest =>
    rw [parseBytes_idField env hp] at e
    split at e
    · next r hr =>
      obtain ⟨rfl, rfl, hcode, hsize, hn, rfl⟩ := checkId_cases hr
      exact ⟨n, code, rest, rfl, hcode, hsize, hn, e⟩
    · cases e

/-! ### The data record (R228) -/

/-- Data bytes, none of them the end mark, are counted. -/
theorem parseBytes_data (env : ParseEnv) {p : Parser} {count : Nat} (hp : p.mode = .dataRecord count) {data : List Byte}
    (hd : (0xF7 : Byte) ∉ data) (r : List Byte) :
    parseBytes env p (data ++ r) = parseBytes env { p with mode := .dataRecord (count + data.length) } r := by
  induction data generalizing p count with
  | nil => cases p; cases hp; rfl
  | cons b data ih =>
    obtain ⟨hb, hd⟩ := not_or.mp (mt List.mem_cons.mpr hd)
    have hbyte : parseByte env p b = .ok { p with mode := .dataRecord (count + 1) } := by
      simp only [parseByte, hp, parseDataByte, if_neg (Ne.symm hb)]
    rw [List.cons_append, parseBytes_cons_ok hbyte, ih rfl hd, List.length_cons]
    congr 3; omega

theorem parseByte_dataEnd (env : ParseEnv) {p : Parser} {count : Nat} (hp : p.mode = .dataRecord count) :
    parseByte env p 0xF7 = if p.size = some count then .ok { p with mode := .idRecordMark } else .error .wtDataLength := by
  simp only [parseByte, hp, parseDataByte, if_true]

/-- A stream that ends in order inside a data record has the end mark, after as many bytes as the sector size says. -/
theorem parseBytes_dataRecord_cases {env : ParseEnv} {p q : Parser} {l : List Byte} (hp : p.mode = .dataRecord 0)
    (e : parseBytes env p l = .ok q) (hq : mayEnd q.mode = true) :
    ∃ data rest, l = data ++ 0xF7 :: rest ∧ (0xF7 : Byte) ∉ data ∧ p.size = some data.length ∧
      parseBytes env { p with mode := .idRecordMark } rest = .ok q := by
  by_cases hm : (0xF7 : Byte) ∈ l
  · obtain ⟨data, rest, rfl, hd⟩ := List.eq_append_cons_of_mem hm
    rw [parseBytes_data env hp hd, parseBytes, parseByte_dataEnd env rfl, Nat.zero_add] at e
    split at e
    · next r hr =>
      split at hr
      · next hsize => cases hr; exact ⟨data, rest, rfl, hd, hsize, e⟩
      · cases hr
    · cases e
  · rw [← List.append_nil l, parseBytes_data env hp hm] at e
    cases e; cases hq

/-! ### One sector (R226 to R228) -/

/-- A sector under a length code that the parser takes in the state `p`: its parts fit, its size is that of the sectors
before it, and its number is new. -/
structure SectorImage.Accepted (p : Parser) (code : Byte) (r : SectorImage) : Prop where
  fits : r.Fits code
  lengthCode : code.toNat ≤ 3
  size : p.size = none ∨ p.size = some (sectorSize code)
  fresh : r.number ∉ p.seen

/-- The parser after a sector. -/
def Parser.afterSector (p : Parser) (code number : Byte) : Parser :=
  { mode := .idRecordMark, size := some (sectorSize code), seen := number :: p.seen }

theorem SectorImage.Accepted.parseBytes {env : ParseEnv} {p : Parser} {code : Byte} {r : SectorImage}
    (h : r.Accepted p code) (hp : p.mode = .idRecordMark) (rest : List Byte) :
    parseBytes env p (r.bytes env code ++ rest) = parseBytes env (p.afterSector code r.number) rest := by
  simp only [SectorImage.bytes, List.append_assoc, List.cons_append, List.nil_append]
  rw [(waitsFor_idMark env hp).parseBytes_append h.fits.before, parseBytes_cons_ok (parseByte_idMark env hp),
    parseBytes_idField env rfl]
  have hid : checkId env { p with mode := .idField [] } env.track (sideByte env.side) r.number code =
      .ok { mode := .dataRecordMark, size := some (sectorSize code), seen := r.number :: p.seen } :=
    checkId_ok h.lengthCode h.size h.fresh
  rw [hid]
  simp only
  rw [(waitsFor_dataMark env rfl).parseBytes_append h.fits.between, parseBytes_cons_ok (parseByte_dataMark env rfl),
    parseBytes_data env rfl h.fits.data]
  refine parseBytes_cons_ok ?_ rest
  rw [parseByte_dataEnd env rfl, Nat.zero_add, h.fits.length, if_pos rfl, Parser.afterSector]

/-- A stream that ends in order either has no further sector, or begins with one. -/
theorem parseBytes_idRecordMark_cases {env : ParseEnv} {p q : Parser} {l : List Byte} (hp : p.mode = .idRecordMark)
    (e : parseBytes env p l = .ok q) (hq : mayEnd q.mode = true) :
    ((0xFE : Byte) ∉ l ∧ q = p) ∨
      ∃ (code : Byte) (r : SectorImage) (rest : List Byte), l = r.bytes env code ++ rest ∧ r.Accepted p code ∧
        parseBytes env (p.afterSector code r.number) rest = .ok q := by
  refine ((waitsFor_idMark env hp).parseBytes_cases e).imp_right ?_
  rintro ⟨before, l, rfl, hbefore, e⟩
  rw [parseBytes_cons_ok (parseByte_idMark env hp)] at e
  obtain ⟨n, code, l, rfl, hcode, hsize, hn, e⟩ := parseBytes_idField_cases rfl e hq
  obtain ⟨-, rfl⟩ | ⟨between, l, rfl, hbetween, e⟩ := (waitsFor_dataMark env rfl).parseBytes_cases e
  · cases hq
  rw [parseBytes_cons_ok (parseByte_dataMark env rfl)] at e
  obtain ⟨data, rest, rfl, hdata, hlen, e⟩ := parseBytes_dataRecord_cases rfl e hq
  refine ⟨code, { before, number := n, between, data }, rest, ?_, ⟨⟨hbefore, hbetween, hdata, ?_⟩, hcode, hsize, hn⟩, e⟩
  · simp only [SectorImage.bytes, List.append_assoc, List.cons_append, List.nil_append]
  · exact (Option.some.inj hlen).symm

/-! ### A run of sectors -/

theorem sectorSize_inj {c d : Byte} (h : sectorSize c = sectorSize d) : c = d := by
  have hpow : 2 ^ c.toNat = 2 ^ d.toNat := Nat.eq_of_mul_eq_mul_left (by decide) h
  exact BitVec.eq_of_toNat_eq (Nat.pow_right_injective (le_refl 2) hpow)

/-- Once the size is set, sectors of that size with new numbers are recorded one after the other. -/
theorem parseBytes_sectors {env : ParseEnv} {p : Parser} {code : Byte} {sectors : List SectorImage}
    (hp : p.mode = .idRecordMark) (hcode : code.toNat ≤ 3) (hsize : p.size = some (sectorSize code))
    (hfits : ∀ r ∈ sectors, r.Fits code) (hnew : (sectors.map SectorImage.number ++ p.seen).Nodup) (rest : List Byte) :
    parseBytes env p (sectors.flatMap (SectorImage.bytes env code) ++ rest) =
      parseBytes env { p with seen := (sectors.map SectorImage.number).reverse ++ p.seen } rest := by
  induction sectors generalizing p with
  | nil => rfl
  | cons r sectors ih =>
    obtain ⟨hr, hfits⟩ := List.forall_mem_cons.mp hfits
    rw [List.map_cons, List.cons_append] at hnew
    have hfresh : r.number ∉ p.seen := fun hm => (List.nodup_cons.mp hnew).1 (List.mem_append_right _ hm)
    have hacc : r.Accepted p code := ⟨hr, hcode, .inr hsize, hfresh⟩
    rw [List.flatMap_cons, List.append_assoc, hacc.parseBytes hp, ih rfl rfl hfits (List.nodup_middle.mpr hnew)]
    simp only [Parser.afterSector, hp, hsize, List.map_cons, List.reverse_cons, List.append_assoc, List.cons_append,
      List.nil_append]

/-- Once the size is set, a stream that ends in order is a run of sectors of that size, and then no ID mark. -/
theorem sectors_of_parseBytes {env : ParseEnv} {p q : Parser} {code : Byte} {l : List Byte}
    (hp : p.mode = .idRecordMark) (hsize : p.size = some (sectorSize code))
    (e : parseBytes env p l = .ok q) (hq : mayEnd q.mode = true) :
    ∃ (sectors : List SectorImage) (trail : List Byte),
      l = sectors.flatMap (SectorImage.bytes env code) ++ trail ∧ (0xFE : Byte) ∉ trail ∧
        (∀ r ∈ sectors, r.Fits code) ∧ q = { p with seen := (sectors.map SectorImage.number).reverse ++ p.seen } := by
  obtain ⟨htrail, rfl⟩ | ⟨code', r, rest, hl, hr, e⟩ := parseBytes_idRecordMark_cases hp e hq
  · exact ⟨[], l, rfl, htrail, by simp, rfl⟩
  · obtain rfl : code = code' := by
      refine sectorSize_inj ?_
      simpa [hsize] using hr.size
    have hshort : rest.length < l.length := by
      simp [hl, SectorImage.bytes]; omega
    obtain ⟨sectors, trail, hrest, htrail, hfits, rfl⟩ := sectors_of_parseBytes rfl rfl e hq
    refine ⟨r :: sectors, trail, ?_, htrail, List.forall_mem_cons.mpr ⟨hr.fits, hfits⟩, ?_⟩
    · rw [hl, hrest, List.flatMap_cons, List.append_assoc]
    · simp only [Parser.afterSector, hp, hsize, List.map_cons, List.reverse_cons, List.append_assoc, List.cons_append,
        List.nil_append]
termination_by l.length

/-! ### The end of the stream (R229, R230) -/

theorem contiguous_iff (seen : List Byte) :
    contiguous seen = true ↔ ∀ k, 1 ≤ k → k ≤ seen.length → ∃ n ∈ seen, n.toNat = k := by
  simp only [contiguous, List.all_eq_true, List.mem_range, List.any_eq_true, beq_iff_eq]
  constructor
  · intro h k h1 hk
    obtain ⟨n, hn, e⟩ := h (k - 1) (by omega)
    exact ⟨n, hn, by omega⟩
  · exact fun h k hk => h (k + 1) (by omega) (by omega)

/-- As many numbers as there are from 1 to N, with each of 1 to N among them, are all different. -/
theorem nodup_of_contiguous {seen : List Byte} (h : contiguous seen = true) : seen.Nodup := by
  rw [contiguous_iff] at h
  have hsub : List.range' 1 seen.length ⊆ seen.map BitVec.toNat := by
    intro k hk
    obtain ⟨h1, h2⟩ := List.mem_range'_1.mp hk
    exact List.mem_map.mpr (h k h1 (by omega))
  have hperm := (List.subperm_of_subset List.nodup_range' hsub).perm_of_length_le (by simp)
  exact List.Nodup.of_map _ (hperm.nodup_iff.mp List.nodup_range')

theorem parseTrack_of_parseBytes {env : ParseEnv} {bytes : List Byte} {p : Parser}
    (h : parseBytes env parserStart bytes = .ok p) : parseTrack env bytes = parseEnd p := by
  simp only [parseTrack, h]

theorem parseEnd_eq_ok {p : Parser} {count size : Nat} :
    parseEnd p = .ok (count, size) ↔
      mayEnd p.mode = true ∧ p.size = some size ∧ contiguous p.seen = true ∧ p.seen.length = count := by
  unfold parseEnd
  cases mayEnd p.mode <;> cases p.size <;> cases contiguous p.seen <;> simp [and_comm]

theorem parseTrack_eq_ok {env : ParseEnv} {bytes : List Byte} {count size : Nat} :
    parseTrack env bytes = .ok (count, size) ↔
      ∃ q, parseBytes env parserStart bytes = .ok q ∧ parseEnd q = .ok (count, size) := by
  unfold parseTrack
  cases parseBytes env parserStart bytes <;> simp

/-! ### The whole stream -/

/-- The numbers of a valid layout, latest first, are exactly 1 to N. -/
theorem TrackLayout.Valid.contiguous {l : TrackLayout} {count size : Nat} (h : l.Valid count size) :
    contiguous (l.sectors.map SectorImage.number).reverse = true := by
  rw [contiguous_iff]
  intro k h1 hk
  obtain ⟨r, hr, e⟩ := h.numbers k h1 (by simpa [h.length] using hk)
  exact ⟨r.number, List.mem_reverse.mpr (List.mem_map_of_mem hr), e⟩

/-- The parser after the gap byte and the index mark. -/
def parserIndexed : Parser := { mode := .idRecordMark, size := none, seen := [] }

theorem parseBytes_header (env : ParseEnv) {lead : List Byte} (hl : (0xFC : Byte) ∉ lead) (rest : List Byte) :
    parseBytes env parserStart (gapByte env.dden :: lead ++ 0xFC :: rest) = parseBytes env parserIndexed rest := by
  have hgap : parseByte env parserStart (gapByte env.dden) = .ok { parserStart with mode := .indexMark } := if_pos rfl
  rw [List.cons_append, parseBytes_cons_ok hgap, (waitsFor_indexMark env rfl).parseBytes_append hl,
    parseBytes_cons_ok (parseByte_indexMark env rfl)]
  rfl

/-- A layout's bytes, split at the index mark. -/
theorem TrackLayout.bytes_eq (env : ParseEnv) (l : TrackLayout) :
    l.bytes env =
      gapByte env.dden :: l.lead ++ 0xFC :: (l.sectors.flatMap (SectorImage.bytes env l.code) ++ l.trail) := by
  simp only [TrackLayout.bytes, List.append_assoc, List.cons_append, List.nil_append]

/-- The parser reads a valid layout to its end: the first sector sets the size, the others have it. -/
theorem parseBytes_layout {env : ParseEnv} {l : TrackLayout} {count size : Nat} (h : l.Valid count size) :
    parseBytes env parserStart (l.bytes env) =
      .ok { mode := .idRecordMark, size := some size, seen := (l.sectors.map SectorImage.number).reverse } := by
  have hnodup : (l.sectors.map SectorImage.number).Nodup := List.nodup_reverse.mp (nodup_of_contiguous h.contiguous)
  rw [TrackLayout.bytes_eq, parseBytes_header env h.lead]
  obtain ⟨r, sectors, hsectors⟩ := List.exists_cons_of_length_pos (h.length.symm ▸ h.some : 0 < l.sectors.length)
  rw [hsectors] at hnodup ⊢
  obtain ⟨hr, hfits⟩ := List.forall_mem_cons.mp (hsectors ▸ h.fits)
  have hacc : r.Accepted parserIndexed l.code := ⟨hr, h.code, .inl rfl, List.not_mem_nil⟩
  have hnew : (sectors.map SectorImage.number ++ [r.number]).Nodup := List.nodup_middle.mpr (by simpa using hnodup)
  rw [List.flatMap_cons, List.append_assoc, hacc.parseBytes rfl, parseBytes_sectors rfl h.code rfl hfits hnew,
    ← List.append_nil l.trail, (waitsFor_idMark env rfl).parseBytes_append h.trail]
  simp only [parseBytes, Parser.afterSector, parserIndexed, h.size, List.map_cons, List.reverse_cons]

/-- The parser accepts a valid layout and reports its sector count and size. -/
theorem TrackLayout.Valid.parseTrack {l : TrackLayout} {count size : Nat} (h : l.Valid count size) (env : ParseEnv) :
    parseTrack env (l.bytes env) = .ok (count, size) := by
  rw [parseTrack_of_parseBytes (parseBytes_layout h), parseEnd_eq_ok]
  exact ⟨rfl, rfl, h.contiguous, by simpa using h.length⟩

/-- A stream that ends in order with a size set has the gap byte, the index mark and at least one sector. -/
theorem header_of_parseBytes {env : ParseEnv} {bytes : List Byte} {q : Parser}
    (e : parseBytes env parserStart bytes = .ok q) (hsize : q.size ≠ none) :
    ∃ lead rest, bytes = gapByte env.dden :: lead ++ 0xFC :: rest ∧ (0xFC : Byte) ∉ lead ∧
      parseBytes env parserIndexed rest = .ok q := by
  match bytes with
  | [] => cases e; exact absurd rfl hsize
  | b :: bytes =>
    by_cases hb : b = gapByte env.dden
    · subst hb
      have hgap : parseByte env parserStart (gapByte env.dden) = .ok { parserStart with mode := .indexMark } := if_pos rfl
      rw [parseBytes_cons_ok hgap] at e
      obtain ⟨-, rfl⟩ | ⟨lead, rest, rfl, hlead, e⟩ := (waitsFor_indexMark env rfl).parseBytes_cases e
      · exact absurd rfl hsize
      · rw [parseBytes_cons_ok (parseByte_indexMark env rfl)] at e
        exact ⟨lead, rest, rfl, hlead, e⟩
    · have hgap : parseByte env parserStart b = .error .wtBadGap := if_neg hb
      rw [parseBytes, hgap] at e
      cases e

/-- An accepted stream falls into the parts of a layout: header, first sector, the sectors of its size, the rest. -/
theorem layout_of_parseTrack {env : ParseEnv} {bytes : List Byte} {count size : Nat}
    (e : parseTrack env bytes = .ok (count, size)) : ∃ l : TrackLayout, l.Valid count size ∧ bytes = l.bytes env := by
  obtain ⟨q, e, hend⟩ := parseTrack_eq_ok.mp e
  obtain ⟨hq, hsize, hcont, hcount⟩ := parseEnd_eq_ok.mp hend
  obtain ⟨lead, rest, rfl, hlead, e⟩ := header_of_parseBytes e (by simp [hsize])
  obtain ⟨-, rfl⟩ | ⟨code, r, rest, rfl, hr, e⟩ := parseBytes_idRecordMark_cases rfl e hq
  · cases hsize
  obtain ⟨sectors, trail, rfl, htrail, hfits, rfl⟩ := sectors_of_parseBytes rfl rfl e hq
  refine ⟨{ lead, code, sectors := r :: sectors, trail }, ?_, ?_⟩
  · exact {
      lead := hlead
      trail := htrail
      code := hr.lengthCode
      fits := List.forall_mem_cons.mpr ⟨hr.fits, hfits⟩
      length := by simpa [Parser.afterSector, parserIndexed] using hcount
      some := by rw [← hcount]; simp [Parser.afterSector, parserIndexed]
      numbers := fun k h1 hk => by
        obtain ⟨n, hn, e⟩ := (contiguous_iff _).mp hcont k h1 (hcount.symm ▸ hk)
        have hn' : n ∈ (r :: sectors).map SectorImage.number := by
          simpa [Parser.afterSector, parserIndexed, or_comm] using hn
        obtain ⟨r', hr', rfl⟩ := List.mem_map.mp hn'
        exact ⟨r', hr', e⟩
      size := (Option.some.inj hsize).symm }
  · simp only [TrackLayout.bytes_eq, List.flatMap_cons, List.append_assoc]

/-! ### The violations (R226, R228 to R230; D27) -/

theorem parseEnd_truncated {p : Parser} (h : mayEnd p.mode = false) : parseEnd p = .error .wtTruncated := if_pos h

theorem parseEnd_noSectors {p : Parser} (h : mayEnd p.mode = true) (hs : p.size = none) :
    parseEnd p = .error .wtNoSectors := by
  simp [parseEnd, h, hs]

theorem parseEnd_nonContiguous {p : Parser} (h : mayEnd p.mode = true) (hs : p.size ≠ none)
    (hc : contiguous p.seen = false) : parseEnd p = .error .wtNonContiguous := by
  obtain ⟨size, hsize⟩ := Option.ne_none_iff_exists'.mp hs
  simp [parseEnd, h, hsize, hc]

/-- The fourth byte of an ID field has it checked. -/
theorem parseByte_idLast (env : ParseEnv) {p : Parser} {t h n : Byte} (hp : p.mode = .idField [t, h, n]) (l : Byte) :
    parseByte env p l = checkId env p t h n l := by
  simp only [parseByte, hp, parseIdByte]

/-! The tests of an ID field, each with the ones before it passed. -/

theorem checkId_badTrack {env : ParseEnv} {p : Parser} {t h n l : Byte} (ht : t ≠ env.track) :
    checkId env p t h n l = .error .wtBadTrack := if_pos ht

theorem checkId_badHead {env : ParseEnv} {p : Parser} {h n l : Byte} (hh : h ≠ sideByte env.side) :
    checkId env p env.track h n l = .error .wtBadHead := by
  rw [checkId, if_neg (not_not.mpr rfl), if_pos hh]

theorem checkId_badLengthCode {env : ParseEnv} {p : Parser} {n l : Byte} (hl : 3 < l.toNat) :
    checkId env p env.track (sideByte env.side) n l = .error .wtBadLengthCode := by
  rw [checkId, if_neg (not_not.mpr rfl), if_neg (not_not.mpr rfl), if_pos hl]

theorem checkId_sizeMismatch {env : ParseEnv} {p : Parser} {n l : Byte} (hl : l.toNat ≤ 3) (hs : p.size ≠ none)
    (hne : p.size ≠ some (sectorSize l)) :
    checkId env p env.track (sideByte env.side) n l = .error .wtSizeMismatch := by
  rw [checkId, if_neg (not_not.mpr rfl), if_neg (not_not.mpr rfl), if_neg (Nat.not_lt.mpr hl), if_pos ⟨hs, hne⟩]

theorem checkId_duplicateSector {env : ParseEnv} {p : Parser} {n l : Byte} (hl : l.toNat ≤ 3)
    (hs : p.size = none ∨ p.size = some (sectorSize l)) (hn : n ∈ p.seen) :
    checkId env p env.track (sideByte env.side) n l = .error .wtDuplicateSector := by
  rw [checkId, if_neg (not_not.mpr rfl), if_neg (not_not.mpr rfl), if_neg (Nat.not_lt.mpr hl),
    if_neg (not_and_or.mpr (hs.imp not_not.mpr not_not.mpr)), if_pos hn]

/-- The first violation is the answer, whatever follows (R294 (d)). -/
theorem parseTrack_violation {env : ParseEnv} {before : List Byte} {b : Byte} {p : Parser} {f : Fault}
    (hp : parseBytes env parserStart before = .ok p) (hb : parseByte env p b = .error f) (after : List Byte) :
    parseTrack env (before ++ b :: after) = .error f := by
  simp only [parseTrack, parseBytes_append, hp, parseBytes, hb]

/-- Settles O47: the two directions of the layout, the tests of an ID field in their order, a record of another length,
the first violation of a stream, and its end. -/
theorem acceptedStreamIsALayout : Obligations.AcceptedStreamIsALayout := by
  refine ⟨fun env bytes n size => ⟨layout_of_parseTrack, ?_⟩, fun env p t h n l hp => ?_, fun env p count hp hs => ?_,
    fun env before after b p f hp hb => parseTrack_violation hp hb after, fun env bytes p hp => ?_⟩
  · rintro ⟨l, hl, rfl⟩
    exact hl.parseTrack env
  · rw [parseByte_idLast env hp]
    refine ⟨checkId_badTrack, ?_, ?_⟩
    · rintro rfl hh
      exact checkId_badHead hh
    · rintro rfl rfl
      exact ⟨checkId_badLengthCode, fun hl => ⟨checkId_sizeMismatch hl, checkId_duplicateSector hl⟩⟩
  · rw [parseByte_dataEnd env hp, if_neg hs]
  · rw [parseTrack_of_parseBytes hp]
    refine ⟨fun hm => parseEnd_truncated ?_, fun hm => ?_⟩
    · obtain hm | ⟨got, hm⟩ | ⟨count, hm⟩ := hm <;> rw [hm, mayEnd]
    · have hend : mayEnd p.mode = true := by obtain hm | hm | hm := hm <;> rw [hm, mayEnd]
      refine ⟨parseEnd_noSectors hend, fun k hs h1 hk hn => parseEnd_nonContiguous hend hs ?_⟩
      refine Bool.eq_false_iff.mpr fun hc => ?_
      obtain ⟨n, hmem, e⟩ := (contiguous_iff _).mp hc k h1 hk
      exact hn n hmem e

end Sys2Proof.Machine
end

