-- ==== Sys2Proof/Proofs/Ports.lean ====
section
/-! SUPPORT. The host's ports but the external latch (40_ports_and_status.md): what a command byte runs and what every
command leaves unchanged (R114 to R119), the register ports, the data port where it is no strobe (R110 to R113). -/

namespace Sys2Proof.Machine

/-! ### The frame of every command (R118, R140, R250) -/

/-- No command that answers touches more than the fields `CommandFrame` leaves out. -/
theorem commandFrame_of_exec {i : Instr} {s t : State} (e : exec i s = .next t) : CommandFrame s t := by
  cases i with
  | restore | seek | step | stepIn | stepOut | rdSec | wrSec | wrTrk | fint =>
    obtain rfl := next_inj.mp e
    constructor <;> intros <;> rfl
  | rdSecM | wrSecM | rdAddr | rdTrk => cases e

/-- Settles O15: by the command. Beyond the common frame RESTORE changes `reg.track` and `seek_dest`, SEEK `seek_dest`,
STEP-IN and STEP-OUT `step_dir`, FORCE INTERRUPT the buffers and `drq`, and the others none of these. -/
theorem commandsLeaveTheRest : Obligations.CommandsLeaveTheRest := by
  intro i s t e
  refine ⟨commandFrame_of_exec e, ?_⟩
  cases i with
  | restore h v x =>
    obtain rfl := next_inj.mp e
    exact ⟨fun hi => absurd rfl (hi h v x), fun _ => rfl, fun hi => absurd rfl (hi h v x).1, fun _ => ⟨rfl, rfl, rfl⟩⟩
  | seek h v x =>
    obtain rfl := next_inj.mp e
    exact ⟨fun _ => rfl, fun _ => rfl, fun hi => absurd rfl (hi h v x).2, fun _ => ⟨rfl, rfl, rfl⟩⟩
  | stepIn u h v x =>
    obtain rfl := next_inj.mp e
    exact ⟨fun _ => rfl, fun hi => absurd rfl (hi u h v x).1, fun _ => rfl, fun _ => ⟨rfl, rfl, rfl⟩⟩
  | stepOut u h v x =>
    obtain rfl := next_inj.mp e
    exact ⟨fun _ => rfl, fun hi => absurd rfl (hi u h v x).2, fun _ => rfl, fun _ => ⟨rfl, rfl, rfl⟩⟩
  | step | rdSec | wrSec | wrTrk =>
    obtain rfl := next_inj.mp e
    exact ⟨fun _ => rfl, fun _ => rfl, fun _ => rfl, fun _ => ⟨rfl, rfl, rfl⟩⟩
  | fint c =>
    obtain rfl := next_inj.mp e
    exact ⟨fun _ => rfl, fun _ => rfl, fun _ => rfl, fun hi => absurd rfl (hi c)⟩
  | rdSecM | wrSecM | rdAddr | rdTrk => cases e

/-! ### The command port (R114 to R119) -/

/-- A byte written while busy that is not FORCE INTERRUPT changes nothing (R115). -/
theorem commandWrite_discards {s : State} {c : Byte} (hb : s.flags.busy = true) (hc : commandOp s c ≠ 0xD) :
    commandWrite c s = .next s := if_pos ⟨hb, hc⟩

/-- Settles O7: the busy test of the command port. -/
theorem busyWriteDiscarded : Obligations.BusyWriteDiscarded := by
  intro s c hb hc
  rw [agentStep_write_command, commandWrite_discards hb hc]

/-- With the write of a command byte at the head of the schedule, a step runs the byte's command unless the port
discards it (R114). -/
theorem step_runs_command {s : State} {c : Byte} {rest : List Event}
    (ha : s.agenda = .portWrite s.cfg.ports.cmdStatus c :: rest) (h : s.flags.busy = false ∨ commandOp s c = 0xD) :
    step s = exec (decodeUnder s.cfg.opcodeMap c) { s with agenda := rest } := by
  rw [step_of_agenda_cons ha]
  exact (agentStep_write_command c { s with agenda := rest }).trans (commandWrite_runs h)

theorem decodeByte_of_decode {c : Byte} {i : Instr} {more : List Byte} (hd : decode (c :: more) = .ok (i, more)) :
    decodeByte c = i := by
  cases hd
  rfl

theorem decodeByte_of_decodeTableWord {w : Nat} {i : Instr} (hd : decodeTableWord 8 w = some i) :
    decodeByte (BitVec.ofNat 8 w) = i := by
  cases hd
  rfl

/-- Settles O6: the byte at the head of the schedule, of which a byte placed by `withFetchWord` is a case, since the
default `OPCODE_MAP` reads it as it is. -/
theorem stepRunsDecodedCommand : Obligations.StepRunsDecodedCommand := by
  refine ⟨fun s c i more rest ha hd h => ?_, fun s w i hm hd h => ?_⟩
  · obtain rfl := decodeByte_of_decode hd
    exact step_runs_command ha h
  · obtain rfl := decodeByte_of_decodeTableWord hd
    have hstd : standardByte s.cfg.opcodeMap (BitVec.ofNat 8 w) = BitVec.ofNat 8 w := by
      rw [hm, standardByte_standardMap]
    rw [← hstd] at h ⊢
    exact step_runs_command (s := s.withFetchWord 8 w) rfl h

/-- Every command, run in any state, clears `interrupt_pending` and records its opcode, FORCE INTERRUPT 0x0, whether it
answers a next state or is refused as not implemented (R116, R117, R119, R250). -/
theorem exec_acknowledges_and_records (i : Instr) (s : State) :
    ∃ t : State, t.flags.interruptPending = false ∧ t.lastOp = (if i.opcode = 0xD then 0x0 else i.opcode) ∧
      (exec i s = .next t ∨ exec i s = .refused (.notImplemented i.opcode t)) := by
  cases i with
  | restore | seek | rdSec | wrSec | wrTrk | fint => exact ⟨_, rfl, rfl, .inl rfl⟩
  | step u | stepIn u | stepOut u => cases u <;> exact ⟨_, rfl, rfl, .inl rfl⟩
  | rdSecM | wrSecM | rdAddr | rdTrk => exact ⟨_, rfl, rfl, .inr rfl⟩

/-- Settles O8: the byte runs its command, whose opcode is the byte's under the machine's `OPCODE_MAP`. -/
theorem commandAcknowledgesAndRecords : Obligations.CommandAcknowledgesAndRecords := by
  intro s c h
  have hop : (decodeUnder s.cfg.opcodeMap c).opcode = commandOp s c := decodeByte_opcode _
  rw [agentStep_write_command, commandWrite_runs h, ← hop]
  exact exec_acknowledges_and_records _ s

/-- Settles O14: each of the four raises `NotImplemented` with its own opcode on the state `recordCommand` leaves. -/
theorem decodeOnlyCommandsRefused : Obligations.DecodeOnlyCommandsRefused :=
  fun _ _ _ _ _ => ⟨rfl, rfl, rfl, rfl⟩

/-! ### The register ports (R110, R111) -/

/-- Settles O16: which operation each access is; an answer writes `reply` alone. -/
theorem registerPorts : Obligations.RegisterPorts :=
  fun _ b hp => ⟨agentStep_write_track hp b, agentStep_read_track hp, agentStep_write_sector hp b,
    agentStep_read_sector hp⟩

/-! ### The data port where it is no strobe (R112, R113) -/

theorem dataWrite_of_drq_low {s : State} (hd : s.flags.drq = false) (b : Byte) :
    dataWrite b s = .next { s with regs := { s.regs with data := b } } := if_neg (Bool.eq_false_iff.mp hd)

theorem dataRead_of_drq_low {s : State} (hd : s.flags.drq = false) : dataRead s = .next (answer s.regs.data s) :=
  if_neg (Bool.eq_false_iff.mp hd)

/-- A write during a sector transfer that is no WRITE SECTOR loads the register and moves nothing (R112, D21, D22). -/
theorem dataWrite_of_transfer_not_write {s : State} (hp : s.phase = .t2Xfer) (ho : s.lastOp ≠ 0xA) (b : Byte) :
    dataWrite b s = .next { s with regs := { s.regs with data := b } } := by
  have hcollect : s.phase ≠ .t3Collect := by rw [hp]; decide
  have hwrite : ¬(s.phase = .t2Xfer ∧ s.lastOp = 0xA) := fun h => ho h.2
  simp only [dataWrite, if_neg hcollect, if_neg hwrite, ite_self]

/-- A read while WRITE TRACK collects has no behaviour in the spec (R113, U7). -/
theorem dataRead_of_collecting {s : State} (hd : s.flags.drq = true) (hp : s.phase = .t3Collect) :
    dataRead s = .refused .dataReadWhileCollecting := by
  simp [dataRead, hd, hp]

/-- Settles O18: with `drq` low, and under `drq` by the phase. -/
theorem dataPortWithoutStrobe : Obligations.DataPortWithoutStrobe := by
  intro s b hports
  rw [agentStep_write_data hports, agentStep_read_data hports]
  exact ⟨fun hd => ⟨dataWrite_of_drq_low hd b, dataRead_of_drq_low hd⟩,
    fun _ hp ho => dataWrite_of_transfer_not_write hp ho b, dataRead_of_collecting⟩

end Sys2Proof.Machine
end

