-- ==== Sys2Proof/Proofs/Status.lean ====
section
/-! SUPPORT. The status port (R120 to R128): the acknowledging read, which layout `last_op` picks, and the bits of a
layout. -/

namespace Sys2Proof.Machine

/-! ### The status read (R120) -/

/-- No layout shows `interrupt_pending` (R122 to R127). -/
theorem statusByte_acknowledged (s : State) :
    statusByte { s with flags := { s.flags with interruptPending := false } } = statusByte s := rfl

/-- Settles O20: the byte composed after the interrupt is acknowledged is the one of the state before. -/
theorem statusReadAnswersLiveByte : Obligations.StatusReadAnswersLiveByte := by
  intro s
  rw [agentStep_read_status, statusRead84, statusByte_acknowledged]
  rfl

/-! ### The layouts (R122 to R128) -/

/-- The bits of a byte laid out by `byteOfBits`, bit 7 first. -/
theorem getLsbD_byteOfBits (b7 b6 b5 b4 b3 b2 b1 b0 : Bool) :
    (byteOfBits b7 b6 b5 b4 b3 b2 b1 b0).getLsbD 7 = b7 ∧ (byteOfBits b7 b6 b5 b4 b3 b2 b1 b0).getLsbD 6 = b6 ∧
      (byteOfBits b7 b6 b5 b4 b3 b2 b1 b0).getLsbD 5 = b5 ∧ (byteOfBits b7 b6 b5 b4 b3 b2 b1 b0).getLsbD 4 = b4 ∧
      (byteOfBits b7 b6 b5 b4 b3 b2 b1 b0).getLsbD 3 = b3 ∧ (byteOfBits b7 b6 b5 b4 b3 b2 b1 b0).getLsbD 2 = b2 ∧
      (byteOfBits b7 b6 b5 b4 b3 b2 b1 b0).getLsbD 1 = b1 ∧ (byteOfBits b7 b6 b5 b4 b3 b2 b1 b0).getLsbD 0 = b0 := by
  revert b7 b6 b5 b4 b3 b2 b1 b0
  decide

/-- The Type I opcodes and FORCE INTERRUPT's have the Type I layout (R122, R128). -/
theorem statusByte_typeI {s : State} (h : s.lastOp.toNat < 8 ∨ s.lastOp = 0xD) : statusByte s = statusTypeI s := by
  have hne : s.lastOp.toNat < 8 ∨ s.lastOp.toNat = 13 := h.imp_right (congrArg BitVec.toNat)
  unfold statusByte
  split
  case h_8 => rfl
  all_goals omega

theorem statusByte_read {s : State} (h : s.lastOp = 0x8 ∨ s.lastOp = 0x9 ∨ s.lastOp = 0xC) :
    statusByte s = statusRead s := by
  obtain h | h | h := h <;> rw [statusByte, h] <;> rfl

theorem statusByte_write {s : State} (h : s.lastOp = 0xA ∨ s.lastOp = 0xB) : statusByte s = statusWrite s := by
  obtain h | h := h <;> rw [statusByte, h] <;> rfl

/-- READ TRACK and WRITE TRACK differ in the two bits that only a write shows (R126, R127, decision D28). -/
theorem statusByte_track {s : State} (h : s.lastOp = 0xE ∨ s.lastOp = 0xF) :
    statusByte s = byteOfBits (notReady s) (decide (s.lastOp = 0xF) && s.drive.isWriteProtected)
      (decide (s.lastOp = 0xF) && s.flags.recordTypeOrWriteFault)
      (s.cfg.wtStatusShowsRnfCrc && s.flags.recordNotFound) (s.cfg.wtStatusShowsRnfCrc && s.flags.crcError)
      s.flags.lostData s.flags.drq s.flags.busy := by
  obtain h | h := h <;> rw [statusByte, h] <;> rfl

/-- Settles O21: the bits of the Type I layout. -/
theorem typeIStatusLayout : Obligations.TypeIStatusLayout := by
  intro s h
  rw [statusByte_typeI h]
  exact getLsbD_byteOfBits ..

/-- Settles O22: the bits of the layout each opcode has. -/
theorem transferStatusLayouts : Obligations.TransferStatusLayouts := by
  refine fun s => ⟨fun h => ?_, fun h => ?_, fun h => ?_⟩
  · rw [statusByte_read h]
    exact getLsbD_byteOfBits ..
  · rw [statusByte_write h]
    exact getLsbD_byteOfBits ..
  · rw [statusByte_track h]
    exact getLsbD_byteOfBits ..

end Sys2Proof.Machine
end

