-- ==== Sys2Proof/Proofs/TypeI.lean ====
section
/-! SUPPORT. The Type I commands (41_type1.md): their acceptance, the worker's tick, and a SEEK or RESTORE left alone, by
induction over the cylinders between the register and the destination. -/

namespace Sys2Proof.Machine

/-! ### Acceptance (R140 to R145) -/

/-- Settles O9: the dispatcher's part, RESTORE's own, and the common tail, field by field. -/
theorem restoreAccepted : Obligations.RestoreAccepted := fun _ _ _ _ => rfl

/-- Settles O10: the dispatcher's part, SEEK's own, and the common tail, field by field. -/
theorem seekAccepted : Obligations.SeekAccepted := fun _ _ _ _ => rfl

/-- Settles O11: one equation per command of the family. -/
theorem stepFamilyAccepted : Obligations.StepFamilyAccepted := fun _ _ _ _ _ => ⟨rfl, rfl, rfl⟩

/-! ### The worker's tick (R146 to R149) -/

/-- A Type I worker that is not aborted ticks (R20, R146). -/
theorem fireWorker_t1Tick {s : State} (ha : s.flags.commandAbort = false) : fireWorker .t1Tick s = .next (t1Tick s) := by
  simp [fireWorker, ha]

theorem stepDelta_eq (d : Config.StepDir) : stepDelta d = if d = .inward then 1 else -1 := by cases d <;> rfl

theorem stepTrack_eq (d : Config.StepDir) (t : Byte) : stepTrack d t = if d = .inward then t + 1 else t - 1 := by
  cases d <;> rfl

/-- Settles O23: the step toward the destination by the two directions, the pending step by `step_dir`. -/
theorem typeITickSteps : Obligations.TypeITickSteps := by
  refine fun s ha => ⟨fun hk hne => ?_, fun hk hp => ?_⟩
  · rw [fireWorker_t1Tick ha, t1Tick_seek hk hne, seekDirection]
    by_cases hup : s.regs.track.toNat < s.seekDest.toNat
    · simp only [hup, if_true, decide_true]
      rfl
    · simp only [hup, if_false, decide_false, Bool.false_eq_true]
      rfl
  · rw [fireWorker_t1Tick ha, t1Tick_pending hk hp, ← stepDelta_eq, ← stepTrack_eq]
    rfl

/-- Settles O24: neither kind of step is due, so the tick is the completion. -/
theorem typeITickCompletes : Obligations.TypeITickCompletes := by
  intro s ha hdone
  have hc : t1Tick s = t1Complete s := by
    obtain ⟨hk, ht⟩ | ⟨hk, hp⟩ := hdone
    · exact t1Tick_done (fun _ => ht) (fun h => by cases hk.symm.trans h)
    · exact t1Tick_done (fun h => by cases hk.symm.trans h) (fun _ => hp)
  rw [fireWorker_t1Tick ha, hc]
  rfl

/-! ### Runs -/

theorem run_succ_of_step {s u : State} (h : step s = .next u) (k : Nat) : core.run (k + 1) s = core.run k u := by
  have hstep : core.step s = .next u := h
  simp only [Host.Core.run, hstep]

/-- With nothing scheduled and no timer pending, nothing happens by itself (R22). -/
theorem run_of_quiet {s : State} (ha : s.agenda = []) (hw : s.workerTimer = none) (hi : s.indexTimer = none) (k : Nat) :
    core.run k s = .next s := by
  have hstep : step s = .next s := by rw [step_of_agenda_nil ha, tick, nextTimer_of_none hw hi]
  induction k with
  | zero => rfl
  | succ k ih => rw [run_succ_of_step hstep, ih]

/-- Settles O58: FORCE INTERRUPT leaves no worker timer (R250; decision D6). -/
theorem afterForceInterruptNothingFires : Obligations.AfterForceInterruptNothingFires := by
  intro s t c k ha hi e
  obtain rfl := next_inj.mp e
  refine run_of_quiet ?_ ?_ ?_ k
  · exact ha
  · rfl
  · exact hi

/-! ### One step toward the destination (R146, R149) -/

/-- How many cylinders the register still has to go, upward (R146). -/
def seekOffset (s : State) : Int := (s.seekDest.toNat : Int) - s.regs.track.toNat

theorem seekOffset_eq_zero_iff {s : State} : seekOffset s = 0 ↔ s.regs.track = s.seekDest := by
  rw [← BitVec.toNat_inj, seekOffset]
  omega

/-- A step goes the way the offset points (R146). -/
theorem seekDirection_cases {s : State} (hne : s.regs.track ≠ s.seekDest) :
    (seekDirection s = .inward ∧ 0 < seekOffset s) ∨ (seekDirection s = .outward ∧ seekOffset s < 0) := by
  have h0 := mt seekOffset_eq_zero_iff.mp hne
  unfold seekDirection
  unfold seekOffset at h0 ⊢
  split
  · exact .inl ⟨rfl, by omega⟩
  · exact .inr ⟨rfl, by omega⟩

/-- A step changes the head's cylinder by one, toward an offset of 0 (R147). -/
theorem stepDelta_seekDirection_cases {s : State} (hne : s.regs.track ≠ s.seekDest) :
    (stepDelta (seekDirection s) = 1 ∧ 0 < seekOffset s) ∨ (stepDelta (seekDirection s) = -1 ∧ seekOffset s < 0) :=
  (seekDirection_cases hne).imp (And.imp_left (congrArg stepDelta)) (And.imp_left (congrArg stepDelta))

/-- A step toward the destination does not wrap the register (R149). -/
theorem stepTrack_toNat {s : State} (hne : s.regs.track ≠ s.seekDest) :
    ((stepTrack (seekDirection s) s.regs.track).toNat : Int) = s.regs.track.toNat + stepDelta (seekDirection s) := by
  have hreg := s.regs.track.isLt
  have hdest := s.seekDest.isLt
  have hone : (1 : Byte).toNat = 1 := rfl
  obtain ⟨hd, hlt⟩ | ⟨hd, hlt⟩ := seekDirection_cases hne <;> rw [hd] <;> unfold seekOffset at hlt
  · simp only [stepTrack, stepDelta, BitVec.toNat_add, hone]
    omega
  · simp only [stepTrack, stepDelta, BitVec.toNat_sub, hone]
    omega

/-! ### A SEEK or RESTORE left alone (R146 to R149) -/

/-- A SEEK or RESTORE whose next tick is at `due`, with nothing else to happen, on a drive that has the cylinders on the
way (decision D11). -/
structure SeekInFlight (s : State) (due : Nat) : Prop where
  agenda : s.agenda = []
  indexTimer : s.indexTimer = none
  abort : s.flags.commandAbort = false
  timer : s.workerTimer = some { due := due, kind := .t1Tick }
  now : s.now ≤ due
  kind : s.t1Kind = .seekLike
  head_nonneg : 0 ≤ s.drive.track
  head_le : s.drive.track ≤ s.cfg.maxCyl
  dest_nonneg : 0 ≤ s.drive.track + seekOffset s
  dest_le : s.drive.track + seekOffset s ≤ s.cfg.maxCyl

/-- The SEEK or RESTORE in flight in `s` is complete in `t`, at `time` (R148). -/
structure SeekDone (s t : State) (time : Nat) : Prop where
  track : t.regs.track = s.seekDest
  head : t.drive.track = s.drive.track + seekOffset s
  phase : t.phase = .idle
  timer : t.workerTimer = none
  busy : t.flags.busy = false
  pending : t.flags.interruptPending = true
  headLoaded : t.flags.headLoaded = s.cmd.h
  intEvents : t.intEvents = s.cfg.intLine :: s.intEvents
  now : t.now = time
  seekError : t.flags.seekError = (s.cmd.v && s.drive.isLoaded && decide (s.seekDest ≠ trackLow t.drive.track))
  sector : t.regs.sector = s.regs.sector
  data : t.regs.data = s.regs.data
  mem : t.mem = s.mem
  disk : t.disk = s.disk

/-- The worker's timer is gone and time is at its due time: where its tick starts (R20, R22). -/
def workerDue (due : Nat) (s : State) : State := { s with now := due, workerTimer := none }

/-- The state after the tick at `due` that takes a step toward the destination. -/
def seekStepped (due : Nat) (s : State) : State :=
  startTimer s.cfg.tStep .t1Tick (oneStep (seekDirection s) true (workerDue due s))

section
variable {s : State} {due : Nat}

/-- A SEEK left alone is ticked at its due time (R22, R146). -/
theorem SeekInFlight.step_eq (h : SeekInFlight s due) : step s = .next (t1Tick (workerDue due s)) := by
  obtain ⟨-, hworker, -⟩ := tickFiresEarliestTimer s
  have htick := hworker _ h.timer h.now (by simp [h.indexTimer])
  rw [step_of_agenda_nil h.agenda]
  exact htick.trans (fireWorker_t1Tick h.abort)

theorem SeekInFlight.step_of_ne (h : SeekInFlight s due) (hne : s.regs.track ≠ s.seekDest) :
    step s = .next (seekStepped due s) := by
  rw [h.step_eq]
  exact congrArg _ (t1Tick_seek h.kind hne)

/-- At the destination the tick completes the command (R146, R148). -/
theorem SeekInFlight.step_of_eq (h : SeekInFlight s due) (heq : s.regs.track = s.seekDest) :
    step s = .next (t1Complete (workerDue due s)) := by
  rw [h.step_eq]
  exact congrArg _ (t1Tick_done (fun _ => heq) (fun hk => by cases h.kind.symm.trans hk))

theorem seekDone_of_eq (heq : s.regs.track = s.seekDest) : SeekDone s (t1Complete (workerDue due s)) due where
  track := heq
  head := by rw [seekOffset_eq_zero_iff.mpr heq, add_zero]; rfl
  phase := rfl
  timer := rfl
  busy := rfl
  pending := rfl
  headLoaded := rfl
  intEvents := rfl
  now := rfl
  seekError := by rw [← heq]; rfl
  sector := rfl
  data := rfl
  mem := rfl
  disk := rfl

theorem seekOffset_seekStepped (hne : s.regs.track ≠ s.seekDest) :
    seekOffset (seekStepped due s) = seekOffset s - stepDelta (seekDirection s) := by
  have hreg : (seekStepped due s).regs.track = stepTrack (seekDirection s) s.regs.track := rfl
  have hdest : (seekStepped due s).seekDest = s.seekDest := rfl
  rw [seekOffset, seekOffset, hreg, hdest, stepTrack_toNat hne]
  omega

/-- The cylinder of the next step is on the way, so the drive has it (decision D11). -/
theorem SeekInFlight.next_in_range (h : SeekInFlight s due) (hne : s.regs.track ≠ s.seekDest) :
    0 ≤ s.drive.track + stepDelta (seekDirection s) ∧ s.drive.track + stepDelta (seekDirection s) ≤ s.cfg.maxCyl := by
  have hhead := And.intro h.head_nonneg h.head_le
  have hdest := And.intro h.dest_nonneg h.dest_le
  have hdelta := stepDelta_seekDirection_cases hne
  omega

/-- The head is where the step's positioning call sends it (R300). -/
theorem SeekInFlight.seekStepped_head (h : SeekInFlight s due) (hne : s.regs.track ≠ s.seekDest) :
    (seekStepped due s).drive.track = s.drive.track + stepDelta (seekDirection s) := by
  obtain ⟨h0, h1⟩ := h.next_in_range hne
  exact congrArg Config.HeadPos.track (seekTarget_in_range s.cfg s.drive _ h0 h1)

/-- The register and the head go together, so the head's destination stands (R147). -/
theorem SeekInFlight.seekStepped_dest (h : SeekInFlight s due) (hne : s.regs.track ≠ s.seekDest) :
    (seekStepped due s).drive.track + seekOffset (seekStepped due s) = s.drive.track + seekOffset s := by
  rw [h.seekStepped_head hne, seekOffset_seekStepped hne]
  omega

/-- After a step the command is in flight still, its next tick `T_STEP` later (R147). -/
theorem SeekInFlight.after_step (h : SeekInFlight s due) (hne : s.regs.track ≠ s.seekDest) :
    SeekInFlight (seekStepped due s) (due + s.cfg.tStep) where
  agenda := h.agenda
  indexTimer := h.indexTimer
  abort := h.abort
  timer := rfl
  now := Nat.le_add_right _ _
  kind := h.kind
  head_nonneg := (h.seekStepped_head hne).symm ▸ (h.next_in_range hne).1
  head_le := (h.seekStepped_head hne).symm ▸ (h.next_in_range hne).2
  dest_nonneg := (h.seekStepped_dest hne).symm ▸ h.dest_nonneg
  dest_le := (h.seekStepped_dest hne).symm ▸ h.dest_le

theorem SeekDone.of_seekStepped {t : State} {time : Nat} (h : SeekInFlight s due) (hne : s.regs.track ≠ s.seekDest)
    (hd : SeekDone (seekStepped due s) t time) : SeekDone s t time :=
  { hd with head := hd.head.trans (h.seekStepped_dest hne) }

/-- A SEEK or RESTORE `n` cylinders away is done after `n` steps and the completing tick (R146 to R149, R330). -/
theorem SeekInFlight.run_done {n : Nat} (h : SeekInFlight s due) (hn : n = (seekOffset s).natAbs) :
    ∃ t : State, core.run (n + 1) s = .next t ∧ SeekDone s t (due + n * s.cfg.tStep) := by
  induction n generalizing s due with
  | zero =>
    have heq : s.regs.track = s.seekDest := seekOffset_eq_zero_iff.mp (by omega)
    refine ⟨_, run_succ_of_step (h.step_of_eq heq) 0, ?_⟩
    simpa using seekDone_of_eq heq
  | succ n ih =>
    have hne : s.regs.track ≠ s.seekDest := fun heq => by
      rw [seekOffset_eq_zero_iff.mpr heq] at hn
      cases hn
    have hn' : n = (seekOffset (seekStepped due s)).natAbs := by
      have hdelta := stepDelta_seekDirection_cases hne
      rw [seekOffset_seekStepped hne]
      omega
    obtain ⟨t, hrun, hdone⟩ := ih (h.after_step hne) hn'
    refine ⟨t, (run_succ_of_step (h.step_of_ne hne) _).trans hrun, SeekDone.of_seekStepped h hne ?_⟩
    have htime : due + s.cfg.tStep + n * s.cfg.tStep = due + (n + 1) * s.cfg.tStep := by ring
    exact htime ▸ hdone

end

/-- Settles O26: by induction over the distance. -/
theorem seekReachesDestination : Obligations.SeekReachesDestination := by
  intro s due n hagenda hindex habort _ htimer hnow hkind hn hhead0 hhead1 hdest0 hdest1
  have hflight : SeekInFlight s due :=
    ⟨hagenda, hindex, habort, htimer, hnow, hkind, hhead0, hhead1, hdest0, hdest1⟩
  obtain ⟨t, hrun, hd⟩ := hflight.run_done hn
  exact ⟨t, hrun, hd.track, hd.head, hd.phase, hd.timer, hd.busy, hd.pending, hd.headLoaded, hd.intEvents, hd.now,
    hd.seekError, hd.sector, hd.data, hd.mem, hd.disk⟩

/-! ### RESTORE (R141) -/

theorem toNat_trackLow {n : Nat} (hn : n ≤ 255) : (trackLow n).toNat = n := by
  rw [trackLow, BitVec.ofInt_natCast, BitVec.toNat_ofNat]
  omega

section
variable {h v : Bool} {x n : Nat} {s t : State}

/-- What an accepted RESTORE starts the worker with; the rest is the frame of every command (R141, R140, R118). -/
theorem restore_starts (e : exec (.restore h v x) s = .next t) :
    t.regs.track = trackLow s.drive.track ∧ t.seekDest = 0 ∧ t.cmd.h = h ∧ t.flags.commandAbort = false ∧
      t.t1Kind = .seekLike ∧ t.workerTimer = some { due := s.now + s.cfg.tAccept, kind := .t1Tick } := by
  obtain rfl := next_inj.mp e
  exact ⟨rfl, rfl, rfl, rfl, rfl, rfl⟩

/-- RESTORE has as far to go as the head is from cylinder 0 (R141). -/
theorem seekOffset_of_restore (e : exec (.restore h v x) s = .next t) (hhead : s.drive.track = n) (hn : n ≤ 255) :
    seekOffset t = -n := by
  obtain ⟨htrack, hdest, -⟩ := restore_starts e
  rw [seekOffset, htrack, hdest, hhead, toNat_trackLow hn]
  simp

/-- An accepted RESTORE is in flight to cylinder 0. -/
theorem seekInFlight_of_restore (e : exec (.restore h v x) s = .next t) (hagenda : s.agenda = [])
    (hindex : s.indexTimer = none) (hhead : s.drive.track = n) (hn : n ≤ 255) (hmax : n ≤ s.cfg.maxCyl) :
    SeekInFlight t (s.now + s.cfg.tAccept) := by
  have hf := commandFrame_of_exec e
  have hoff := seekOffset_of_restore e hhead hn
  obtain ⟨-, -, -, habort, hkind, htimer⟩ := restore_starts e
  constructor
  case agenda => rw [hf.agenda, hagenda]
  case indexTimer => rw [hf.indexTimer, hindex]
  case abort => exact habort
  case timer => exact htimer
  case now => rw [hf.now]; exact Nat.le_add_right _ _
  case kind => exact hkind
  all_goals
    simp only [hf.drive, hf.cfg, hoff, hhead]
    omega

end

/-- Settles O27: the accepted RESTORE is in flight to 0, and its register is the head's cylinder. -/
theorem restoreReachesCylinderZero : Obligations.RestoreReachesCylinderZero := by
  intro s h v x n hagenda hindex hhead hn hmax
  obtain ⟨t, e⟩ : ∃ t, exec (.restore h v x) s = .next t := ⟨_, rfl⟩
  have hf := commandFrame_of_exec e
  have hoff := seekOffset_of_restore e hhead hn
  obtain ⟨-, hdest, hh, -⟩ := restore_starts e
  obtain ⟨u, hrun, hd⟩ := (seekInFlight_of_restore e hagenda hindex hhead hn hmax).run_done (n := n) (by omega)
  have hzero : u.drive.track = 0 := by rw [hd.head, hoff, hf.drive, hhead, add_neg_cancel]
  refine ⟨t, u, e, hrun, hd.track.trans hdest, hzero, ?_, hd.headLoaded.trans hh, hd.busy, hd.pending, hd.phase, ?_, ?_,
    ?_⟩
  · have hverify : trackLow 0 = 0 := rfl
    simp [hd.seekError, hdest, hzero, hverify]
  · rw [hd.intEvents, hf.cfg, hf.intEvents]
  · rw [hd.data, hf.data]
  · rw [hd.now, hf.cfg]

end Sys2Proof.Machine
end

