-- ==== Sys2Proof/Proofs/Head.lean ====
section
/-! SUPPORT. The head over a step (R147, R300, R301): the Type I worker's tick alone calls the drive's positioning, and
every other operation leaves `drive.track`. -/

namespace Sys2Proof.Machine

/-- `t` has the head of `s` where it was. -/
def HeadKept (s t : State) : Prop := t.drive.track = s.drive.track

/-- The worker's timer was due by the time of `t`, and a Type I worker not aborted was what it ran (R20). -/
def TypeIFired (s t : State) : Prop :=
  ∃ w : WorkerTimer, s.workerTimer = some w ∧ w.kind = .t1Tick ∧ s.flags.commandAbort = false ∧ w.due ≤ t.now

/-! ### Commands and ports -/

theorem headKept_of_dispatch {c : Byte} {s t : State} (e : dispatch c s = .next t) : HeadKept s t := by
  obtain ⟨-, -, rfl⟩ | ⟨-, e⟩ := dispatch_cases e
  · rfl
  · exact congrArg Drive.track (commandFrame_of_exec e).drive

theorem headKept_of_dataWrite {b : Byte} {s t : State} (e : dataWrite b s = .next t) : HeadKept s t := by
  obtain ⟨-, -, e⟩ | ⟨-, -, -, e⟩ | rfl := dataWrite_cases e
  · obtain ⟨w, -, -, rfl⟩ := writeTrackByte_cases e
    rfl
  · obtain ⟨x, -, ⟨-, rfl⟩ | ⟨-, rfl⟩ | ⟨-, rfl⟩⟩ := sectorPioWrite_cases e <;> rfl
  · rfl

theorem headKept_of_dataRead {s t : State} (e : dataRead s = .next t) : HeadKept s t := by
  obtain ⟨-, -, e⟩ | ⟨-, rfl⟩ := dataRead_cases e
  · obtain ⟨x, -, ⟨-, rfl⟩ | ⟨-, rfl⟩ | ⟨-, rfl⟩⟩ := sectorPioRead_cases e <;> rfl
  · rfl

theorem headKept_startIndexOverride (s : State) : HeadKept s (startIndexOverride s) := by
  unfold startIndexOverride
  split <;> rfl

/-- The latch write moves the drive's select alone, and the synthetic RESTORE is only accepted here (R260, R266). -/
theorem headKept_of_extWrite {b : Byte} {s t : State} (e : extWrite b s = .next t) : HeadKept s t := by
  obtain ⟨l, -, ⟨-, rfl⟩ | ⟨-, -, rfl⟩ | ⟨-, -, u, hu, rfl⟩⟩ := extWrite_cases e
  · rfl
  · rfl
  · have hrestore : HeadKept s u := (headKept_of_dispatch hu :)
    exact (headKept_startIndexOverride u).trans hrestore

theorem headKept_of_portWrite {p b : Byte} {s t : State} (e : portWrite p b s = .next t) : HeadKept s t := by
  obtain ⟨-, e⟩ | ⟨-, rfl⟩ | ⟨-, rfl⟩ | ⟨-, e⟩ | ⟨-, e⟩ := portWrite_cases e
  · exact headKept_of_dispatch e
  · rfl
  · rfl
  · exact headKept_of_dataWrite e
  · exact headKept_of_extWrite e

theorem headKept_of_portRead {p : Byte} {s t : State} (e : portRead p s = .next t) : HeadKept s t := by
  obtain ⟨-, rfl⟩ | ⟨-, rfl⟩ | ⟨-, rfl⟩ | ⟨-, e⟩ | ⟨-, rfl⟩ := portRead_cases e
  · rfl
  · rfl
  · rfl
  · exact headKept_of_dataRead e
  · rfl

/-! ### The DMA engine and the drive -/

theorem headKept_of_dmaRead {s t : State} (e : dmaRead s = .next t) : HeadKept s t := by
  obtain ⟨-, -, x, -, ⟨-, rfl⟩ | ⟨-, rfl⟩⟩ := dmaRead_cases e <;> rfl

theorem headKept_of_dmaWrite {b : Byte} {s t : State} (e : dmaWrite b s = .next t) : HeadKept s t := by
  obtain ⟨-, -, -, x, -, ⟨-, rfl⟩ | ⟨-, rfl⟩⟩ := dmaWrite_cases e <;> rfl

theorem headKept_of_dmaComplete {s t : State} (e : dmaComplete s = .next t) : HeadKept s t := by
  obtain ⟨-, -, rfl⟩ := dmaComplete_cases e
  rfl

theorem headKept_drqQuery (s : State) : HeadKept s (drqQuery s) := by
  unfold drqQuery
  split <;> rfl

theorem headKept_of_indexEdge {s t : State} (e : indexEdge s = .next t) : HeadKept s t := by
  obtain ⟨-, e⟩ | ⟨-, rfl⟩ := indexEdge_cases e
  · obtain ⟨w, n, size, -, -, -, rfl⟩ := finishWriteTrack_cases e
    rfl
  · rfl

theorem headKept_driveInput (i : DriveInput) (s : State) :
    HeadKept s { s with drive := applyDriveInput i s.drive } := by
  cases i <;> rfl

theorem headKept_masterResetLevel (high : Bool) (s : State) : HeadKept s (masterResetLevel high s) := by
  unfold masterResetLevel
  split <;> rfl

/-! ### The timer agent -/

theorem headKept_of_sectorEntry {s t : State} (e : sectorEntry s = .next t) : HeadKept s t := by
  obtain ⟨-, rfl⟩ | ⟨trk, -, -, ⟨-, rfl⟩ | ⟨len, -, -, -, -, rfl⟩⟩ := sectorEntry_cases e <;> rfl

/-- Of the worker's steps only a Type I tick that is not aborted moves the head (R20, R147). -/
theorem headKept_or_t1Tick_of_fireWorker {k : TimerKind} {s t : State} (e : fireWorker k s = .next t) :
    HeadKept s t ∨ (k = .t1Tick ∧ s.flags.commandAbort = false) := by
  obtain ⟨-, rfl⟩ | ⟨ha, ⟨hk, -⟩ | ⟨-, e⟩ | ⟨-, e⟩⟩ := fireWorker_cases e
  · exact .inl rfl
  · exact .inr ⟨hk, ha⟩
  · exact .inl (headKept_of_sectorEntry e)
  · obtain ⟨-, -, rfl⟩ := wtEntry_cases e
    exact .inl rfl

/-- A tick moves the head only by firing the Type I worker, and not before its due time (R22). -/
theorem headKept_or_fired_of_tick {s t : State} (e : tick s = .next t) : HeadKept s t ∨ TypeIFired s t := by
  obtain ⟨-, -, rfl⟩ | ⟨w, hw, -, e⟩ | ⟨i, -, -, rfl⟩ := tick_cases e
  · exact .inl rfl
  · have hdue : w.due ≤ t.now := (Nat.le_max_right _ _).trans (later_of_fireWorker e).now
    obtain hkept | ⟨hk, ha⟩ := headKept_or_t1Tick_of_fireWorker e
    · exact .inl hkept
    · exact .inr ⟨w, hw, hk, ha, hdue⟩
  · exact .inl rfl

theorem headKept_or_fired_of_runLine {s t : State} (e : runLine s = .next t) : HeadKept s t ∨ TypeIFired s t := by
  obtain ⟨-, rfl⟩ | e := runLine_cases e
  · exact .inl rfl
  · exact (headKept_or_fired_of_tick e :)

theorem headKept_or_fired_of_waitLine {ns : Nat} {s t : State} (e : waitLine ns s = .next t) :
    HeadKept s t ∨ TypeIFired s t := by
  obtain ⟨-, -, rfl⟩ | ⟨rest, e⟩ := waitLine_cases e
  · exact .inl rfl
  · exact (headKept_or_fired_of_tick e :)

theorem headKept_elapse (ns : Nat) (s : State) : HeadKept s (elapse ns s) := by
  obtain ⟨d, -, -, -, e⟩ := elapse_cases ns s
  rw [e]
  rfl

/-! ### Every step -/

/-- The events with which the timer agent fires timers (R92). -/
def Event.firesTimers (a : Event) : Prop := a = .tick ∨ a = .run ∨ ∃ ns, a = .wait ns

theorem headKept_or_fired_of_agentStep {a : Event} {s t : State} (e : agentStep a s = .next t) :
    HeadKept s t ∨ (TypeIFired s t ∧ a.firesTimers) := by
  cases a with
  | tick => exact (headKept_or_fired_of_tick e).imp_right (⟨·, .inl rfl⟩)
  | run => exact (headKept_or_fired_of_runLine e).imp_right (⟨·, .inr (.inl rfl)⟩)
  | wait ns => exact (headKept_or_fired_of_waitLine e).imp_right (⟨·, .inr (.inr ⟨ns, rfl⟩)⟩)
  | portWrite port b => exact .inl (headKept_of_portWrite e)
  | portRead port => exact .inl (headKept_of_portRead e)
  | masterReset high => obtain rfl := next_inj.mp e; exact .inl (headKept_masterResetLevel high s)
  | elapse ns => obtain rfl := next_inj.mp e; exact .inl (headKept_elapse ns s)
  | drqQuery => obtain rfl := next_inj.mp e; exact .inl (headKept_drqQuery s)
  | dmaRead => exact .inl (headKept_of_dmaRead e)
  | dmaWrite b => exact .inl (headKept_of_dmaWrite e)
  | dmaComplete => exact .inl (headKept_of_dmaComplete e)
  | indexEdge => exact .inl (headKept_of_indexEdge e)
  | driveInput d => obtain rfl := next_inj.mp e; exact .inl (headKept_driveInput d s)
  | reset | dmaTc => obtain rfl := next_inj.mp e; exact .inl rfl

/-- Settles O56: the timer agent's tick with nothing scheduled, or the step of the agent at the head of the schedule. -/
theorem onlyTheWorkerMovesTheHead : Obligations.OnlyTheWorkerMovesTheHead := by
  intro s t e hmoved
  obtain ⟨ha, e⟩ | ⟨a, rest, ha, e⟩ := step_cases e
  · obtain hkept | hfired := headKept_or_fired_of_tick e
    · exact absurd hkept hmoved
    · exact ⟨hfired, .inl ha⟩
  · obtain hkept | ⟨hfired, hevent⟩ := headKept_or_fired_of_agentStep e
    · exact absurd hkept hmoved
    · exact ⟨hfired, .inr ⟨a, rest, ha, hevent⟩⟩

end Sys2Proof.Machine
end

