-- ==== Sys2Proof/Proofs/TypeII.lean ====
section
/-! SUPPORT. The Type II commands and the acceptance of WRITE TRACK (42_type2.md): the sector entry, the pacing of DRQ,
the DMA and PIO transfer steps inside the buffer and past its end, and a whole WRITE SECTOR by programmed I/O. -/

namespace Sys2Proof.Machine

/-! ### Acceptance (R170, R171, R212) -/

/-- Settles O12: the dispatcher's part and the start of the entry timer, field by field. -/
theorem transferCommandsAccepted : Obligations.TransferCommandsAccepted := fun _ _ _ _ _ => ⟨rfl, rfl, rfl⟩

/-! ### The sector entry (R172 to R175) -/

/-- A sector entry that is not aborted runs (R20, R172). -/
theorem fireWorker_sectorEntry {s : State} (ha : s.flags.commandAbort = false) :
    fireWorker .sectorEntry s = sectorEntry s := if_neg (Bool.eq_false_iff.mp ha)

theorem notReady_iff (s : State) : notReady s = true ↔ s.ext.driveSelect = false ∨ s.drive.isLoaded = false := by
  simp [notReady]

theorem notReady_eq_false {s : State} (hsel : s.ext.driveSelect = true) (hload : s.drive.isLoaded = true) :
    notReady s = false := by
  simp [notReady, hsel, hload]

theorem sectorEntry_of_notReady {s : State} (h : notReady s = true) : sectorEntry s = .next (failSector s) := if_pos h

/-- The medium of a ready drive has no such track (R172, U9). -/
theorem sectorEntry_of_no_track {s : State} (h : notReady s = false)
    (ht : getTrack s.disk s.drive.track (headSelect s) = none) : sectorEntry s = .refused .noSuchTrack := by
  simp only [sectorEntry, h, ht, Bool.false_eq_true, if_false]

theorem sectorEntry_of_track {s : State} {trk : Track} (h : notReady s = false)
    (ht : getTrack s.disk s.drive.track (headSelect s) = some trk) : sectorEntry s = sectorChecks trk s := by
  simp only [sectorEntry, h, ht, Bool.false_eq_true, if_false]

theorem sectorRefused_iff (trk : Track) (s : State) :
    sectorRefused trk s = true ↔
      recordNotFoundAt s trk = true ∨ crcErrorAt s trk = true ∨ (s.lastOp ≠ 0x8 ∧ s.drive.isWriteProtected = true) := by
  simp [sectorRefused, or_assoc]

/-- The density error is that neither supported format agrees with the density latch (R172). -/
theorem crcErrorAt_eq (s : State) (trk : Track) :
    crcErrorAt s trk =
      !(decide (trk.format = .fm500) && !s.ext.dden || decide (trk.format = .mfm500) && s.ext.dden) := by
  cases hf : trk.format <;> simp [crcErrorAt, hf]

theorem sectorChecks_of_refused {s : State} {trk : Track} (h : sectorRefused trk s = true) :
    sectorChecks trk s = .next (failSector (assignErrorFlags trk s)) := if_pos h

/-- Sector 0 passes the comparison with the sector count and is fatal (R173 (c), decision D15). -/
theorem sectorChecks_of_sector_zero {s : State} {trk : Track} (h : sectorRefused trk s = false)
    (hz : s.regs.sector = 0) : sectorChecks trk s = .fault .sectorZero := by
  rw [sectorChecks, if_neg (Bool.eq_false_iff.mp h), if_pos hz]

theorem sectorChecks_of_passed {s : State} {trk : Track} (h : sectorRefused trk s = false) (hz : s.regs.sector ≠ 0) :
    sectorChecks trk s = beginTransfer trk (assignErrorFlags trk s) := by
  rw [sectorChecks, if_neg (Bool.eq_false_iff.mp h), if_neg hz]

/-- A sector whose data array is empty is outside the disk's contract (R175, U9). -/
theorem beginTransfer_of_empty {s : State} {trk : Track} (h : trk.sectorLens[s.regs.sector.toNat - 1]? = some 0) :
    beginTransfer trk s = .refused .noSuchSector := by
  rw [beginTransfer, List.getD_eq_getElem?_getD, h]
  rfl

/-- Steps 2 and 3 of an entry without an error clear both error flags (R172, decision D5). -/
theorem assignErrorFlags_of_no_error {s : State} {trk : Track} (hrnf : recordNotFoundAt s trk = false)
    (hcrc : crcErrorAt s trk = false) :
    assignErrorFlags trk s = { s with flags := { s.flags with recordNotFound := false, crcError := false } } := by
  rw [assignErrorFlags, hrnf, hcrc]

/-- A transfer that begins changes nothing of the disk but the modified mark, which a write sets (R175). -/
theorem openTransfer_eq (trk : Track) (len : Nat) (s : State) :
    openTransfer trk len s =
      { s with
        flags := { s.flags with busy := true, drq := true }
        xfer := some { cyl := trk.cyl, head := trk.head, sidx := s.regs.sector.toNat - 1, len := len, idx := 0 }
        disk := { s.disk with modified := if s.lastOp = 0x8 then s.disk.modified else true }
        phase := .t2Xfer } := by
  rw [openTransfer]
  split <;> rfl

/-- Settles O28: not ready, no track, and a track with a check that fails. -/
theorem sectorEntryFails : Obligations.SectorEntryFails := by
  refine ⟨fun s ha h => ?_, fun s ha hsel hload ht => ?_, fun s trk ha hsel hload ht hfail => ?_⟩
  · rw [fireWorker_sectorEntry ha, sectorEntry_of_notReady ((notReady_iff s).mpr h)]
    rfl
  · rw [fireWorker_sectorEntry ha, sectorEntry_of_no_track (notReady_eq_false hsel hload) ht]
  · rw [fireWorker_sectorEntry ha, sectorEntry_of_track (notReady_eq_false hsel hload) ht,
      sectorChecks_of_refused ((sectorRefused_iff trk s).mpr hfail), ← crcErrorAt_eq]
    rfl

/-- Settles O29: every check passed, by the sector number and the length of the sector's data array. -/
theorem sectorEntryBegins : Obligations.SectorEntryBegins := by
  intro s trk ha hsel hload ht hrnf hcrc hprot
  have hpass : sectorRefused trk s = false := by
    rw [Bool.eq_false_iff, Ne, sectorRefused_iff, hrnf, hcrc]
    rcases hprot with h | h <;> simp [h]
  rw [fireWorker_sectorEntry ha, sectorEntry_of_track (notReady_eq_false hsel hload) ht]
  refine ⟨sectorChecks_of_sector_zero hpass, fun hz hlen => ?_, fun len hz hlen hpos => ?_⟩
  · rw [sectorChecks_of_passed hpass hz]
    exact beginTransfer_of_empty hlen
  · rw [sectorChecks_of_passed hpass hz, assignErrorFlags_of_no_error hrnf hcrc]
    exact beginTransfer_eq_next.mpr ⟨len, hlen, hpos, openTransfer_eq ..⟩

/-! ### The pacing of DRQ (R180) -/

theorem drqQuery_of_drq_low {s : State} (hd : s.flags.drq = false) :
    drqQuery s = { s with reply := .request false } := if_neg (Bool.eq_false_iff.mp hd)

/-- A query that does not use up the counter answers false (R180). -/
theorem drqQuery_counts {s : State} {k : Nat} (hd : s.flags.drq = true) (hc : s.drqCounter = k + 2) :
    drqQuery s = { s with drqCounter := k + 1, reply := .request false } := by
  simp [drqQuery, drqCount, answerRequest, hd, hc]

/-- The query that uses up the counter answers true and reloads it (R180). -/
theorem drqQuery_fires {s : State} (hd : s.flags.drq = true) (hc : s.drqCounter = 1) :
    drqQuery s = { s with drqCounter := s.cfg.drqReload, reply := .request true } := by
  simp [drqQuery, drqCount, answerRequest, hd, hc]

/-- The first `k` queries from a counter of `k + 1` count down and answer false (R180). -/
theorem drqQuery_iterate {s : State} {k n : Nat} (hd : s.flags.drq = true) (hc : s.drqCounter = k + 1) (hn : n ≤ k) :
    drqQuery^[n] s =
      { s with drqCounter := k + 1 - n, reply := if n = 0 then s.reply else .request false } := by
  induction n with
  | zero => simp [← hc]
  | succ n ih =>
    have hcount : k + 1 - n = k - (n + 1) + 2 := by omega
    have hleft : k - (n + 1) + 1 = k + 1 - (n + 1) := by omega
    rw [Function.iterate_succ_apply', ih (by omega), drqQuery_counts (k := k - (n + 1)), hleft]
    · simp
    · exact hd
    · exact hcount

/-- Settles O30: a query with `drq` low, then the run of queries, by induction on their number. -/
theorem drqPacing : Obligations.DrqPacing := by
  refine ⟨fun s hd => congrArg _ (drqQuery_of_drq_low hd), fun _ => rfl, fun s k n hd hc => ⟨fun h1 hn => ?_, ?_⟩⟩
  · rw [drqQuery_iterate hd hc hn, if_neg (by omega)]
  · rw [Function.iterate_succ_apply', drqQuery_iterate hd hc le_rfl, drqQuery_fires]
    · exact hd
    · exact Nat.add_sub_cancel_left ..

/-! ### A sector transfer in flight (R185) -/

/-- A sector transfer is in flight on the buffer `x`, with DRQ up (R175, R185). -/
structure InTransfer (s : State) (x : Xfer) : Prop where
  drq : s.flags.drq = true
  phase : s.phase = .t2Xfer
  xfer : s.xfer = some x

section
variable {s : State} {x : Xfer}

theorem InTransfer.dmaReady_true (h : InTransfer s x) : dmaReady s = true := (dmaReady_iff s).mpr ⟨h.drq, h.phase⟩

theorem withXfer_of_some (hx : s.xfer = some x) (f : Xfer → State → Result) : withXfer f s = f x s := by
  rw [withXfer, hx]

theorem InTransfer.dmaRead_eq (h : InTransfer s x) : dmaRead s = dmaReadByte x s := by
  rw [dmaRead, if_pos h.dmaReady_true, withXfer_of_some h.xfer]

/-- Only WRITE SECTOR takes a DMA write (R182). -/
theorem InTransfer.dmaWrite_eq (h : InTransfer s x) (b : Byte) :
    dmaWrite b s = if s.lastOp = 0xA then dmaWriteByte b x s else .fault .dmaWriteNotAllowed := by
  rw [dmaWrite, if_pos h.dmaReady_true, withXfer_of_some h.xfer]

theorem dmaComplete_of_transfer (hd : s.flags.drq = true) (hp : s.phase = .t2Xfer) :
    dmaComplete s = .next (finishDataTransfer s) := if_pos ((dmaReady_iff s).mpr ⟨hd, hp⟩)

theorem InTransfer.dataRead_eq (h : InTransfer s x) : dataRead s = pioReadByte x s := by
  rw [dataRead, if_pos h.drq, if_pos h.phase]
  exact withXfer_of_some h.xfer _

/-- A data-port write under WRITE SECTOR loads the register and is a transfer step (R112, R188). -/
theorem InTransfer.dataWrite_eq (h : InTransfer s x) (ho : s.lastOp = 0xA) (b : Byte) :
    dataWrite b s = pioWriteByte b x { s with regs := { s.regs with data := b } } := by
  have hcollect : s.phase ≠ .t3Collect := by rw [h.phase]; decide
  simp only [dataWrite, if_pos h.drq, if_neg hcollect, if_pos (And.intro h.phase ho)]
  exact withXfer_of_some (s := { s with regs := { s.regs with data := b } }) h.xfer _

/-! ### A step inside the buffer, and past its end (R181, R182, R184, R187, R188) -/

theorem dmaReadByte_inside (hlt : x.idx < x.len) (s : State) :
    dmaReadByte x s = .next (answer (xferByte s x) { advanceXfer x s with drqCounter := s.cfg.drqReload }) :=
  if_neg (Nat.not_le.mpr hlt)

theorem dmaReadByte_overrun (hle : x.len ≤ x.idx) (s : State) : dmaReadByte x s = .next (answerAny s) := if_pos hle

theorem dmaWriteByte_inside (hlt : x.idx < x.len) (b : Byte) (s : State) :
    dmaWriteByte b x s = .next (advanceXfer x (storeXferByte x b s)) := if_neg (Nat.not_le.mpr hlt)

theorem dmaWriteByte_overrun (hle : x.len ≤ x.idx) (b : Byte) (s : State) : dmaWriteByte b x s = .next s := if_pos hle

theorem pioReadByte_inside (hlt : x.idx < x.len) (s : State) :
    pioReadByte x s = .next (answer (xferByte s x) (finishIfLast x (advanceXfer x s))) := if_neg (Nat.not_le.mpr hlt)

theorem pioReadByte_overrun (hle : x.len ≤ x.idx) (s : State) : pioReadByte x s = .next (answerAny s) := if_pos hle

theorem pioWriteByte_inside (hlt : x.idx < x.len) (b : Byte) (s : State) :
    pioWriteByte b x s = .next (finishIfLast x (advanceXfer x (storeXferByte x b s))) := if_neg (Nat.not_le.mpr hlt)

theorem pioWriteByte_overrun (hle : x.len ≤ x.idx) (b : Byte) (s : State) : pioWriteByte b x s = .next s := if_pos hle

theorem finishIfLast_of_last (h : x.idx + 1 = x.len) (s : State) : finishIfLast x s = finishDataTransfer s := if_pos h

theorem finishIfLast_of_lt (h : x.idx + 1 < x.len) (s : State) : finishIfLast x s = s := if_neg h.ne

end

/-! ### DMA (R181 to R186) -/

/-- Settles O31: the step inside the buffer. -/
theorem dmaReadMovesNextByte : Obligations.DmaReadMovesNextByte :=
  fun s _ hd hp hx hlt => (InTransfer.dmaRead_eq ⟨hd, hp, hx⟩).trans (dmaReadByte_inside hlt s)

/-- Settles O32: by the command in flight. -/
theorem dmaWriteStoresNextByte : Obligations.DmaWriteStoresNextByte := by
  intro s x b hd hp hx
  have hwrite := InTransfer.dmaWrite_eq ⟨hd, hp, hx⟩ b
  exact ⟨fun ho hlt => (hwrite.trans (if_pos ho)).trans (dmaWriteByte_inside hlt b s),
    fun ho => hwrite.trans (if_neg ho)⟩

/-- Settles O33: the guard holds, and the index is not asked for. -/
theorem dmaCompleteFinishes : Obligations.DmaCompleteFinishes := fun _ hd hp => dmaComplete_of_transfer hd hp

/-- Settles O34: the guard the three transactions share fails. -/
theorem unexpectedDmaIsFatal : Obligations.UnexpectedDmaIsFatal := by
  intro s b h
  have hguard : ¬dmaReady s = true := by
    rw [dmaReady_iff, not_and_or, Bool.not_eq_true]
    exact h
  exact ⟨if_neg hguard, if_neg hguard, if_neg hguard⟩

/-- Settles O35: each of the four steps past the end; the two reads draw the same free value. -/
theorem overrunMovesNothing : Obligations.OverrunMovesNothing := by
  intro s x b hports hd hp hx hle
  have h : InTransfer s x := ⟨hd, hp, hx⟩
  rw [agentStep_read_data hports, agentStep_write_data hports]
  refine ⟨⟨Config.freeByte s.freeCount, ?_, ?_⟩, fun ho => ⟨?_, ?_⟩⟩
  · exact h.dmaRead_eq.trans (dmaReadByte_overrun hle s)
  · exact h.dataRead_eq.trans (pioReadByte_overrun hle s)
  · exact ((h.dmaWrite_eq b).trans (if_pos ho)).trans (dmaWriteByte_overrun hle b s)
  · exact (h.dataWrite_eq ho b).trans (pioWriteByte_overrun hle b _)

/-! ### PIO (R187, R188) -/

/-- Settles O36: the step inside the buffer, before the last byte and at it. -/
theorem pioReadMovesNextByte : Obligations.PioReadMovesNextByte := by
  intro s x hports hd hp hx
  rw [agentStep_read_data hports, InTransfer.dataRead_eq ⟨hd, hp, hx⟩]
  refine ⟨fun hlt => ?_, fun hlast => ?_⟩
  · rw [pioReadByte_inside (by omega), finishIfLast_of_lt hlt]
    rfl
  · rw [pioReadByte_inside (by omega), finishIfLast_of_last hlast]
    rfl

/-- The state after a data-port write that stores a byte before the last (R188). -/
def pioStored (x : Xfer) (b : Byte) (s : State) : State :=
  advanceXfer x (storeXferByte x b { s with regs := { s.regs with data := b } })

theorem InTransfer.dataWrite_of_lt {s : State} {x : Xfer} (h : InTransfer s x) (ho : s.lastOp = 0xA)
    (hlt : x.idx + 1 < x.len) (b : Byte) : dataWrite b s = .next (pioStored x b s) := by
  rw [h.dataWrite_eq ho, pioWriteByte_inside (by omega), finishIfLast_of_lt hlt]
  rfl

theorem InTransfer.dataWrite_of_last {s : State} {x : Xfer} (h : InTransfer s x) (ho : s.lastOp = 0xA)
    (hlast : x.idx + 1 = x.len) (b : Byte) : dataWrite b s = .next (finishDataTransfer (pioStored x b s)) := by
  rw [h.dataWrite_eq ho, pioWriteByte_inside (by omega), finishIfLast_of_last hlast]
  rfl

/-- Settles O37: the store before the last byte and at it. -/
theorem pioWriteStoresNextByte : Obligations.PioWriteStoresNextByte := by
  intro s x b hports hd hp ho hx
  rw [agentStep_write_data hports]
  exact ⟨fun hlt => InTransfer.dataWrite_of_lt ⟨hd, hp, hx⟩ ho hlt b,
    fun hlast => InTransfer.dataWrite_of_last ⟨hd, hp, hx⟩ ho hlast b⟩

/-! ### A whole WRITE SECTOR by programmed I/O (R188, R57, R186) -/

/-- A WRITE SECTOR in flight on `x` has `bytes` still to come, and the host's next steps write them, then `rest`. -/
structure PioWriteInFlight (s : State) (x : Xfer) (bytes : List Byte) (rest : List Event) : Prop
    extends InTransfer s x where
  ports : s.cfg.ports.Distinct
  command : s.lastOp = 0xA
  length : x.idx + bytes.length = x.len
  agenda : s.agenda = bytes.map (fun b => .portWrite s.cfg.ports.data b) ++ rest

/-- The WRITE SECTOR in flight in `s` on `x` is complete in `t`, with `bytes` stored from the index on. -/
structure PioWriteDone (s t : State) (x : Xfer) (bytes : List Byte) (rest : List Event) : Prop where
  stored : ∀ i, i < bytes.length → some (diskByte t x.cyl x.head x.sidx (x.idx + i)) = bytes[i]?
  others : ∀ (cyl : Nat) (head : Bool) (sidx i : Nat),
    ¬(cyl = x.cyl ∧ head = x.head ∧ sidx = x.sidx ∧ x.idx ≤ i ∧ i < x.len) →
    diskByte t cyl head sidx i = diskByte s cyl head sidx i
  phase : t.phase = .idle
  flags : t.flags = { s.flags with drq := false, busy := false, interruptPending := true }
  xfer : t.xfer = none
  intEvents : t.intEvents = s.cfg.intLine :: s.intEvents
  disk : t.disk = s.disk
  agenda : t.agenda = rest
  data : some t.regs.data = bytes.getLast?

section
variable {s : State} {x : Xfer} {b : Byte} {bytes : List Byte} {rest : List Event}

/-- The state with `bytes`, then `rest`, as the coming steps: where the step of the write before them starts. -/
def pioWriteRest (s : State) (bytes : List Byte) (rest : List Event) : State :=
  { s with agenda := bytes.map (fun b => .portWrite s.cfg.ports.data b) ++ rest }

/-- The next step is the write of the next byte to the data port (R50, R112; log 2). -/
theorem PioWriteInFlight.step_eq (h : PioWriteInFlight s x (b :: bytes) rest) :
    step s = dataWrite b (pioWriteRest s bytes rest) := by
  rw [step_of_agenda_cons h.agenda]
  exact agentStep_write_data (s := pioWriteRest s bytes rest) h.ports b

theorem PioWriteInFlight.inTransfer_rest (h : PioWriteInFlight s x (b :: bytes) rest) :
    InTransfer (pioWriteRest s bytes rest) x := ⟨h.drq, h.phase, h.xfer⟩

/-- The last byte's write completes the command (R188). -/
theorem PioWriteInFlight.step_of_last (h : PioWriteInFlight s x [b] rest) :
    step s = .next (finishDataTransfer (pioStored x b (pioWriteRest s [] rest))) :=
  h.step_eq.trans (h.inTransfer_rest.dataWrite_of_last h.command h.length b)

/-- Before the last byte a write leaves the command in flight, one byte further (R188). -/
theorem PioWriteInFlight.step_of_more (h : PioWriteInFlight s x (b :: bytes) rest) (hne : bytes ≠ []) :
    step s = .next (pioStored x b (pioWriteRest s bytes rest)) := by
  have hpos := List.length_pos_iff.mpr hne
  have hlen := h.length
  rw [List.length_cons] at hlen
  exact h.step_eq.trans (h.inTransfer_rest.dataWrite_of_lt h.command (by omega) b)

theorem PioWriteInFlight.after_step (h : PioWriteInFlight s x (b :: bytes) rest) :
    PioWriteInFlight (pioStored x b (pioWriteRest s bytes rest)) { x with idx := x.idx + 1 } bytes rest where
  drq := h.drq
  phase := h.phase
  xfer := rfl
  ports := h.ports
  command := h.command
  length := by
    have hlen := h.length
    rw [List.length_cons] at hlen
    simp only
    omega
  agenda := rfl

/-- A data-port write changes the transfer's next byte and no other (R57). -/
theorem diskByte_pioStored (x : Xfer) (b : Byte) (s : State) (bytes : List Byte) (rest : List Event) (cyl : Nat)
    (head : Bool) (sidx i : Nat) :
    diskByte (pioStored x b (pioWriteRest s bytes rest)) cyl head sidx i =
      if cyl = x.cyl ∧ head = x.head ∧ sidx = x.sidx ∧ i = x.idx then b else diskByte s cyl head sidx i :=
  diskByte_storeXferByte x b s cyl head sidx i

theorem PioWriteInFlight.done_of_last (h : PioWriteInFlight s x [b] rest) :
    PioWriteDone s (finishDataTransfer (pioStored x b (pioWriteRest s [] rest))) x [b] rest where
  stored := by
    intro i hi
    obtain rfl : i = 0 := by simpa using hi
    exact congrArg some ((diskByte_pioStored x b s [] rest ..).trans (if_pos ⟨rfl, rfl, rfl, rfl⟩))
  others := by
    intro cyl head sidx i hout
    refine (diskByte_pioStored x b s [] rest cyl head sidx i).trans (if_neg ?_)
    rintro ⟨hc, hh, hs, hi⟩
    have hlen := h.length
    rw [List.length_singleton] at hlen
    exact hout ⟨hc, hh, hs, by omega, by omega⟩
  phase := rfl
  flags := rfl
  xfer := rfl
  intEvents := rfl
  disk := rfl
  agenda := rfl
  data := rfl

/-- The bytes stored by the later writes, with the one stored first (R57). -/
theorem PioWriteDone.of_pioStored {t : State} (h : PioWriteInFlight s x (b :: bytes) rest) (hne : bytes ≠ [])
    (hd : PioWriteDone (pioStored x b (pioWriteRest s bytes rest)) t { x with idx := x.idx + 1 } bytes rest) :
    PioWriteDone s t x (b :: bytes) rest where
  stored := by
    rintro (_ | i) hi
    · have hkept := hd.others x.cyl x.head x.sidx x.idx (by simp)
      rw [diskByte_pioStored, if_pos ⟨rfl, rfl, rfl, rfl⟩] at hkept
      exact congrArg some hkept
    · have hstored := hd.stored i (by simpa using hi)
      rwa [Nat.add_assoc, Nat.add_comm 1 i] at hstored
  others := by
    intro cyl head sidx i hout
    have hlen := h.length
    rw [List.length_cons] at hlen
    have hkept := hd.others cyl head sidx i fun ⟨hc, hh, hs, hle, hlt⟩ => hout ⟨hc, hh, hs, Nat.le_of_succ_le hle, hlt⟩
    refine hkept.trans ((diskByte_pioStored x b s bytes rest cyl head sidx i).trans (if_neg ?_))
    rintro ⟨hc, hh, hs, hi⟩
    exact hout ⟨hc, hh, hs, by omega, by omega⟩
  phase := hd.phase
  flags := hd.flags
  xfer := hd.xfer
  intEvents := hd.intEvents
  disk := hd.disk
  agenda := hd.agenda
  data := by rw [hd.data, List.getLast?_cons_of_ne_nil hne]

/-- As many data-port writes as there are bytes left complete the command (R188, R186). -/
theorem PioWriteInFlight.run_done (h : PioWriteInFlight s x bytes rest) (hne : bytes ≠ []) :
    ∃ t : State, core.run bytes.length s = .next t ∧ PioWriteDone s t x bytes rest := by
  induction bytes generalizing s x with
  | nil => exact absurd rfl hne
  | cons b bytes ih =>
    by_cases hmore : bytes = []
    · subst hmore
      exact ⟨_, run_succ_of_step h.step_of_last 0, h.done_of_last⟩
    · obtain ⟨t, hrun, hdone⟩ := ih h.after_step hmore
      exact ⟨t, (run_succ_of_step (h.step_of_more hmore) _).trans hrun, hdone.of_pioStored h hmore⟩

end

/-- Settles O39: by induction over the bytes still to come, from index 0. -/
theorem pioWriteStoresSector : Obligations.PioWriteStoresSector := by
  intro s x bytes rest hports hdrq hphase hop hxfer hidx hlen hpos hagenda
  have hflight : PioWriteInFlight s x bytes rest :=
    ⟨⟨hdrq, hphase, hxfer⟩, hports, hop, by rw [hidx, hlen, Nat.zero_add], hagenda⟩
  obtain ⟨t, hrun, hd⟩ := hflight.run_done (List.length_pos_iff.mp (hlen ▸ hpos))
  refine ⟨t, hrun, fun i hi => ?_, fun cyl head sidx i hout => hd.others cyl head sidx i ?_, hd.phase, hd.flags,
    hd.xfer, hd.intEvents, hd.disk, hd.agenda, hd.data⟩
  · simpa [hidx] using hd.stored i hi
  · exact fun ⟨hc, hh, hs, _, hi⟩ => hout ⟨hc, hh, hs, hi⟩

end Sys2Proof.Machine
end

