-- ==== Sys2Proof/Proofs/TypeIII.lean ====
section
/-! SUPPORT. WRITE TRACK past its acceptance (43_type3.md): the entry (R213), the bytes of the stream (R214, R215), the
index edge that ends it (R222, R223, R231, R232), and the parser's gap byte and plainest stream (R225 to R230). -/

namespace Sys2Proof.Machine

/-! ### The entry (R213) -/

/-- A write-track entry that is not aborted runs (R20, R213). -/
theorem fireWorker_wtEntry {s : State} (ha : s.flags.commandAbort = false) : fireWorker .wtEntry s = wtEntry s :=
  if_neg (Bool.eq_false_iff.mp ha)

theorem headSelect_eq (s : State) : headSelect s = if s.cfg.sideSource = .latch then s.ext.side else s.cmd.sso := by
  cases h : s.cfg.sideSource <;> simp [headSelect, h]

theorem wtEntry_of_notReady {s : State} (h : notReady s = true) : wtEntry s = .refused .writeTrackNotReady := if_pos h

theorem wtEntry_of_protected {s : State} (h : notReady s = false) (hp : s.drive.isWriteProtected = true) :
    wtEntry s = .refused .writeTrackProtected := by
  rw [wtEntry, if_neg (Bool.eq_false_iff.mp h), if_pos hp]

theorem wtEntry_opens {s : State} (h : notReady s = false) (hp : s.drive.isWriteProtected = false) :
    wtEntry s = .next
      { s with
        wt := some { bytes := [], side := headSelect s }
        flags := { s.flags with drq := true }
        phase := .t3Collect } := by
  rw [wtEntry, if_neg (Bool.eq_false_iff.mp h), if_neg (Bool.eq_false_iff.mp hp)]

/-- Settles O41: by the two tests of the entry. -/
theorem writeTrackEntry : Obligations.WriteTrackEntry := by
  intro s ha
  rw [fireWorker_wtEntry ha, ← headSelect_eq]
  exact ⟨fun hsel hload hp => wtEntry_opens (notReady_eq_false hsel hload) hp,
    fun h => wtEntry_of_notReady ((notReady_iff s).mpr h),
    fun hsel hload hp => wtEntry_of_protected (notReady_eq_false hsel hload) hp⟩

/-! ### The stream's bytes (R214, R215) -/

/-- Under `drq`, a data-port write while WRITE TRACK collects loads the register and hands the byte to the stream
(R112). -/
theorem dataWrite_of_collecting {s : State} (hd : s.flags.drq = true) (hp : s.phase = .t3Collect) (b : Byte) :
    dataWrite b s = writeTrackByte b { s with regs := { s.regs with data := b } } := by
  rw [dataWrite, if_pos hd, if_pos hp]

theorem writeTrackByte_of_room {s : State} {w : WtBuffer} (hw : s.wt = some w) (hlt : w.bytes.length < s.cfg.wtBufSize)
    (b : Byte) : writeTrackByte b s = .next { s with wt := some { w with bytes := w.bytes ++ [b] } } := by
  simp only [writeTrackByte, hw, if_neg (Nat.not_le.mpr hlt)]

theorem writeTrackByte_of_full {s : State} {w : WtBuffer} (hw : s.wt = some w) (hle : s.cfg.wtBufSize ≤ w.bytes.length)
    (b : Byte) : writeTrackByte b s = .fault .wtOverflow := by
  simp only [writeTrackByte, hw, if_pos hle]

/-- Settles O42: by the room left in the buffer. -/
theorem streamByteCollected : Obligations.StreamByteCollected := by
  intro s w b hports hd hp hw
  have hw' : { s with regs := { s.regs with data := b } }.wt = some w := hw
  rw [agentStep_write_data hports, dataWrite_of_collecting hd hp]
  exact ⟨fun hlt => writeTrackByte_of_room hw' hlt b, fun hle => writeTrackByte_of_full hw' hle b⟩

/-! ### The index edge (R222, R223, R231, R232) -/

theorem indexEdge_of_not_collecting {s : State} (hp : s.phase ≠ .t3Collect) :
    indexEdge s = .next { s with drive := { s.drive with index := true } } := if_neg hp

theorem indexEdge_of_collecting {s : State} (hp : s.phase = .t3Collect) :
    indexEdge s = finishWriteTrack { s with drive := { s.drive with index := true } } := if_pos hp

/-- Settles O43: the edge is the drive's step, and the block's part of it is for T3_COLLECT alone. -/
theorem indexEdgeElsewhere : Obligations.IndexEdgeElsewhere := fun _ hp => indexEdge_of_not_collecting hp

theorem finishWriteTrack_of_parsed {s : State} {w : WtBuffer} {n size : Nat} (hw : s.wt = some w)
    (hparse : parseTrack (parseEnvOf s w) w.bytes = .ok (n, size)) (hload : s.drive.isLoaded = true) :
    finishWriteTrack s =
      .next (writeTrackComplete (formatTrack (latchFormat s.ext.dden) s.regs.track.toNat w.side n size s)) := by
  simp only [finishWriteTrack, hw, hparse, if_pos hload]

/-- The stream parses and there is no disk to format (R300, U8; log 47). -/
theorem finishWriteTrack_of_mediumAbsent {s : State} {w : WtBuffer} {n size : Nat} (hw : s.wt = some w)
    (hparse : parseTrack (parseEnvOf s w) w.bytes = .ok (n, size)) (hload : s.drive.isLoaded = false) :
    finishWriteTrack s = .refused .mediumAbsent := by
  simp only [finishWriteTrack, hw, hparse, if_neg (Bool.eq_false_iff.mp hload)]

theorem finishWriteTrack_of_violation {s : State} {w : WtBuffer} {f : Fault} (hw : s.wt = some w)
    (hparse : parseTrack (parseEnvOf s w) w.bytes = .error f) : finishWriteTrack s = .fault f := by
  simp only [finishWriteTrack, hw, hparse]

/-- A formatted track is in the directory, with its format and sectors (R231). -/
theorem getTrack_formatTrack_self (fmt : TrackFormat) (cyl : Nat) (head : Bool) (count size : Nat) (s : State) :
    getTrack (formatTrack fmt cyl head count size s).disk cyl head =
      some { cyl, head, format := fmt, sectorLens := List.replicate count size, serial := s.freeCount + 1 } :=
  getTrack_putTrack_self _ s.disk.tracks s.disk.modified

/-- Settles O44: by what the parser answers, and for a stream that parses by whether a medium is loaded. -/
theorem indexEdgeFormats : Obligations.IndexEdgeFormats := by
  intro s w hphase hw
  have hedge : agentStep .indexEdge s = finishWriteTrack { s with drive := { s.drive with index := true } } :=
    indexEdge_of_collecting hphase
  refine ⟨fun n size hparse => ⟨fun hload => ?_, fun hload => ?_⟩, fun f hparse => ?_⟩
  · refine ⟨_, hedge.trans (finishWriteTrack_of_parsed hw hparse hload), ⟨_, getTrack_formatTrack_self .., rfl, rfl⟩, ?_,
      rfl, rfl, rfl, rfl, rfl, rfl, rfl, rfl, rfl⟩
    exact fun cyl head sidx i hne => diskByte_formatTrack_other _ n size _ hne sidx i
  · exact hedge.trans (finishWriteTrack_of_mediumAbsent hw hparse hload)
  · exact hedge.trans (finishWriteTrack_of_violation hw hparse)

/-! ### The gap byte (R225, D27) -/

theorem parseByte_gap4 (env : ParseEnv) {p : Parser} (hp : p.mode = .gap4) (b : Byte) :
    parseByte env p b = if b = gapByte env.dden then .ok { p with mode := .indexMark } else .error .wtBadGap := by
  simp only [parseByte, hp]

theorem parseTrack_badGap {env : ParseEnv} {b : Byte} (hb : b ≠ gapByte env.dden) (rest : List Byte) :
    parseTrack env (b :: rest) = .error .wtBadGap := by
  have hgap : parseByte env parserStart b = .error .wtBadGap := (parseByte_gap4 env rfl b).trans (if_neg hb)
  exact parseTrack_violation (before := []) rfl hgap rest

/-- The answer to a byte that has nothing to do with the gap: neither WT_BadGap nor the state `Gap4`. -/
def GapPassed (r : Except Fault Parser) : Prop := r ≠ .error .wtBadGap ∧ ∀ q, r = .ok q → q.mode ≠ .gap4

theorem gapPassed_ok {p : Parser} (hp : p.mode ≠ .gap4) : GapPassed (.ok p) :=
  ⟨by simp, by rintro q ⟨⟩; exact hp⟩

theorem gapPassed_error {f : Fault} (hf : f ≠ .wtBadGap) : GapPassed (.error f) :=
  ⟨by simpa using hf, by simp⟩

theorem gapPassed_ite {c : Prop} [Decidable c] {r r' : Except Fault Parser} (h : GapPassed r) (h' : GapPassed r') :
    GapPassed (if c then r else r') := by
  split
  · exact h
  · exact h'

theorem gapPassed_checkId (env : ParseEnv) (p : Parser) (t h n l : Byte) : GapPassed (checkId env p t h n l) :=
  gapPassed_ite (gapPassed_error (by decide)) <| gapPassed_ite (gapPassed_error (by decide)) <|
    gapPassed_ite (gapPassed_error (by decide)) <| gapPassed_ite (gapPassed_error (by decide)) <|
      gapPassed_ite (gapPassed_error (by decide)) (gapPassed_ok (by simp))

theorem gapPassed_parseIdByte (env : ParseEnv) (p : Parser) (got : List Byte) (b : Byte) :
    GapPassed (parseIdByte env p got b) := by
  unfold parseIdByte
  split
  · exact gapPassed_checkId ..
  · exact gapPassed_ok (by simp)

theorem gapPassed_parseDataByte (p : Parser) (count : Nat) (b : Byte) : GapPassed (parseDataByte p count b) :=
  gapPassed_ite (gapPassed_ite (gapPassed_ok (by simp)) (gapPassed_error (by decide))) (gapPassed_ok (by simp))

/-- Waiting for a mark, the parser goes on or stays; neither leads to `Gap4`. -/
theorem gapPassed_mark {p q : Parser} (hp : p.mode ≠ .gap4) (hq : q.mode ≠ .gap4) (b mark : Byte) :
    GapPassed (.ok (if b = mark then q else p)) := by
  split
  · exact gapPassed_ok hq
  · exact gapPassed_ok hp

/-- No state but `Gap4` looks at the gap (D27). -/
theorem gapPassed_parseByte (env : ParseEnv) {p : Parser} (hp : p.mode ≠ .gap4) (b : Byte) :
    GapPassed (parseByte env p b) := by
  unfold parseByte
  split
  next hm => exact absurd hm hp
  next => exact gapPassed_mark hp (by simp) ..
  next => exact gapPassed_mark hp (by simp) ..
  next => exact gapPassed_parseIdByte ..
  next => exact gapPassed_mark hp (by simp) ..
  next => exact gapPassed_parseDataByte ..

/-- Settles O45: the byte read in `Gap4`, the stream's first byte, and by the state a byte read in any other. -/
theorem firstByteIsGap : Obligations.FirstByteIsGap :=
  ⟨fun env _ b hp => parseByte_gap4 env hp b, fun _ _ rest hb => parseTrack_badGap hb rest,
    fun env _ b hp => gapPassed_parseByte env hp b⟩

/-! ### The plainest stream (R226 to R230, S4) -/

/-- Sector `k + 1` with nothing between its parts and one filler byte. -/
def plainSector (code fill : Byte) (k : Nat) : SectorImage where
  before := []
  number := BitVec.ofNat 8 (k + 1)
  between := []
  data := List.replicate (sectorSize code) fill

/-- Sectors 1 to `count` in order, with nothing between the parts. -/
def plainLayout (code fill : Byte) (count : Nat) : TrackLayout where
  lead := []
  code := code
  sectors := (List.range count).map (plainSector code fill)
  trail := []

theorem plainSector_bytes (env : ParseEnv) (code fill : Byte) (k : Nat) :
    (plainSector code fill k).bytes env code = sectorRecord env code fill (BitVec.ofNat 8 (k + 1)) := rfl

theorem plainLayout_bytes (env : ParseEnv) (code fill : Byte) (count : Nat) :
    (plainLayout code fill count).bytes env = formatStream env code fill count := by
  simp only [TrackLayout.bytes, plainLayout, formatStream, List.flatMap_map, plainSector_bytes, List.append_nil,
    List.cons_append, List.nil_append]

theorem plainSector_fits {fill : Byte} (hfill : fill ≠ 0xF7) (code : Byte) (k : Nat) :
    (plainSector code fill k).Fits code where
  before := List.not_mem_nil
  between := List.not_mem_nil
  data := fun hm => hfill (List.eq_of_mem_replicate hm).symm
  length := List.length_replicate

theorem plainSector_number {code fill : Byte} {k : Nat} (hk : k + 1 ≤ 255) :
    (plainSector code fill k).number.toNat = k + 1 := by
  rw [plainSector, BitVec.toNat_ofNat, Nat.mod_eq_of_lt (by omega)]

theorem plainLayout_valid {code fill : Byte} {n : Nat} (h1 : 1 ≤ n) (hn : n ≤ 255) (hcode : code.toNat ≤ 3)
    (hfill : fill ≠ 0xF7) : (plainLayout code fill n).Valid n (sectorSize code) where
  lead := List.not_mem_nil
  trail := List.not_mem_nil
  code := hcode
  fits := List.forall_mem_map.mpr fun k _ => plainSector_fits hfill code k
  length := by rw [plainLayout, List.length_map, List.length_range]
  some := h1
  numbers := fun k hk hkn => by
    have hmem : k - 1 ∈ List.range n := List.mem_range.mpr (by omega)
    refine ⟨plainSector code fill (k - 1), List.mem_map_of_mem hmem, ?_⟩
    rw [plainSector_number (by omega)]
    omega
  size := rfl

/-- Settles O46: the stream is the bytes of a valid layout. -/
theorem parserAcceptsLayout : Obligations.ParserAcceptsLayout := by
  intro env code fill n h1 hn hcode hfill
  rw [← plainLayout_bytes]
  exact (plainLayout_valid h1 hn hcode hfill).parseTrack env

end Sys2Proof.Machine
end

