-- ==== Sys2Proof/Proofs/TypeIV.lean ====
section
/-! SUPPORT. FORCE INTERRUPT (44_force_interrupt.md): its acceptance, which is also its completion. What follows it with
the block left alone stands with the runs of the Type I commands. -/

namespace Sys2Proof.Machine

/-! ### The abort (R250 to R253) -/

/-- Settles O13: the dispatcher's part, whose recorded opcode the abort overwrites with RESTORE's, then the abort, field
by field; neither the busy flag nor the condition bits are looked at. -/
theorem forceInterruptAborts : Obligations.ForceInterruptAborts := fun _ _ => rfl

end Sys2Proof.Machine
end

