-- ==== Sys2Proof/Proofs/ExternalLatch.lean ====
section
/-! SUPPORT. The external latch (45_external_latch.md): the latch write that leaves the chip as it is (R268, R269), chip
enable of an idle block (R264, R266, R267), the external status (R270). What chip disable does stands with `Reset()`. -/

namespace Sys2Proof.Machine

/-! ### The latch write that leaves the chip as it is (R268, R269) -/

theorem chipEnable_of_enabled {s : State} (hf : s.flags.fdcEnabled = true) : chipEnable s = .next s := if_pos hf

theorem chipDisable_of_disabled {s : State} (hf : s.flags.fdcEnabled = false) : chipDisable s = s :=
  if_neg (Bool.eq_false_iff.mp hf)

theorem extWrite_of_chipEn {s : State} {b : Byte} (hc : (latchFields s.cfg.extStateBits b).chipEn = true) :
    extWrite b s = chipEnable (latchWrite (latchFields s.cfg.extStateBits b) s) := if_pos hc

theorem extWrite_of_not_chipEn {s : State} {b : Byte} (hc : (latchFields s.cfg.extStateBits b).chipEn = false) :
    extWrite b s = .next (chipDisable (latchWrite (latchFields s.cfg.extStateBits b) s)) :=
  if_neg (Bool.eq_false_iff.mp hc)

/-- A latch byte that asks for the chip as it is does steps 1 and 2 of the write alone (R260, R268, R269). -/
theorem extWrite_of_chipEn_eq {s : State} {b : Byte}
    (h : (latchFields s.cfg.extStateBits b).chipEn = s.flags.fdcEnabled) :
    extWrite b s = .next (latchWrite (latchFields s.cfg.extStateBits b) s) := by
  cases hf : s.flags.fdcEnabled with
  | true => exact (extWrite_of_chipEn (h.trans hf)).trans (chipEnable_of_enabled hf)
  | false => exact (extWrite_of_not_chipEn (h.trans hf)).trans (congrArg _ (chipDisable_of_disabled hf))

/-- Settles O50: the write's first two steps, in an enabled chip and in a disabled one. -/
theorem latchWriteIdempotent : Obligations.LatchWriteIdempotent := by
  intro s b hports h
  rw [agentStep_write_ext hports, extWrite_of_chipEn_eq h]
  rfl

/-! ### Chip enable (R264, R266, R267) -/

/-- The byte of the synthetic RESTORE is RESTORE with h = 1 and V = 0 (R266, D12). -/
theorem decodeByte_syntheticRestore : decodeByte syntheticRestore = .restore true false 0 := by decide

/-- Past the busy test, the synthetic RESTORE is RESTORE's acceptance (R266). -/
theorem dispatch_syntheticRestore {s : State} (hb : s.flags.busy = false) :
    dispatch syntheticRestore s = exec (.restore true false 0) s := by
  rw [dispatch, if_neg (fun h => Bool.false_ne_true (hb.symm.trans h.1)), decodeByte_syntheticRestore]

/-- Chip enable of an idle, disabled block: the flag, RESTORE's acceptance, the index override (R264, R266, R267). -/
theorem chipEnable_of_idle {s : State} (hf : s.flags.fdcEnabled = false) (hb : s.flags.busy = false) :
    chipEnable s =
      andThen (exec (.restore true false 0) { s with flags := { s.flags with fdcEnabled := true } }) fun t =>
        .next (startIndexOverride t) :=
  (if_neg (Bool.eq_false_iff.mp hf)).trans (congrArg (andThen · _) (dispatch_syntheticRestore hb))

/-- The index override, with its two fields written out for both levels of the drive's select (R264). -/
theorem startIndexOverride_eq (s : State) :
    startIndexOverride s =
      { s with
        flags := { s.flags with indexReset := s.ext.driveSelect || s.flags.indexReset }
        indexTimer := if s.ext.driveSelect then some (s.now + s.cfg.tIndexOverride) else s.indexTimer } := by
  cases hd : s.ext.driveSelect <;> simp [startIndexOverride, hd]

/-- Settles O49: the latch write, then chip enable's RESTORE, accepted field by field, and its index override. -/
theorem chipEnableStartsRestore : Obligations.ChipEnableStartsRestore := by
  rintro s b e hports rfl hc hf hb
  rw [agentStep_write_ext hports, extWrite_of_chipEn hc]
  refine (chipEnable_of_idle (s := latchWrite _ s) hf hb).trans ?_
  rw [restoreAccepted true false 0]
  exact congrArg Host.Outcome.next (startIndexOverride_eq _)

/-! ### The external status (R270) -/

/-- Each field of the external status reads as it was put in, whatever the free bits (R91, R270). -/
theorem readField_statusFields {m : Config.ExtStatusBits} (h : m.Distinct) (dc tc ts nf : Bool) (base : Byte) :
    readField m.diskChanged (statusFields m dc tc ts nf base) = dc ∧
      readField m.terminalCount (statusFields m dc tc ts nf base) = tc ∧
      readField m.twoSided (statusFields m dc tc ts nf base) = ts ∧
      readField m.noFloppy (statusFields m dc tc ts nf base) = nf := by
  simp only [Config.ExtStatusBits.Distinct, List.nodup_cons, List.mem_cons, List.not_mem_nil, or_false, not_or] at h
  obtain ⟨⟨hdt, hds, hdn⟩, ⟨hts, htn⟩, hsn, -, -⟩ := h
  simp only [statusFields, readField_writeField_self, readField_writeField_other, Ne.symm hdt, Ne.symm hds, Ne.symm hdn,
    Ne.symm hts, Ne.symm htn, Ne.symm hsn, ne_eq, not_false_eq_true, and_self]

/-- Settles O52: the byte is composed of the four fields over a fresh free byte. -/
theorem externalStatusRead : Obligations.ExternalStatusRead := fun s hports hbits =>
  ⟨_, agentStep_read_ext hports,
    readField_statusFields hbits s.drive.diskChange s.dmaTc (!s.drive.isSingleSided) (!s.drive.isLoaded) _⟩

end Sys2Proof.Machine
end

