-- ==== Sys2Proof/Proofs/Exceptions.lean ====
section
/-! SUPPORT. The interrupt output and the drive (60_exceptions.md): which operations call the line `INT_LINE` and which
can clear `interrupt_pending` (R290, R291), and the drive's positioning call within its range (R300). -/

namespace Sys2Proof.Machine

/-! ### The drive's positioning (R300) -/

/-- Settles O25: within the range the head's target is the cylinder asked for. -/
theorem seekToWithinRange : Obligations.SeekToWithinRange := by
  intro s c h0 h1
  rw [seekTo, seekTarget_in_range s.cfg s.drive c h0 h1]

/-! ### What a step can do to the interrupt (R290, R291) -/

/-- The line has not been called, and the pending bit is as it was. -/
structure InterruptKept (s t : State) : Prop where
  line : t.intEvents = s.intEvents
  pending : t.flags.interruptPending = s.flags.interruptPending

theorem InterruptKept.refl (s : State) : InterruptKept s s := ⟨rfl, rfl⟩

theorem InterruptKept.trans {s t u : State} (h : InterruptKept s t) (h' : InterruptKept t u) : InterruptKept s u :=
  ⟨h'.line.trans h.line, h'.pending.trans h.pending⟩

/-- A command has completed with one call on the line: from a Type I worker's timer, a sector transfer, or a WRITE TRACK
that collects (R148, R186, R232). -/
structure InterruptRaised (s t : State) : Prop where
  line : t.intEvents = s.cfg.intLine :: s.intEvents
  pending : t.flags.interruptPending = true
  busy : t.flags.busy = false
  phase : t.phase = .idle
  source : s.workerTimer.map WorkerTimer.kind = some .t1Tick ∨ s.phase = .t2Xfer ∨ s.phase = .t3Collect

/-- The events that may clear `interrupt_pending`: a status read, a command write that is not discarded, the latch write
that enables or disables the chip, a reset (R291). -/
def Event.acknowledges (a : Event) (s : State) : Prop :=
  a = .portRead s.cfg.ports.cmdStatus ∨ a = .reset ∨ (a = .masterReset false ∧ s.masterReset = true) ∨
    (∃ c, a = .portWrite s.cfg.ports.cmdStatus c ∧ (s.flags.busy = false ∨ commandOp s c = 0xD)) ∨
    (∃ b, a = .portWrite s.cfg.ports.ext b ∧ (latchFields s.cfg.extStateBits b).chipEn ≠ s.flags.fdcEnabled)

/-! ### Commands and ports -/

/-- A discarded command byte leaves the interrupt, and no command calls the line (R115, R250). -/
theorem interruptKept_or_runs_of_dispatch {c : Byte} {s t : State} (e : dispatch c s = .next t) :
    InterruptKept s t ∨ (t.intEvents = s.intEvents ∧ (s.flags.busy = false ∨ opcodeNibble c = 0xD)) := by
  obtain ⟨-, -, rfl⟩ | ⟨hrun, e⟩ := dispatch_cases e
  · exact .inl (.refl _)
  · exact .inr ⟨(commandFrame_of_exec e).intEvents, hrun⟩

/-- The last byte a host writes to a sector completes the command; every other byte it writes leaves the interrupt
(R188, R214). -/
theorem interruptKept_or_raised_of_dataWrite {b : Byte} {s t : State} (e : dataWrite b s = .next t) :
    InterruptKept s t ∨ InterruptRaised s t := by
  obtain ⟨-, -, e⟩ | ⟨-, hp, -, e⟩ | rfl := dataWrite_cases e
  · obtain ⟨w, -, -, rfl⟩ := writeTrackByte_cases e
    exact .inl ⟨rfl, rfl⟩
  · obtain ⟨x, -, ⟨-, rfl⟩ | ⟨-, rfl⟩ | ⟨-, rfl⟩⟩ := sectorPioWrite_cases e
    · exact .inl ⟨rfl, rfl⟩
    · exact .inr ⟨rfl, rfl, rfl, rfl, .inr (.inl hp)⟩
    · exact .inl ⟨rfl, rfl⟩
  · exact .inl ⟨rfl, rfl⟩

/-- The last byte a host reads of a sector completes the command (R187). -/
theorem interruptKept_or_raised_of_dataRead {s t : State} (e : dataRead s = .next t) :
    InterruptKept s t ∨ InterruptRaised s t := by
  obtain ⟨-, hp, e⟩ | ⟨-, rfl⟩ := dataRead_cases e
  · obtain ⟨x, -, ⟨-, rfl⟩ | ⟨-, rfl⟩ | ⟨-, rfl⟩⟩ := sectorPioRead_cases e
    · exact .inl ⟨rfl, rfl⟩
    · exact .inr ⟨rfl, rfl, rfl, rfl, .inr (.inl hp)⟩
    · exact .inl ⟨rfl, rfl⟩
  · exact .inl ⟨rfl, rfl⟩

theorem startIndexOverride_intEvents (s : State) : (startIndexOverride s).intEvents = s.intEvents := by
  unfold startIndexOverride
  split <;> rfl

/-- A latch write leaves the interrupt unless it enables or disables the chip, and never calls the line: the synthetic
RESTORE is only accepted here (R266, R268). -/
theorem interruptKept_or_switches_of_extWrite {b : Byte} {s t : State} (e : extWrite b s = .next t) :
    InterruptKept s t ∨
      (t.intEvents = s.intEvents ∧ (latchFields s.cfg.extStateBits b).chipEn ≠ s.flags.fdcEnabled) := by
  obtain ⟨l, rfl, ⟨-, rfl⟩ | ⟨hl, hf, rfl⟩ | ⟨hl, hf, u, hu, rfl⟩⟩ := extWrite_cases e
  · exact .inl ⟨rfl, rfl⟩
  · exact .inr ⟨rfl, by simp [hl, hf]⟩
  · have hline : u.intEvents = s.intEvents := (interruptKept_or_runs_of_dispatch hu).elim (·.line) (·.1)
    exact .inr ⟨(startIndexOverride_intEvents u).trans hline, by simp [hl, hf]⟩

theorem interrupt_of_portWrite {p b : Byte} {s t : State} (e : portWrite p b s = .next t) :
    InterruptKept s t ∨ InterruptRaised s t ∨
      (t.intEvents = s.intEvents ∧ (Event.portWrite p b).acknowledges s) := by
  obtain ⟨rfl, hcommand⟩ | ⟨-, rfl⟩ | ⟨-, rfl⟩ | ⟨-, e⟩ | ⟨rfl, hlatch⟩ := portWrite_cases e
  · exact (interruptKept_or_runs_of_dispatch hcommand).imp_right fun ⟨hline, hrun⟩ =>
      .inr ⟨hline, .inr (.inr (.inr (.inl ⟨b, rfl, hrun⟩)))⟩
  · exact .inl ⟨rfl, rfl⟩
  · exact .inl ⟨rfl, rfl⟩
  · exact (interruptKept_or_raised_of_dataWrite e).imp_right .inl
  · exact (interruptKept_or_switches_of_extWrite hlatch).imp_right fun ⟨hline, hswitch⟩ =>
      .inr ⟨hline, .inr (.inr (.inr (.inr ⟨b, rfl, hswitch⟩)))⟩

theorem interrupt_of_portRead {p : Byte} {s t : State} (e : portRead p s = .next t) :
    InterruptKept s t ∨ InterruptRaised s t ∨ (t.intEvents = s.intEvents ∧ (Event.portRead p).acknowledges s) := by
  obtain ⟨rfl, rfl⟩ | ⟨-, rfl⟩ | ⟨-, rfl⟩ | ⟨-, e⟩ | ⟨-, rfl⟩ := portRead_cases e
  · exact .inr (.inr ⟨rfl, .inl rfl⟩)
  · exact .inl ⟨rfl, rfl⟩
  · exact .inl ⟨rfl, rfl⟩
  · exact (interruptKept_or_raised_of_dataRead e).imp_right .inl
  · exact .inl ⟨rfl, rfl⟩

/-! ### The DMA engine and the drive -/

theorem interruptKept_of_dmaRead {s t : State} (e : dmaRead s = .next t) : InterruptKept s t := by
  obtain ⟨-, -, x, -, ⟨-, rfl⟩ | ⟨-, rfl⟩⟩ := dmaRead_cases e <;> exact ⟨rfl, rfl⟩

theorem interruptKept_of_dmaWrite {b : Byte} {s t : State} (e : dmaWrite b s = .next t) : InterruptKept s t := by
  obtain ⟨-, -, -, x, -, ⟨-, rfl⟩ | ⟨-, rfl⟩⟩ := dmaWrite_cases e <;> exact ⟨rfl, rfl⟩

theorem interruptRaised_of_dmaComplete {s t : State} (e : dmaComplete s = .next t) : InterruptRaised s t := by
  obtain ⟨-, hp, rfl⟩ := dmaComplete_cases e
  exact ⟨rfl, rfl, rfl, rfl, .inr (.inl hp)⟩

theorem interruptKept_drqQuery (s : State) : InterruptKept s (drqQuery s) := by
  unfold drqQuery
  split <;> exact ⟨rfl, rfl⟩

/-- An index edge completes a WRITE TRACK that collects, and leaves the interrupt elsewhere (R222, R232). -/
theorem interruptKept_or_raised_of_indexEdge {s t : State} (e : indexEdge s = .next t) :
    InterruptKept s t ∨ InterruptRaised s t := by
  obtain ⟨hp, e⟩ | ⟨-, rfl⟩ := indexEdge_cases e
  · obtain ⟨w, n, size, -, -, -, rfl⟩ := finishWriteTrack_cases e
    exact .inr ⟨rfl, rfl, rfl, rfl, .inr (.inr hp)⟩
  · exact .inl ⟨rfl, rfl⟩

/-- A level of master reset that is not its falling edge leaves the interrupt (R310). -/
theorem interrupt_masterResetLevel (high : Bool) (s : State) :
    InterruptKept s (masterResetLevel high s) ∨
      ((masterResetLevel high s).intEvents = s.intEvents ∧ (Event.masterReset high).acknowledges s) := by
  unfold masterResetLevel
  split
  next hedge =>
    obtain ⟨hlevel, rfl⟩ := hedge
    exact .inr ⟨rfl, .inr (.inr (.inl ⟨rfl, hlevel⟩))⟩
  next => exact .inl ⟨rfl, rfl⟩

/-! ### The timer agent -/

/-- A sector entry leaves the interrupt, even where the command fails (R174). -/
theorem interruptKept_of_sectorEntry {s t : State} (e : sectorEntry s = .next t) : InterruptKept s t := by
  obtain ⟨-, rfl⟩ | ⟨trk, -, -, ⟨-, rfl⟩ | ⟨len, -, -, -, -, rfl⟩⟩ := sectorEntry_cases e <;> exact ⟨rfl, rfl⟩

/-- Firing the worker's timer leaves the interrupt, unless a Type I worker finds no step due and completes (R148). -/
theorem interruptKept_or_raised_of_worker {w : WorkerTimer} {s t : State} (hw : s.workerTimer = some w)
    (e : fireWorker w.kind { advanceTo w.due s with workerTimer := none } = .next t) :
    InterruptKept s t ∨ InterruptRaised s t := by
  obtain ⟨-, rfl⟩ | ⟨-, ⟨hk, rfl⟩ | ⟨-, e⟩ | ⟨-, e⟩⟩ := fireWorker_cases e
  · exact .inl ⟨rfl, rfl⟩
  · obtain ⟨-, -, ht⟩ | ⟨-, -, ht⟩ | ht := t1Tick_cases { advanceTo w.due s with workerTimer := none } <;> rw [ht]
    · exact .inl ⟨rfl, rfl⟩
    · exact .inl ⟨rfl, rfl⟩
    · exact .inr ⟨rfl, rfl, rfl, rfl, .inl (by simp [hw, hk])⟩
  · exact .inl { interruptKept_of_sectorEntry e with }
  · obtain ⟨-, -, rfl⟩ := wtEntry_cases e
    exact .inl ⟨rfl, rfl⟩

theorem interruptKept_or_raised_of_tick {s t : State} (e : tick s = .next t) :
    InterruptKept s t ∨ InterruptRaised s t := by
  obtain ⟨-, -, rfl⟩ | ⟨w, hw, -, e⟩ | ⟨i, -, -, rfl⟩ := tick_cases e
  · exact .inl (.refl _)
  · exact interruptKept_or_raised_of_worker hw e
  · exact .inl ⟨rfl, rfl⟩

/-- The schedule is not read by what a tick does to the interrupt. -/
theorem interruptKept_or_raised_of_tick_agenda {s t : State} {agenda : List Event}
    (e : tick { s with agenda := agenda } = .next t) : InterruptKept s t ∨ InterruptRaised s t :=
  (interruptKept_or_raised_of_tick e).imp (fun h => { h with }) (fun h => { h with })

theorem interruptKept_or_raised_of_runLine {s t : State} (e : runLine s = .next t) :
    InterruptKept s t ∨ InterruptRaised s t := by
  obtain ⟨-, rfl⟩ | e := runLine_cases e
  · exact .inl (.refl _)
  · exact interruptKept_or_raised_of_tick_agenda e

theorem interruptKept_or_raised_of_waitLine {ns : Nat} {s t : State} (e : waitLine ns s = .next t) :
    InterruptKept s t ∨ InterruptRaised s t := by
  obtain ⟨-, -, rfl⟩ | ⟨rest, e⟩ := waitLine_cases e
  · exact .inl ⟨rfl, rfl⟩
  · exact interruptKept_or_raised_of_tick_agenda e

theorem interruptKept_elapse (ns : Nat) (s : State) : InterruptKept s (elapse ns s) := by
  obtain ⟨d, -, -, -, e⟩ := elapse_cases ns s
  rw [e]
  exact ⟨rfl, rfl⟩

/-! ### Every step -/

/-- An agent's step leaves the interrupt, completes a command, or is one that acknowledges (R290, R291). -/
theorem interrupt_of_agentStep {a : Event} {s t : State} (e : agentStep a s = .next t) :
    InterruptKept s t ∨ InterruptRaised s t ∨ (t.intEvents = s.intEvents ∧ a.acknowledges s) := by
  cases a with
  | portWrite port b => exact interrupt_of_portWrite e
  | portRead port => exact interrupt_of_portRead e
  | reset => obtain rfl := next_inj.mp e; exact .inr (.inr ⟨rfl, .inr (.inl rfl)⟩)
  | masterReset high => obtain rfl := next_inj.mp e; exact (interrupt_masterResetLevel high s).imp_right .inr
  | tick => exact (interruptKept_or_raised_of_tick e).imp_right .inl
  | run => exact (interruptKept_or_raised_of_runLine e).imp_right .inl
  | wait ns => exact (interruptKept_or_raised_of_waitLine e).imp_right .inl
  | elapse ns => obtain rfl := next_inj.mp e; exact .inl (interruptKept_elapse ns s)
  | drqQuery => obtain rfl := next_inj.mp e; exact .inl (interruptKept_drqQuery s)
  | dmaRead => exact .inl (interruptKept_of_dmaRead e)
  | dmaWrite b => exact .inl (interruptKept_of_dmaWrite e)
  | dmaComplete => exact .inr (.inl (interruptRaised_of_dmaComplete e))
  | indexEdge => exact (interruptKept_or_raised_of_indexEdge e).imp_right .inl
  | dmaTc | driveInput => obtain rfl := next_inj.mp e; exact .inl ⟨rfl, rfl⟩

/-- A step leaves the interrupt, completes a command, or is the step of an agent that acknowledges (R290, R291). -/
theorem interrupt_of_step {s t : State} (e : step s = .next t) :
    InterruptKept s t ∨ InterruptRaised s t ∨
      (t.intEvents = s.intEvents ∧ ∃ a rest, s.agenda = a :: rest ∧ a.acknowledges s) := by
  obtain ⟨-, e⟩ | ⟨a, rest, ha, e⟩ := step_cases e
  · exact (interruptKept_or_raised_of_tick e).imp_right .inl
  · obtain hkept | hraised | ⟨hline, hack⟩ := interrupt_of_agentStep e
    · exact .inl { hkept with }
    · exact .inr (.inl { hraised with })
    · exact .inr (.inr ⟨hline, a, rest, ha, hack⟩)

theorem Phase.timer_eq_t1Tick {p : Phase} : p.timer = some .t1Tick ↔ p = .t1Run := by
  cases p <;> simp [Phase.timer]

/-- In a state of the invariant a Type I worker's timer runs in T1_RUN alone (R19). -/
theorem InterruptRaised.source_phase {s t : State} (h : InterruptRaised s t) (hs : SequencerInv s) :
    s.phase = .t1Run ∨ s.phase = .t2Xfer ∨ s.phase = .t3Collect :=
  h.source.imp_left fun hk => Phase.timer_eq_t1Tick.mp (hs.worker.symm.trans hk)

/-- Settles O54: of what a step can do to the interrupt, a completion alone calls the line. -/
theorem onlyCompletionsInterrupt : Obligations.OnlyCompletionsInterrupt := by
  intro s t hinv e hcalled
  obtain hkept | hraised | ⟨hline, -⟩ := interrupt_of_step e
  · exact absurd hkept.line hcalled
  · exact ⟨hraised.line, hraised.pending, hraised.busy, hraised.phase, hraised.source_phase hinv.sequencer⟩
  · exact absurd hline hcalled

/-- Settles O55: a step that keeps the interrupt or completes a command leaves a pending one pending. -/
theorem onlyAcknowledgesClearInterrupt : Obligations.OnlyAcknowledgesClearInterrupt := by
  intro s t e hpending hcleared
  obtain hkept | hraised | ⟨-, hack⟩ := interrupt_of_step e
  · simp [hkept.pending, hpending] at hcleared
  · simp [hraised.pending] at hcleared
  · exact hack

end Sys2Proof.Machine
end
